-- ==== Sys2Proof/Word.lean ====
section
/-! DEFINITION. The widths the spec fixes: bytes, 32-bit words, 128-bit blocks and 16-bit bus offsets
(spec/00_scope.md R9, R10, R12). -/

namespace Sys2Proof

/-- One byte of a byte memory or of a byte string (R11). -/
abbrev Byte := BitVec 8

/-- A register, a round key, a command word, the data of one bus transaction (R9, R120). -/
abbrev Word := BitVec 32

/-- A block as its 128-bit value `blk2int`, byte 0 most significant (R12). -/
abbrev Block := BitVec 128

/-- A byte offset inside the engine's 64 KiB window (R80). -/
abbrev Offset := BitVec 16

end Sys2Proof
end

