-- ==== Sys2Proof/Config.lean ====
section
/-! DEFINITION. What one engine is built with (the parameters of spec/00_scope.md R9) and the free values
(the draws of R16): constants with no body, so that no proof can see what they are. -/

namespace Sys2Proof

/-- The parameters of one engine, constants of that engine (R9). Every state carries the parameters of its
engine, so a statement over all states is a statement over all parameters; no step changes them (log entry 3). -/
structure Params where
  /-- `BUF_BYTES`, the size of the data buffer (D8) -/
  bufBytes : Nat
  /-- `HAS_HWSUB`, whether the byte-substitution primitive is present (D9) -/
  hasHwsub : Bool
  /-- `ENGINE_BASE`, the platform address of offset 0 (D7) -/
  engineBase : Nat
  deriving DecidableEq, Repr

/-- The instance `State.reset` describes: the values R9 gives for the test vectors, at base 0
(DESIGN CHOICE, log entry 3). -/
def Config.referenceParams : Params :=
  { bufBytes := 4096, hasHwsub := false, engineBase := 0 }

/-- The byte IVMEM holds at an address nothing has written since the reset numbered `epoch` (R350, U1). -/
opaque Config.ivmemDraw (epoch addr : Nat) : Byte

/-- The byte BUF holds at an address nothing has written since the reset numbered `epoch` (R350, U1). -/
opaque Config.bufDraw (epoch addr : Nat) : Byte

/-- `draw32` of the `n`-th bus read that returned a draw (R90, R91, U2). -/
opaque Config.busDraw (n : Nat) : Word

/-- The T-table word of lane `k` and byte `b` before InitDone has built the table (R350, U5). -/
opaque Config.tableDraw (epoch k : Nat) (b : Byte) : Word

end Sys2Proof
end

