-- ==== Sys2Proof/Syntax.lean ====
section
/-! DEFINITION. The commands: one constructor per row of spec/opcode_table.json (spec/30_encoding.md R122).
A command has no register, immediate or mode field; every operand is implicit (R120), so no constructor has an
argument. -/

namespace Sys2Proof

/-- The 13 commands of R122. -/
inductive Instr where
  /-- NOP, R160 -/
  | nop
  /-- SUB, R190 -/
  | sub
  /-- ROUND_T, R191 -/
  | roundT
  /-- ROUND_TP, R192 -/
  | roundTp
  /-- KEYEXP, R210 -/
  | keyexp
  /-- ENC_BLOCK, R233 -/
  | encBlock
  /-- DEC_BLOCK, R234 -/
  | decBlock
  /-- GFMUL, R253 -/
  | gfmul
  /-- GHASH_INIT, R254 -/
  | ghashInit
  /-- GHASH_BLOCK, R255 -/
  | ghashBlock
  /-- CTR_BLOCK, R281 -/
  | ctrBlock
  /-- GCM_ENCRYPT, R287 -/
  | gcmEncrypt
  /-- GCM_DECRYPT, R291 -/
  | gcmDecrypt
  deriving DecidableEq, Repr

end Sys2Proof
end

