-- ==== Sys2Proof/WellFormed.lean ====
section
/-! DEFINITION. What is well formed: a command word (spec/30_encoding.md R121, R124) and the parameters of an
engine (spec/00_scope.md R9). A command itself has no field that could be out of range (R120). -/

namespace Sys2Proof

/-- The MBZ field of a command word is zero (R120). -/
def CommandWord.mbzZero (w : Word) : Bool := w.extractLsb' 8 24 == 0

/-- The assigned opcodes, as R159 lists them. -/
def CommandWord.assignedOpcodes : List Byte :=
  [0x00, 0x01, 0x02, 0x03, 0x04, 0x05, 0x06, 0x07, 0x08, 0x09, 0x0A, 0x10, 0x11]

/-- The opcode field of a command word is assigned (R122). -/
def CommandWord.opcodeAssigned (w : Word) : Bool :=
  CommandWord.assignedOpcodes.contains (w.extractLsb' 0 8)

/-- A legal command word (R121). -/
def CommandWord.legal (w : Word) : Bool :=
  CommandWord.mbzZero w && CommandWord.opcodeAssigned w

/-- Every command is well formed: it has no operand field (R120). -/
def Instr.wellFormed : Instr → Bool
  | .nop | .sub | .roundT | .roundTp | .keyexp | .encBlock | .decBlock | .gfmul
  | .ghashInit | .ghashBlock | .ctrBlock | .gcmEncrypt | .gcmDecrypt => true

/-- `BUF_BYTES` is a multiple of 16 from 16 to 32768 (R9). -/
def Params.bufBytesLegal (p : Params) : Bool :=
  p.bufBytes % 16 == 0 && decide (16 ≤ p.bufBytes) && decide (p.bufBytes ≤ 32768)

/-- `ENGINE_BASE` is a multiple of 0x10000 (R9). -/
def Params.engineBaseLegal (p : Params) : Bool := p.engineBase % 0x10000 == 0

/-- The parameters have values R9 calls legal; `HAS_HWSUB` is legal by its type. -/
def Params.legal (p : Params) : Bool := p.bufBytesLegal && p.engineBaseLegal

end Sys2Proof
end

