-- ==== Sys2Proof/Decode.lean ====
section
/-! DEFINITION. Decoding and encoding of command words (spec/30_encoding.md R120 to R125). A command word is the
32-bit word a host writes to CMD; it stands in no memory, so it has no byte order, and its length is always one
word (R125). -/

namespace Sys2Proof

/-- Why a word is illegal (R124): the two bullets of the rule. -/
inductive DecodeError where
  /-- `w[31:8] ≠ 0` -/
  | upperBitsNotZero
  /-- `w[31:8] = 0` and the opcode is one of 0x0B..0x0F, 0x12..0xFF -/
  | unassignedOpcode
  deriving DecidableEq, Repr

/-- One row of the opcode map R122: the words `w` with `w & mask = value` select `instr`. -/
structure OpcodeRow where
  mask : Word
  value : Word
  instr : Instr
  deriving DecidableEq, Repr

/-- The opcode map of R122, row by row. -/
def opcodeTable : List OpcodeRow :=
  [ ⟨0xFFFFFFFF, 0x00000000, .nop⟩,
    ⟨0xFFFFFFFF, 0x00000001, .sub⟩,
    ⟨0xFFFFFFFF, 0x00000002, .roundT⟩,
    ⟨0xFFFFFFFF, 0x00000003, .roundTp⟩,
    ⟨0xFFFFFFFF, 0x00000004, .keyexp⟩,
    ⟨0xFFFFFFFF, 0x00000005, .encBlock⟩,
    ⟨0xFFFFFFFF, 0x00000006, .decBlock⟩,
    ⟨0xFFFFFFFF, 0x00000007, .gfmul⟩,
    ⟨0xFFFFFFFF, 0x00000008, .ghashInit⟩,
    ⟨0xFFFFFFFF, 0x00000009, .ghashBlock⟩,
    ⟨0xFFFFFFFF, 0x0000000A, .ctrBlock⟩,
    ⟨0xFFFFFFFF, 0x00000010, .gcmEncrypt⟩,
    ⟨0xFFFFFFFF, 0x00000011, .gcmDecrypt⟩ ]

/-- The word falls under the row. -/
def OpcodeRow.matches (r : OpcodeRow) (w : Word) : Bool := w &&& r.mask == r.value

/-- The command a word selects, or the reason it is illegal: total on every 32-bit word (R121). -/
def decode (w : Word) : Except DecodeError Instr :=
  match opcodeTable.find? (·.matches w) with
  | some r => .ok r.instr
  | none => .error (if CommandWord.mbzZero w then .unassignedOpcode else .upperBitsNotZero)

/-- The opcode of a command (R122). -/
def Instr.opcode : Instr → Byte
  | .nop => 0x00
  | .sub => 0x01
  | .roundT => 0x02
  | .roundTp => 0x03
  | .keyexp => 0x04
  | .encBlock => 0x05
  | .decBlock => 0x06
  | .gfmul => 0x07
  | .ghashInit => 0x08
  | .ghashBlock => 0x09
  | .ctrBlock => 0x0A
  | .gcmEncrypt => 0x10
  | .gcmDecrypt => 0x11

/-- The command word of a command: MBZ above the opcode (R120). -/
def encode (i : Instr) : Word := (0 : BitVec 24) ++ i.opcode

/-- The decoder on an opcode-table word of `nbits` bits (a command word has 32; the bits above `nbits` are 0). -/
def decodeTableWord (nbits w : Nat) : Option Instr :=
  if nbits ≤ 32 ∧ w < 2 ^ nbits then (decode (BitVec.ofNat 32 w)).toOption else none

end Sys2Proof
end

