-- ==== Sys2Proof/Machine/State.lean ====
section
/-! DEFINITION. The state of the engine (the record of spec/10_state.md R60, and GS and the T-table, which R350
gives reset values), the state of the two agents outside it (what the host still issues, who moves next), and the
last bus response. Plain data throughout. -/

namespace Sys2Proof.Machine

/-- The control state (R50). -/
inductive Ctl where
  /-- after reset, until InitDone -/
  | init
  /-- no command running -/
  | idle
  /-- a command accepted and not completed -/
  | busy
  deriving DecidableEq, Repr

/-- A round-function backend, in the encoding of CTRL.BACKEND (R34); the value 3 is never held (R35, R42). -/
inductive Backend where
  /-- 0 -/
  | reference
  /-- 1 -/
  | tableDriven
  /-- 2 -/
  | hardwareAccelerated
  deriving DecidableEq, Repr

/-- The result codes of ERR; codes 5 to 255 never occur (R44, R321). -/
inductive ErrCode where
  /-- 0 -/
  | ok
  /-- 1, ILLEGAL_CMD -/
  | illegalCmd
  /-- 2, NO_KEY -/
  | noKey
  /-- 3, BAD_LENGTH -/
  | badLength
  /-- 4, AUTH_FAIL -/
  | authFail
  deriving DecidableEq, Repr

/-- The command snapshot taken at acceptance (R53). -/
structure Pend where
  /-- `pend.word` -/
  word : Word
  /-- `pend.bsel` -/
  bsel : Backend
  deriving DecidableEq, Repr

/-- The private GCM state GS (R55). -/
structure GcmState where
  gH : Block
  gJ0 : Block
  gCTR : Block
  gY : Block
  deriving DecidableEq, Repr

/-- What the T-table holds: nothing specified before InitDone, the words of R188 after it (R54, R350, R352). Its
words are a fixed function of the substitution table, so which of the two it is is all there is to hold. -/
inductive TTable where
  | unspecified
  | built
  deriving DecidableEq, Repr

/-- A byte memory: the bytes written since the last reset, addresses strictly rising. An address that is not listed
holds the draw taken at reset (R57, R58, R350; log entry 4). -/
abbrev Memory := List Host.Cell

/-- The response of a bus transaction (R81). -/
inductive Resp where
  | okay
  | slverr
  deriving DecidableEq, Repr

/-- What the slave port answered (R81). -/
inductive BusResult where
  /-- `Read(off) → (data, resp)` -/
  | read (data : Word) (resp : Resp)
  /-- `Write(off, data) → resp` -/
  | write (resp : Resp)
  deriving DecidableEq, Repr

/-- One line of a host program (R140). -/
inductive HostOp where
  /-- `WR off, data` -/
  | wr (off : Offset) (data : Word)
  /-- `RD off` -/
  | rd (off : Offset)
  /-- `POLL off, mask, value` -/
  | poll (off : Offset) (mask value : Word)
  deriving DecidableEq, Repr

/-- One event of the total order R93: which agent of R8 moves. -/
inductive Turn where
  /-- the host issues one bus transaction -/
  | host
  /-- the engine takes the step that is enabled, InitDone or Complete, if one is -/
  | engine
  /-- the reset input is asserted -/
  | assertReset
  /-- the reset input is released -/
  | releaseReset
  deriving DecidableEq, Repr

/-- The state. The fields from `ctrlIe` to `buf` are the record of R60; `gs` and `tt` are R55 and R54; the rest is
the model's own (log entries 1, 3, 4, 5, 6, 12, 14, 20). -/
structure State where
  /-- CTRL.IE (R34) -/
  ctrlIe : Bool
  /-- CTRL.BACKEND (R34, R35) -/
  ctrlBackend : Backend
  /-- STATUS.DONE (R38) -/
  done : Bool
  /-- STATUS.KEY_VALID (R39) -/
  keyValid : Bool
  /-- STATUS.WERR (R41) -/
  werr : Bool
  /-- STATUS.ACTIVE_BACKEND (R42) -/
  activeBackend : Backend
  /-- CMD (R43) -/
  cmd : Word
  /-- ERR.CODE (R44) -/
  err : ErrCode
  /-- IV_LEN (R45) -/
  ivLen : Word
  /-- AAD_LEN (R45) -/
  aadLen : Word
  /-- TEXT_LEN (R45) -/
  textLen : Word
  /-- KEY0..KEY3 (R46) -/
  key : Block
  /-- OPA0..OPA3 (R47) -/
  opa : Block
  /-- OPB0..OPB3 (R47) -/
  opb : Block
  /-- RES0..RES3 (R48) -/
  res : Block
  /-- H0..H3 (R49) -/
  h : Block
  /-- Y0..Y3 (R49) -/
  y : Block
  /-- CTR0..CTR3 (R49) -/
  ctr : Block
  /-- TAG0..TAG3 (R49) -/
  tag : Block
  /-- `rk[0..31]` (R51) -/
  rk : Vector Word 32
  /-- `ctl` (R50) -/
  ctl : Ctl
  /-- `st.pend` (R53) -/
  pend : Pend
  /-- IVMEM (R57) -/
  ivmem : Memory
  /-- BUF (R58) -/
  buf : Memory
  /-- GS (R55) -/
  gs : GcmState
  /-- the T-table (R54) -/
  tt : TTable
  /-- the engine's parameters (R9); no step changes them -/
  params : Params
  /-- the reset input is asserted (R350, R351) -/
  resetAsserted : Bool
  /-- how many resets have been asserted: which draws the unwritten bytes hold (R350) -/
  epoch : Nat
  /-- how many bus reads have returned a draw (R90) -/
  drawCount : Nat
  /-- the answer of the transaction of the last turn, if that turn was one (R81) -/
  resp : Option BusResult
  /-- the lines the host has still to run, first line first (R140) -/
  program : List HostOp
  /-- the data of the RD lines the host has run, oldest first: what the names of those lines stand for (R140) -/
  reads : List Word
  /-- who moves next, first turn first (R8, R93) -/
  turns : List Turn
  deriving DecidableEq, Repr

/-- Nothing the engine does stops the machine: a command error completes, a bus error is a response (R320). There is
no reason to fault (log entry 19). -/
inductive Fault where
  deriving DecidableEq, Repr

/-- Why a step has no meaning. -/
inductive Refusal where
  /-- raised only by an arm of `exec` that has no meaning yet; safe: nothing is claimed about such a step. No arm
  raises it. -/
  | notModelled (mnemonic : String)
  deriving DecidableEq, Repr

/-- GS when it is not in use (R350). -/
def GcmState.zero : GcmState := { gH := 0, gJ0 := 0, gCTR := 0, gY := 0 }

/-- The state of an engine with parameters `p` when its first reset is released (R350), with no turn and no host
program laid down, and nothing read. -/
def State.resetOf (p : Params) : State :=
  { ctrlIe := false, ctrlBackend := .hardwareAccelerated,
    done := false, keyValid := false, werr := false, activeBackend := .reference,
    cmd := 0, err := .ok, ivLen := 0, aadLen := 0, textLen := 0,
    key := 0, opa := 0, opb := 0, res := 0, h := 0, y := 0, ctr := 0, tag := 0,
    rk := Vector.replicate 32 0,
    ctl := .init, pend := { word := 0, bsel := .reference },
    ivmem := [], buf := [],
    gs := GcmState.zero, tt := .unspecified,
    params := p, resetAsserted := false, epoch := 0, drawCount := 0,
    resp := none, program := [], reads := [], turns := [] }

/-- The machine right after reset, for the instance of the test vectors (R350, R9; log entry 3). -/
def State.reset : State := State.resetOf Config.referenceParams

end Sys2Proof.Machine
end

