-- ==== Sys2Proof/Machine/Ops.lean ====
section
/-! DEFINITION. The named operations over words, byte strings, the byte memories and the register groups, and the
end of a command: completing it and raising an error (spec/00_scope.md R10 to R16, spec/40_command_protocol.md R155). -/

namespace Sys2Proof.Machine

/-! ### Words, blocks and byte strings -/

/-- `rotl32` (R10). -/
def rotl32 (x : Word) (n : Nat) : Word := (x <<< n) ||| (x >>> (32 - n))

/-- The block `w0 ++ w1 ++ w2 ++ w3` (R14, R32). -/
def blockOfWords (w0 w1 w2 w3 : Word) : Block := w0 ++ w1 ++ w2 ++ w3

/-- Word `k` of a block, `v[127-32k : 96-32k]` (R12). -/
def blockWord (v : Block) (k : Nat) : Word := v.extractLsb' (96 - 32 * k) 32

/-- The block with word `k` replaced. -/
def blockSetWord (v : Block) (k : Fin 4) (w : Word) : Block :=
  blockOfWords (if k = 0 then w else blockWord v 0) (if k = 1 then w else blockWord v 1)
    (if k = 2 then w else blockWord v 2) (if k = 3 then w else blockWord v 3)

/-- A function of words applied to the four words of a block. -/
def blockMapWords (f : Word → Word) (v : Block) : Block :=
  blockOfWords (f (blockWord v 0)) (f (blockWord v 1)) (f (blockWord v 2)) (f (blockWord v 3))

/-- Byte `j` of a block, `j = 0` the most significant (R12). -/
def blockByte (v : Block) (j : Nat) : Byte := v.extractLsb' (8 * (15 - j)) 8

/-- `int2blk`: the 16 bytes of a block, byte 0 first (R12). -/
def int2blk (v : Block) : List Byte := (List.range 16).map (blockByte v)

/-- `blk2int`: the value of a byte string read big-endian (R12). -/
def blk2int (bs : List Byte) : Block := bs.foldl (fun acc b => (acc <<< 8) ||| b.setWidth 128) 0

/-- `be_n(v)`: the `n`-byte big-endian encoding (R11). -/
def beBytes (n v : Nat) : List Byte :=
  (List.range n).map fun j => BitVec.ofNat 8 (v / 2 ^ (8 * (n - 1 - j)))

/-- `zeros(n)` (R11). -/
def zeros (n : Nat) : List Byte := List.replicate n 0

/-- `roundup16` (R11). -/
def roundup16 (n : Nat) : Nat := (n + 15) / 16 * 16

/-- `pad16` (R11). -/
def pad16 (bs : List Byte) : List Byte := bs ++ zeros (roundup16 bs.length - bs.length)

/-- XOR of two byte strings, as long as the shorter. -/
def xorBytes (as bs : List Byte) : List Byte := List.zipWith (· ^^^ ·) as bs

/-! ### Byte memories -/

/-- The byte written at an address since the last reset, if one was. -/
def Memory.get? : Memory → Nat → Option Byte
  | [], _ => none
  | (x, b) :: m, a => if a = x then some b else Memory.get? m a

/-- The memory with one byte written. -/
def Memory.put : Memory → Nat → Byte → Memory
  | [], a, b => [(a, b)]
  | (x, c) :: m, a, b =>
    if a < x then (a, b) :: (x, c) :: m
    else if a = x then (a, b) :: m
    else (x, c) :: Memory.put m a b

/-- The memory with the bytes of `bs` written from `a` on: `MemWrite` (R15). -/
def Memory.putBytes : Memory → Nat → List Byte → Memory
  | m, _, [] => m
  | m, a, b :: bs => Memory.putBytes (Memory.put m a b) (a + 1) bs

/-- The canonical form of a memory of `size` bytes: addresses strictly rising and below `size`. An unlisted address
has no value of its own (its byte is a draw), so no entry can repeat one (log entry 4). -/
abbrev Memory.wf (size : Nat) (m : Memory) : Prop :=
  m.Pairwise (fun c d => c.1 < d.1) ∧ ∀ c ∈ m, c.1 < size

/-- `IVMEM[a]` (R57): the byte written last, else the draw taken at reset (R350). -/
def State.ivByte (s : State) (a : Nat) : Byte :=
  (Memory.get? s.ivmem a).getD (Config.ivmemDraw s.epoch a)

/-- `BUF[a]` (R58): the byte written last, else the draw taken at reset (R350). -/
def State.bufByte (s : State) (a : Nat) : Byte :=
  (Memory.get? s.buf a).getD (Config.bufDraw s.epoch a)

/-- `MemRead(IVMEM, off, n)` (R15). -/
def State.ivRead (s : State) (off n : Nat) : List Byte := (List.range n).map fun i => s.ivByte (off + i)

/-- `MemRead(BUF, off, n)` (R15). -/
def State.bufRead (s : State) (off n : Nat) : List Byte := (List.range n).map fun i => s.bufByte (off + i)

/-- `MemWrite(BUF, off, len(bs), bs)` (R15). -/
def State.bufWrite (s : State) (off : Nat) (bs : List Byte) : State :=
  { s with buf := Memory.putBytes s.buf off bs }

/-- `Write` of a memory word into IVMEM (R87). -/
def State.ivWrite (s : State) (off : Nat) (bs : List Byte) : State :=
  { s with ivmem := Memory.putBytes s.ivmem off bs }

/-- The data word of four memory bytes at rising offsets: little-endian lanes (R87). -/
def wordOfLanes (b0 b1 b2 b3 : Byte) : Word := b3 ++ b2 ++ b1 ++ b0

/-- The four memory bytes of a data word, the lowest offset first: `d[8k+7 : 8k]` for k = 0..3 (R87). -/
def lanesOfWord (d : Word) : List Byte := (List.range 4).map fun k => d.extractLsb' (8 * k) 8

/-! ### The end of a command -/

/-- What every completion writes beside the command's effect: ERR, DONE and `ctl` (R155). -/
def State.finish (code : ErrCode) (s : State) : State := { s with err := code, done := true, ctl := .idle }

/-- `complete(0)` (R16): the command has applied its effect and ends with ERR = 0. -/
def complete (s : State) : Host.Outcome State Fault Refusal := .next (s.finish .ok)

/-- `raise Error(code)` (R16, R158, R320): nothing the command would write is written. The engine takes no trap
(R327), so this is all there is to a command error. -/
def raiseError (code : ErrCode) (s : State) : Host.Outcome State Fault Refusal := .next (s.finish code)

/-- The context check (R157 step 2): the command goes on only with KEY_VALID = 1. -/
def withContext (s : State) (go : State → Host.Outcome State Fault Refusal) : Host.Outcome State Fault Refusal :=
  if s.keyValid then go s else raiseError .noKey s

end Sys2Proof.Machine
end

