-- ==== Sys2Proof/Machine/Flags.lean ====
section
/-! DEFINITION. The control, status and error registers as the host sees them, the rules for writing them, and the
`irq` output (spec/10_state.md R33 to R44, R59). -/

namespace Sys2Proof.Machine

/-- A flag as one bit. -/
def flagBit (b : Bool) : BitVec 1 := if b then 1 else 0

/-- The encoding of a backend in CTRL.BACKEND and STATUS.ACTIVE_BACKEND (R34). -/
def Backend.bits : Backend → BitVec 2
  | .reference => 0
  | .tableDriven => 1
  | .hardwareAccelerated => 2

/-- The backend two bits ask for; 3 is not legal (R35). -/
def Backend.ofBits? (b : BitVec 2) : Option Backend :=
  if b = 0 then some .reference
  else if b = 1 then some .tableDriven
  else if b = 2 then some .hardwareAccelerated
  else none

/-- The code of ERR[7:0] (R44, R321). -/
def ErrCode.bits : ErrCode → Byte
  | .ok => 0
  | .illegalCmd => 1
  | .noKey => 2
  | .badLength => 3
  | .authFail => 4

/-- STATUS.BUSY, a view of `ctl` (R37). -/
def State.busyFlag (s : State) : Bool := s.ctl == .busy

/-- STATUS.READY, a view of `ctl` (R40). -/
def State.readyFlag (s : State) : Bool := s.ctl != .init

/-- CTRL as read: [0] IE, [5:4] BACKEND, the rest 0 (R34). -/
def State.ctrlReg (s : State) : Word :=
  (0 : BitVec 26) ++ s.ctrlBackend.bits ++ (0 : BitVec 3) ++ flagBit s.ctrlIe

/-- STATUS with the two context fields given: [0] BUSY, [1] DONE, [2] KEY_VALID, [3] READY, [4] WERR,
[9:8] ACTIVE_BACKEND, the rest 0 (R36). -/
def State.statusWith (s : State) (keyValid : BitVec 1) (activeBackend : BitVec 2) : Word :=
  (0 : BitVec 22) ++ activeBackend ++ (0 : BitVec 3) ++ flagBit s.werr ++ flagBit s.readyFlag ++ keyValid ++
    flagBit s.done ++ flagBit s.busyFlag

/-- STATUS as read (R36). -/
def State.statusReg (s : State) : Word := s.statusWith (flagBit s.keyValid) s.activeBackend.bits

/-- ERR as read: CODE in [7:0], the rest 0 (R44). -/
def State.errReg (s : State) : Word := (0 : BitVec 24) ++ s.err.bits

/-- ID (R31). -/
def idReg : Word := 0x52464531

/-- CAP of an engine: [0] HWSUB, [15:8] IV_BLOCKS, [31:16] BUF_BLOCKS (R33). -/
def capReg (p : Params) : Word :=
  BitVec.ofNat 16 (p.bufBytes / 16) ++ (0x10 : BitVec 8) ++ (0 : BitVec 7) ++ flagBit p.hasHwsub

/-- The `irq` output (R59, R328). -/
def State.irq (s : State) : Bool := s.ctrlIe && s.done

/-- A write to CTRL: IE is stored, BACKEND is stored unless it is 3, other bits are ignored (R34, R35). -/
def State.writeCtrl (s : State) (d : Word) : State :=
  { s with ctrlIe := d.getLsbD 0, ctrlBackend := (Backend.ofBits? (d.extractLsb' 4 2)).getD s.ctrlBackend }

/-- A write to STATUS: clears DONE and WERR where the data bit is 1, and nothing else (R36). -/
def State.writeStatus (s : State) (d : Word) : State :=
  { s with done := s.done && !d.getLsbD 1, werr := s.werr && !d.getLsbD 4 }

end Sys2Proof.Machine
end

