-- ==== Sys2Proof/Machine/Operands.lean ====
section
/-! DEFINITION. The locations of the window (the address map of spec/20_memory.md R84 and the register list of
spec/10_state.md R30), reading and writing a register by its location, and the implicit operands of the GCM commands
(spec/45_ctr_gcm.md R285, R286). -/

namespace Sys2Proof.Machine

/-- The 128-bit register groups (R32). -/
inductive Group where
  | key | opa | opb | res | h | y | ctr | tag
  deriving DecidableEq, Repr

/-- What an offset addresses (R30, R82, R84, R86). -/
inductive Loc where
  /-- `off[1:0] ≠ 0` -/
  | misaligned
  /-- a reserved offset, holes among the registers included -/
  | reserved
  | id
  | cap
  | ctrl
  | status
  | cmd
  | err
  | ivLen
  | aadLen
  | textLen
  /-- register `k` of a 128-bit group -/
  | group (g : Group) (k : Fin 4)
  /-- round key `i` -/
  | rk (i : Fin 32)
  /-- the IVMEM word at byte `a` -/
  | ivmem (a : Nat)
  /-- the BUF word at byte `a` -/
  | buf (a : Nat)
  deriving DecidableEq, Repr

/-- The groups in the order of their offsets, 0x040, 0x050, ..., 0x0B0 (R30). -/
def groupAt : Nat → Option Group
  | 4 => some .key
  | 5 => some .opa
  | 6 => some .opb
  | 7 => some .res
  | 8 => some .h
  | 9 => some .y
  | 10 => some .ctr
  | 11 => some .tag
  | _ => none

/-- The register at an aligned offset below 0x180 (R30). -/
def locateRegister (off : Nat) : Loc :=
  if off = 0x000 then .id
  else if off = 0x004 then .cap
  else if off = 0x008 then .ctrl
  else if off = 0x00C then .status
  else if off = 0x010 then .cmd
  else if off = 0x014 then .err
  else if off = 0x018 then .ivLen
  else if off = 0x01C then .aadLen
  else if off = 0x020 then .textLen
  else if off < 0x100 then
    match groupAt (off / 16) with
    | some g => .group g (Fin.ofNat 4 (off / 4))
    | none => .reserved
  else .rk (Fin.ofNat 32 ((off - 0x100) / 4))

/-- The address map R84, after the alignment rule R82. -/
def locate (p : Params) (off : Offset) : Loc :=
  let a := off.toNat
  if a % 4 ≠ 0 then .misaligned
  else if a < 0x180 then locateRegister a
  else if a < 0x1000 then .reserved
  else if a < 0x1100 then .ivmem (a - 0x1000)
  else if a < 0x8000 then .reserved
  else if a < 0x8000 + p.bufBytes then .buf (a - 0x8000)
  else .reserved

/-- The offset of a platform address, if the address is in the engine's window (R80, D7). -/
def platformOffset (p : Params) (addr : Nat) : Option Offset :=
  if p.engineBase ≤ addr ∧ addr < p.engineBase + 0x10000 then some (BitVec.ofNat 16 (addr - p.engineBase)) else none

/-- The 128-bit value of a group, `reg128[P]` (R14, R32). -/
def State.group (s : State) : Group → Block
  | .key => s.key
  | .opa => s.opa
  | .opb => s.opb
  | .res => s.res
  | .h => s.h
  | .y => s.y
  | .ctr => s.ctr
  | .tag => s.tag

/-- `reg128[P] <- v` (R14). -/
def State.setGroup (s : State) (g : Group) (v : Block) : State :=
  match g with
  | .key => { s with key := v }
  | .opa => { s with opa := v }
  | .opb => { s with opb := v }
  | .res => { s with res := v }
  | .h => { s with h := v }
  | .y => { s with y := v }
  | .ctr => { s with ctr := v }
  | .tag => { s with tag := v }

/-- The current value of a location (R85, R87); 0 where there is none (R82, R86). -/
def State.valueAt (s : State) : Loc → Word
  | .misaligned => 0
  | .reserved => 0
  | .id => idReg
  | .cap => capReg s.params
  | .ctrl => s.ctrlReg
  | .status => s.statusReg
  | .cmd => s.cmd
  | .err => s.errReg
  | .ivLen => s.ivLen
  | .aadLen => s.aadLen
  | .textLen => s.textLen
  | .group g k => blockWord (s.group g) k
  | .rk i => s.rk[i]
  | .ivmem a => wordOfLanes (s.ivByte a) (s.ivByte (a + 1)) (s.ivByte (a + 2)) (s.ivByte (a + 3))
  | .buf a => wordOfLanes (s.bufByte a) (s.bufByte (a + 1)) (s.bufByte (a + 2)) (s.bufByte (a + 3))

/-- A location whose write always gives SLVERR with no effect: misaligned, reserved or read-only (R82, R86). -/
def Loc.refusesWrites : Loc → Bool
  | .misaligned | .reserved | .id | .cap | .err | .group .res _ | .rk _ => true
  | .ctrl | .status | .cmd | .ivLen | .aadLen | .textLen | .ivmem _ | .buf _ => false
  | .group .key _ | .group .opa _ | .group .opb _ | .group .h _ | .group .y _ | .group .ctr _ | .group .tag _ => false

/-- A location a host may write even when the engine is not IDLE: CTRL and STATUS (R89). -/
def Loc.alwaysWritable : Loc → Bool
  | .ctrl | .status => true
  | .misaligned | .reserved | .id | .cap | .cmd | .err | .ivLen | .aadLen | .textLen | .group _ _ | .rk _
  | .ivmem _ | .buf _ => false

/-! ### Operands of the GCM commands -/

/-- `IV_LEN` as an exact integer (R123, D28). -/
def State.ivBytes (s : State) : Nat := s.ivLen.toNat

/-- `AAD_LEN` as an exact integer. -/
def State.aadBytes (s : State) : Nat := s.aadLen.toNat

/-- `TEXT_LEN` as an exact integer. -/
def State.textBytes (s : State) : Nat := s.textLen.toNat

/-- `TB = roundup16(AAD_LEN)`, where the text begins in BUF (R286). -/
def State.textBase (s : State) : Nat := roundup16 s.aadBytes

/-- The length checks of R285, in exact arithmetic. -/
def State.lengthsOk (s : State) : Bool :=
  decide (1 ≤ s.ivBytes) && decide (s.ivBytes ≤ 256) && decide (s.textBase + s.textBytes ≤ s.params.bufBytes)

/-- The IV, `IVMEM[0..IV_LEN)` (R286). -/
def State.ivOperand (s : State) : List Byte := s.ivRead 0 s.ivBytes

/-- The AAD, `BUF[0..AAD_LEN)` (R286). -/
def State.aadOperand (s : State) : List Byte := s.bufRead 0 s.aadBytes

/-- The text, `BUF[TB..TB+TEXT_LEN)` (R286). -/
def State.textOperand (s : State) : List Byte := s.bufRead s.textBase s.textBytes

end Sys2Proof.Machine
end

