-- ==== Sys2Proof/Machine/Substitution.lean ====
section
/-! DEFINITION. The substitution table, the diffusion layers, the round functions, the T-table, and the commands
SUB, ROUND_T and ROUND_TP (spec/41_substitution_round.md). -/

namespace Sys2Proof.Machine

/-- The rows of the table of R180, high nibble 0 to F; each row holds columns 0 to F from the left. -/
def sboxRows : List Block :=
  [ 0xd690e9fecce13db716b614c228fb2c05,
    0x2b679a762abe04c3aa44132649860699,
    0x9c4250f491ef987a33540b43edcfac62,
    0xe4b31ca9c908e89580df94fa758f3fa6,
    0x4707a7fcf37317ba83593c19e6854fa8,
    0x686b81b27164da8bf8eb0f4b70569d35,
    0x1e240e5e6358d1a225227c3b01217887,
    0xd40046579fd327524c3602e7a0c4c89e,
    0xeabf8ad240c738b5a3f7f2cef96115a1,
    0xe0ae5da49b341a55ad933230f58cb1e3,
    0x1df6e22e8266ca60c02923ab0d534e6f,
    0xd5db3745defd8e2f03ff6a726d6c5b51,
    0x8d1baf92bbddbc7f11d95c411f105ad8,
    0x0ac13188a5cd7bbd2d74d012b8e5b4b0,
    0x8969974a0c96777e65b9f109c56ec684,
    0x18f07dec3adc4d2079ee5f3ed7cb3948 ]

/-- `Sbox`, the substitution table (R180): row the high nibble, column the low nibble. -/
def sbox (b : Byte) : Byte := blockByte (sboxRows.getD (b.toNat / 16) 0) (b.toNat % 16)

/-- `tau` (R182). -/
def tau (x : Word) : Word :=
  sbox (x.extractLsb' 24 8) ++ sbox (x.extractLsb' 16 8) ++ sbox (x.extractLsb' 8 8) ++ sbox (x.extractLsb' 0 8)

/-- `L` (R183). -/
def diffuse (s : Word) : Word := s ^^^ rotl32 s 2 ^^^ rotl32 s 10 ^^^ rotl32 s 18 ^^^ rotl32 s 24

/-- `L′` (R183). -/
def diffuseKey (s : Word) : Word := s ^^^ rotl32 s 13 ^^^ rotl32 s 23

/-- `T` (R184). Every backend gives this result (R187). -/
def roundT (x : Word) : Word := diffuse (tau x)

/-- `T′` (R184). Every backend gives this result (R187). -/
def roundTp (x : Word) : Word := diffuseKey (tau x)

/-! ### The table-driven backend -/

/-- `TT_k[b]` as InitDone builds it (R188). -/
def tableWord (k : Nat) (b : Byte) : Word := diffuse ((sbox b).setWidth 32 <<< (24 - 8 * k))

/-- `TT_k[b]` in a state: unspecified before InitDone, R188's word after it (R350, R352). -/
def State.tableEntry (s : State) (k : Nat) (b : Byte) : Word :=
  match s.tt with
  | .built => tableWord k b
  | .unspecified => Config.tableDraw s.epoch k b

/-- T by four lookups in the state's table and three XORs (R189). -/
def State.tableRoundT (s : State) (x : Word) : Word :=
  s.tableEntry 0 (x.extractLsb' 24 8) ^^^ s.tableEntry 1 (x.extractLsb' 16 8) ^^^
    s.tableEntry 2 (x.extractLsb' 8 8) ^^^ s.tableEntry 3 (x.extractLsb' 0 8)

/-! ### Commands -/

/-- SUB: `RES_k <- tau(OPA_k)` for k = 0..3 (R190). -/
def execSub (s : State) : Host.Outcome State Fault Refusal :=
  complete { s with res := blockMapWords tau s.opa }

/-- ROUND_T: `RES_k <- T(OPA_k)` for k = 0..3 (R191). -/
def execRoundT (s : State) : Host.Outcome State Fault Refusal :=
  complete { s with res := blockMapWords roundT s.opa }

/-- ROUND_TP: `RES_k <- T′(OPA_k)` for k = 0..3 (R192). -/
def execRoundTp (s : State) : Host.Outcome State Fault Refusal :=
  complete { s with res := blockMapWords roundTp s.opa }

end Sys2Proof.Machine
end

