-- ==== Sys2Proof/Machine/KeySchedule.lean ====
section
/-! DEFINITION. The key schedule and the command KEYEXP (spec/42_key_schedule.md). -/

namespace Sys2Proof.Machine

/-- `FK[0..3]` (R211). -/
def fk : List Word := [0xa3b1bac6, 0x56aa3350, 0x677d9197, 0xb27022dc]

/-- `CK[0..31]` (R211). -/
def ck : List Word :=
  [ 0x00070e15, 0x1c232a31, 0x383f464d, 0x545b6269, 0x70777e85, 0x8c939aa1, 0xa8afb6bd, 0xc4cbd2d9,
    0xe0e7eef5, 0xfc030a11, 0x181f262d, 0x343b4249, 0x50575e65, 0x6c737a81, 0x888f969d, 0xa4abb2b9,
    0xc0c7ced5, 0xdce3eaf1, 0xf8ff060d, 0x141b2229, 0x30373e45, 0x4c535a61, 0x686f767d, 0x848b9299,
    0xa0a7aeb5, 0xbcc3cad1, 0xd8dfe6ed, 0xf4fb0209, 0x10171e25, 0x2c333a41, 0x484f565d, 0x646b7279 ]

/-- The rounds of R212: from `st[i..i+3]` and the constants `CK[i..]`, the words `rk[i..]`. -/
def keyRounds : List Word → Word → Word → Word → Word → List Word
  | [], _, _, _, _ => []
  | c :: cs, a, b, x, y =>
    let z := a ^^^ roundTp (b ^^^ x ^^^ y ^^^ c)
    z :: keyRounds cs b x y z

/-- The round keys of a key, in order (R212). -/
def keyWords (k : Block) : List Word :=
  keyRounds ck (blockWord k 0 ^^^ fk.getD 0 0) (blockWord k 1 ^^^ fk.getD 1 0)
    (blockWord k 2 ^^^ fk.getD 2 0) (blockWord k 3 ^^^ fk.getD 3 0)

theorem keyRounds_length (cs : List Word) : ∀ a b x y, (keyRounds cs a b x y).length = cs.length := by
  induction cs with
  | nil => intros; rfl
  | cons c cs ih => intro a b x y; simp [keyRounds, ih]

theorem keyWords_length (k : Block) : (keyWords k).length = 32 := keyRounds_length ck _ _ _ _

/-- `KeyExpand` (R212): always 32 words (R214). -/
def keyExpand (k : Block) : Vector Word 32 := ⟨⟨keyWords k⟩, keyWords_length k⟩

/-- The backend a context gets: the requested one, except that HardwareAccelerated without the primitive becomes
TableDriven (R210, D20). -/
def effectiveBackend (p : Params) (requested : Backend) : Backend :=
  if requested = .hardwareAccelerated ∧ p.hasHwsub = false then .tableDriven else requested

/-- KEYEXP: creates the cipher context from KEY and the backend snapshot (R210). -/
def execKeyexp (s : State) : Host.Outcome State Fault Refusal :=
  complete { s with rk := keyExpand s.key, keyValid := true, activeBackend := effectiveBackend s.params s.pend.bsel }

end Sys2Proof.Machine
end

