-- ==== Sys2Proof/Machine/BlockCipher.lean ====
section
/-! DEFINITION. The 32-round block cipher and the commands ENC_BLOCK and DEC_BLOCK (spec/43_block_cipher.md). -/

namespace Sys2Proof.Machine

/-- The rounds of R230 on the window `X[i..i+3]`; after the last key, the window in reverse order. -/
def cryptRounds : List Word → Word → Word → Word → Word → Block
  | [], a, b, c, d => blockOfWords d c b a
  | k :: ks, a, b, c, d => cryptRounds ks b c d (a ^^^ roundT (b ^^^ c ^^^ d ^^^ k))

/-- `Crypt(B, k[0..])` (R230). -/
def crypt (b : Block) (ks : List Word) : Block :=
  cryptRounds ks (blockWord b 0) (blockWord b 1) (blockWord b 2) (blockWord b 3)

/-- `E(B)`, encryption under round keys (R231). -/
def encryptWith (rk : Vector Word 32) (b : Block) : Block := crypt b rk.toList

/-- `D(B)`, decryption under round keys: the keys in reverse order (R232). -/
def decryptWith (rk : Vector Word 32) (b : Block) : Block := crypt b rk.toList.reverse

/-- ENC_BLOCK: `RES <- E(OPA)` (R233). -/
def execEncBlock (s : State) : Host.Outcome State Fault Refusal :=
  withContext s fun s => complete { s with res := encryptWith s.rk s.opa }

/-- DEC_BLOCK: `RES <- D(OPA)` (R234). -/
def execDecBlock (s : State) : Host.Outcome State Fault Refusal :=
  withContext s fun s => complete { s with res := decryptWith s.rk s.opa }

end Sys2Proof.Machine
end

