-- ==== Sys2Proof/Machine/GfGhash.lean ====
section
/-! DEFINITION. The GF(2^128) multiplier, GHASH, and the commands GFMUL, GHASH_INIT and GHASH_BLOCK
(spec/44_gf_ghash.md). -/

namespace Sys2Proof.Machine

/-- The reduction constant `R`, 0xe1 in the top byte (R251). -/
def gfReduction : Block := 0xe1000000000000000000000000000000

/-- One shift of the multiplicand with its reduction (R250). -/
def gfShift (v : Block) : Block := if v.getLsbD 0 then (v >>> 1) ^^^ gfReduction else v >>> 1

/-- The loop of R250 with `n` positions left: the next one tested is GCM bit `128 - n`, that is `X[n-1]`. -/
def gfLoop (x : Block) : Nat → Block → Block → Block
  | 0, z, _ => z
  | n + 1, z, v => gfLoop x n (if x.getLsbD n then z ^^^ v else z) (gfShift v)

/-- `gfmul(X, Y)` (R250). -/
def gfmul (x y : Block) : Block := gfLoop x 128 0 y

/-- The loop of R252 over the 16-byte blocks of a byte string, `n` of them. -/
def ghashBlocks (hk : Block) : Nat → Block → List Byte → Block
  | 0, y, _ => y
  | n + 1, y, bs => ghashBlocks hk n (gfmul (y ^^^ blk2int (bs.take 16)) hk) (bs.drop 16)

/-- `GHASH(Hk, S)` (R252). -/
def ghash (hk : Block) (bs : List Byte) : Block := ghashBlocks hk ((pad16 bs).length / 16) 0 (pad16 bs)

/-- GFMUL: `RES <- gfmul(OPA, OPB)` (R253). -/
def execGfmul (s : State) : Host.Outcome State Fault Refusal :=
  complete { s with res := gfmul s.opa s.opb }

/-- GHASH_INIT: `H <- E(0)`, `Y <- 0` (R254). -/
def execGhashInit (s : State) : Host.Outcome State Fault Refusal :=
  withContext s fun s => complete { s with h := encryptWith s.rk 0, y := 0 }

/-- GHASH_BLOCK: absorbs OPA into Y and copies the new Y to RES (R255). -/
def execGhashBlock (s : State) : Host.Outcome State Fault Refusal :=
  let ynew := gfmul (s.y ^^^ s.opa) s.h
  complete { s with y := ynew, res := ynew }

end Sys2Proof.Machine
end

