-- ==== Sys2Proof/Machine/CtrGcm.lean ====
section
/-! DEFINITION. Counter mode, the GCM construction, and the commands CTR_BLOCK, GCM_ENCRYPT and GCM_DECRYPT
(spec/45_ctr_gcm.md). -/

namespace Sys2Proof.Machine

/-- `inc32` (R280). -/
def inc32 (x : Block) : Block := x.extractLsb' 32 96 ++ (x.extractLsb' 0 32 + 1)

/-- CTR_BLOCK: `RES <- OPA ^ E(CTR)`, `CTR <- inc32(CTR)` (R281). -/
def execCtrBlock (s : State) : Host.Outcome State Fault Refusal :=
  withContext s fun s => complete { s with res := s.opa ^^^ encryptWith s.rk s.ctr, ctr := inc32 s.ctr }

/-- `J0(Hk, iv)` (R282). -/
def initialCounter (hk : Block) (iv : List Byte) : Block :=
  if iv.length = 12 then blk2int (iv ++ beBytes 4 1)
  else ghash hk (pad16 iv ++ zeros 8 ++ beBytes 8 (8 * iv.length))

/-- `S(A, C)`, the GHASH input of the tag (R283). -/
def tagInput (a c : List Byte) : List Byte :=
  pad16 a ++ pad16 c ++ beBytes 8 (8 * a.length) ++ beBytes 8 (8 * c.length)

/-- `ceil(n/16)`, how many chunks a text of `n` bytes has (R288). -/
def chunkCount (n : Nat) : Nat := (n + 15) / 16

/-- The counter-mode loop of R287 step 4 over `n` chunks: each chunk is XORed with the keystream block of its
counter, cut to the chunk's length (R289). -/
def ctrChunks (rk : Vector Word 32) : Nat → Block → List Byte → List Byte
  | 0, _, _ => []
  | n + 1, ctr, bs =>
    xorBytes (bs.take 16) (int2blk (encryptWith rk ctr)) ++ ctrChunks rk n (inc32 ctr) (bs.drop 16)

/-- The text of a GCM command in counter mode, the first counter `inc32(J0)` (R288). -/
def ctrText (rk : Vector Word 32) (j0 : Block) (bs : List Byte) : List Byte :=
  ctrChunks rk (chunkCount bs.length) (inc32 j0) bs

/-- The tag of AAD `a` and ciphertext `c` (R284). -/
def gcmTag (rk : Vector Word 32) (j0 : Block) (a c : List Byte) : Block :=
  encryptWith rk j0 ^^^ ghash (encryptWith rk 0) (tagInput a c)

/-- `J0` of a GCM command in a state, under `gH = E(0)` (R287). -/
def State.gcmJ0 (s : State) : Block := initialCounter (encryptWith s.rk 0) s.ivOperand

/-- `GS <- 0`, at the completion of every GCM command (R290). -/
def State.clearGs (s : State) : State := { s with gs := GcmState.zero }

/-- The checks both GCM commands make first, in order: the context (R157 step 2), then the lengths (R285). GS is
zero at every completion, successful or not (R290). -/
def withGcmChecks (s : State) (go : State → Host.Outcome State Fault Refusal) : Host.Outcome State Fault Refusal :=
  withContext s.clearGs fun s => if s.lengthsOk then go s else raiseError .badLength s

/-- GCM_ENCRYPT: the text is replaced by its ciphertext and TAG by the tag over AAD and ciphertext (R287). -/
def execGcmEncrypt (s : State) : Host.Outcome State Fault Refusal :=
  withGcmChecks s fun s =>
    let c := ctrText s.rk s.gcmJ0 s.textOperand
    complete { s.bufWrite s.textBase c with tag := gcmTag s.rk s.gcmJ0 s.aadOperand c }

/-- GCM_DECRYPT: the tag is recomputed over the ciphertext and compared whole with TAG (R292); only when they are
equal is the text replaced by its plaintext (R291), else nothing is written (R293). -/
def execGcmDecrypt (s : State) : Host.Outcome State Fault Refusal :=
  withGcmChecks s fun s =>
    let c := s.textOperand
    if gcmTag s.rk s.gcmJ0 s.aadOperand c = s.tag then
      complete (s.bufWrite s.textBase (ctrText s.rk s.gcmJ0 c))
    else raiseError .authFail s

end Sys2Proof.Machine
end

