-- ==== Sys2Proof/Machine/Protocol.lean ====
section
/-! DEFINITION. The command protocol: NOP, illegal words, acceptance, and which locations a running command may write
(spec/40_command_protocol.md). -/

namespace Sys2Proof.Machine

/-- NOP: no effect but its completion (R160). -/
def execNop (s : State) : Host.Outcome State Fault Refusal := complete s

/-- An illegal command word completes with ILLEGAL_CMD and no other effect (R161). -/
def execIllegal (s : State) : Host.Outcome State Fault Refusal := raiseError .illegalCmd s

/-- Acceptance of a command word (R153). -/
def State.accept (s : State) (w : Word) : State :=
  { s with cmd := w, pend := { word := w, bsel := s.ctrlBackend }, done := false, err := .ok, ctl := .busy }

/-- The BUF word at `a` overlaps `BUF[TB..TB+TEXT_LEN)` (R156). -/
def State.overlapsText (s : State) (a : Nat) : Bool :=
  decide (0 < s.textBytes) && decide (s.textBase < a + 4) && decide (a < s.textBase + s.textBytes)

/-- The register groups a command may write (R156). -/
def Instr.writesGroup : Instr → Group → Bool
  | .nop, _ => false
  | .sub, g | .roundT, g | .roundTp, g | .encBlock, g | .decBlock, g | .gfmul, g => g == .res
  | .keyexp, _ => false
  | .ghashInit, g => g == .h || g == .y
  | .ghashBlock, g => g == .y || g == .res
  | .ctrBlock, g => g == .res || g == .ctr
  | .gcmEncrypt, g => g == .tag
  | .gcmDecrypt, _ => false

/-- A whole-word location is in the write set of command `i` in state `s` (R156). STATUS is not here: of it KEYEXP
writes two fields, see `busyRead`. -/
def State.inWriteSet (s : State) (i : Instr) : Loc → Bool
  | .group g _ => Instr.writesGroup i g
  | .rk _ => i == .keyexp
  | .buf a => (i == .gcmEncrypt || i == .gcmDecrypt) && s.overlapsText a
  | .misaligned | .reserved | .id | .cap | .ctrl | .status | .cmd | .err | .ivLen | .aadLen | .textLen | .ivmem _ =>
    false

/-- The running command, if the engine is BUSY with a legal one. -/
def State.running (s : State) : Option Instr :=
  if s.ctl = .busy then (decode s.pend.word).toOption else none

/-- The draw a read of a location returns part of, if the location is in the running command's write set (R90, R156):
the whole word, or for STATUS under KEYEXP the fields KEY_VALID and ACTIVE_BACKEND (log entry 7). -/
def State.busyRead (s : State) (l : Loc) : Option Word :=
  match s.running with
  | none => none
  | some i =>
    let draw := Config.busDraw s.drawCount
    if l = .status ∧ i = .keyexp then some (s.statusWith (draw.extractLsb' 2 1) (draw.extractLsb' 8 2))
    else if s.inWriteSet i l then some draw
    else none

end Sys2Proof.Machine
end

