-- ==== Sys2Proof/Machine/Bus.lean ====
section
/-! DEFINITION. The slave port: reads and writes of one aligned 32-bit word, and the lines of a host program
(spec/20_memory.md, spec/60_exceptions.md R325, R336, spec/30_encoding.md R140, R141). -/

namespace Sys2Proof.Machine

/-- The response of a read: SLVERR for a misaligned or reserved offset, OKAY for every other (R336). -/
def Loc.readResp : Loc → Resp
  | .misaligned | .reserved => .slverr
  | .id | .cap | .ctrl | .status | .cmd | .err | .ivLen | .aadLen | .textLen | .group _ _ | .rk _ | .ivmem _
  | .buf _ => .okay

/-- `Read(off)` (R81): the current value, or a draw for a location the running command may write, each read a fresh
one (R90, R91). Nothing of the engine changes. -/
def State.busRead (s : State) (off : Offset) : State :=
  let l := locate s.params off
  match s.busyRead l with
  | some d => { s with resp := some (.read d .okay), drawCount := s.drawCount + 1 }
  | none => { s with resp := some (.read (s.valueAt l) l.readResp) }

/-- A performed write of a location (R85, R87, R153). -/
def State.store (s : State) (l : Loc) (d : Word) : State :=
  match l with
  | .ctrl => s.writeCtrl d
  | .status => s.writeStatus d
  | .cmd => s.accept d
  | .ivLen => { s with ivLen := d }
  | .aadLen => { s with aadLen := d }
  | .textLen => { s with textLen := d }
  | .group g k => s.setGroup g (blockSetWord (s.group g) k d)
  | .ivmem a => s.ivWrite a (lanesOfWord d)
  | .buf a => s.bufWrite a (lanesOfWord d)
  | .misaligned | .reserved | .id | .cap | .err | .rk _ => s

/-- `Write(off, d)` (R81), its conditions in the order of R325. -/
def State.busWrite (s : State) (off : Offset) (d : Word) : State :=
  let l := locate s.params off
  if l.refusesWrites then { s with resp := some (.write .slverr) }
  else if s.ctl ≠ .idle ∧ l.alwaysWritable = false then { s with werr := true, resp := some (.write .slverr) }
  else { s.store l d with resp := some (.write .okay) }

/-- The data of a read response. -/
def BusResult.readData : BusResult → Option Word
  | .read d _ => some d
  | .write _ => none

/-- A POLL has seen the value it waits for (R140). -/
def State.pollDone (s : State) (mask value : Word) : Bool :=
  (s.resp.bind BusResult.readData).map (· &&& mask) == some value

/-- The data of a RD line is named: it is kept at the end of what the host has read (R140). -/
def State.recordRead (s : State) : State :=
  { s with reads := s.reads ++ (s.resp.bind BusResult.readData).toList }

/-- The host's turn: the next line of its program. While reset is asserted the port accepts no transaction, so the
line stays (R351). A POLL stays until its read returns the value, and names nothing
(R140). -/
def State.hostTurn (s : State) : State :=
  match s.program with
  | [] => s
  | op :: rest =>
    if s.resetAsserted then s
    else
      match op with
      | .wr off d => { s.busWrite off d with program := rest }
      | .rd off => { (s.busRead off).recordRead with program := rest }
      | .poll off mask value =>
        let s' := s.busRead off
        if s'.pollDone mask value then { s' with program := rest } else s'

/-! ### The host program's abbreviations (R141) -/

/-- The offset of CMD (R30). -/
def cmdOffset : Offset := 0x010

/-- The offset of STATUS (R30). -/
def statusOffset : Offset := 0x00C

/-- The offset of ERR (R30). -/
def errOffset : Offset := 0x014

/-- The offset of the first register of a group (R30). -/
def Group.offset : Group → Offset
  | .key => 0x040
  | .opa => 0x050
  | .opb => 0x060
  | .res => 0x070
  | .h => 0x080
  | .y => 0x090
  | .ctr => 0x0A0
  | .tag => 0x0B0

/-- `ISSUE mnemonic`. -/
def hostIssue (i : Instr) : List HostOp := [.wr cmdOffset (encode i)]

/-- `WAIT`: BUSY = 0 and DONE = 1. -/
def hostWait : List HostOp := [.poll statusOffset 0x00000003 0x00000002]

/-- `WR128 P, v`. -/
def hostWr128 (g : Group) (v : Block) : List HostOp :=
  (List.range 4).map fun k => .wr (g.offset + BitVec.ofNat 16 (4 * k)) (blockWord v k)

/-- `RD128 P`: the reads; `State.rd128Result` is what they give. -/
def hostRd128 (g : Group) : List HostOp :=
  (List.range 4).map fun k => .rd (g.offset + BitVec.ofNat 16 (4 * k))

/-- `WRMEM base, bs`: missing bytes past the end are zero. A line past offset 0xFFFF wraps to 0x0000: DESIGN CHOICE, R141
does not say what it addresses (log entry 25). -/
def hostWrmem (base : Offset) (bs : List Byte) : List HostOp :=
  (List.range ((bs.length + 3) / 4)).map fun i =>
    .wr (base + BitVec.ofNat 16 (4 * i))
      (wordOfLanes (bs.getD (4 * i) 0) (bs.getD (4 * i + 1) 0) (bs.getD (4 * i + 2) 0) (bs.getD (4 * i + 3) 0))

/-- `RDMEM base, n`: the reads; `State.rdmemResult` is what they give. A line past offset 0xFFFF wraps to 0x0000: DESIGN
CHOICE (log entry 25). -/
def hostRdmem (base : Offset) (n : Nat) : List HostOp :=
  (List.range ((n + 3) / 4)).map fun i => .rd (base + BitVec.ofNat 16 (4 * i))

/-- `RUN mnemonic`: its `e` is the data of the last line, `lastReads 1`. -/
def hostRun (i : Instr) : List HostOp := hostIssue i ++ hostWait ++ [.rd errOffset]

/-! ### What the abbreviations that read give (R141) -/

/-- The data of the last `n` RD lines, in the order they ran. -/
def State.lastReads (s : State) (n : Nat) : List Word := s.reads.drop (s.reads.length - n)

/-- `v` of `RD128 P -> v`, from the four words read: `P0 ++ P1 ++ P2 ++ P3`. -/
def rd128Value (ws : List Word) : Block := blockOfWords (ws.getD 0 0) (ws.getD 1 0) (ws.getD 2 0) (ws.getD 3 0)

/-- `bs` of `RDMEM base, n -> bs`, from the words read: their bytes in memory order, `n` of them kept. -/
def rdmemBytes (n : Nat) (ws : List Word) : List Byte := (ws.flatMap lanesOfWord).take n

/-- `v` once the lines of `RD128 P -> v` have run. -/
def State.rd128Result (s : State) : Block := rd128Value (s.lastReads 4)

/-- `bs` once the lines of `RDMEM base, n -> bs` have run. -/
def State.rdmemResult (s : State) (n : Nat) : List Byte := rdmemBytes n (s.lastReads ((n + 3) / 4))

end Sys2Proof.Machine
end

