-- ==== Sys2Proof/Machine/Turns.lean ====
section
/-! DEFINITION. Who moves (the agents of spec/00_scope.md R8 and the total order of spec/20_memory.md R93), the
engine's own steps, and reset (spec/70_reset_and_hazards.md R350 to R352). -/

namespace Sys2Proof.Machine

/-- The engine has a step enabled: InitDone in INIT, Complete in BUSY, and none while reset is asserted
(R155, R351, R352). -/
def State.engineEnabled (s : State) : Bool := !s.resetAsserted && (s.ctl == .init || s.ctl == .busy)

/-- Whose turn it is: the first laid-down turn; when none is laid down, the engine's if a step of it is enabled (an
enabled engine step fires after a finite time, R8), else the host's (log entry 1). -/
def State.nextTurn (s : State) : Turn :=
  match s.turns with
  | t :: _ => t
  | [] => if s.engineEnabled then .engine else .host

/-- The state as the next turn finds it: that turn is taken, and the port shows no answer yet. -/
def State.startTurn (s : State) : State := { s with turns := s.turns.tail, resp := none }

/-- InitDone: the T-table is built and the engine becomes IDLE; nothing else changes (R352). -/
def State.initDone (s : State) : State := { s with tt := .built, ctl := .idle }

/-- The engine's turn, `run` being the meaning of the commands: InitDone in INIT, Complete in BUSY (R155, R159), no
step in IDLE or under reset. -/
def engineTurn (run : Instr → State → Host.Outcome State Fault Refusal) (s : State) :
    Host.Outcome State Fault Refusal :=
  if s.resetAsserted then .next s
  else
    match s.ctl with
    | .init => .next s.initDone
    | .idle => .next s
    | .busy =>
      match decode s.pend.word with
      | .ok i => run i s
      | .error _ => execIllegal s

/-- The reset input is asserted: at once every piece of state takes its reset value, a running command is aborted
with no part of its effect, and the unwritten bytes are new draws (R350, R351). The parameters, the host's program,
what the host has read and the laid-down turns are outside the engine. -/
def State.assertReset (s : State) : State :=
  { State.resetOf s.params with
    resetAsserted := true, epoch := s.epoch + 1, drawCount := s.drawCount, program := s.program,
    reads := s.reads, turns := s.turns }

/-- The reset input is released (R350). -/
def State.releaseReset (s : State) : State := { s with resetAsserted := false }

/-- One turn, `run` being the meaning of the commands. -/
def takeTurn (run : Instr → State → Host.Outcome State Fault Refusal) (t : Turn) (s : State) :
    Host.Outcome State Fault Refusal :=
  match t with
  | .host => .next s.hostTurn
  | .engine => engineTurn run s
  | .assertReset => .next s.assertReset
  | .releaseReset => .next s.releaseReset

/-- A state in which the engine is BUSY with the command word `w`, accepted as R153 accepts it, and the engine's turn
is next: initialisation is over and reset is not asserted (log entry 2). -/
def State.loadCommand (s : State) (w : Word) : State :=
  { s.accept w with tt := .built, resetAsserted := false, turns := .engine :: s.turns }

end Sys2Proof.Machine
end

