-- ==== Sys2Proof/Machine/Dispatch.lean ====
section
/-! DEFINITION. The effect of each command at its completion (spec/40_command_protocol.md R159), one arm per
constructor. -/

namespace Sys2Proof.Machine

def exec (i : Instr) (s : State) : Host.Outcome State Fault Refusal :=
  match i with
  | .nop => Sys2Proof.Machine.execNop s
  | .sub => Sys2Proof.Machine.execSub s
  | .roundT => Sys2Proof.Machine.execRoundT s
  | .roundTp => Sys2Proof.Machine.execRoundTp s
  | .keyexp => Sys2Proof.Machine.execKeyexp s
  | .encBlock => Sys2Proof.Machine.execEncBlock s
  | .decBlock => Sys2Proof.Machine.execDecBlock s
  | .gfmul => Sys2Proof.Machine.execGfmul s
  | .ghashInit => Sys2Proof.Machine.execGhashInit s
  | .ghashBlock => Sys2Proof.Machine.execGhashBlock s
  | .ctrBlock => Sys2Proof.Machine.execCtrBlock s
  | .gcmEncrypt => Sys2Proof.Machine.execGcmEncrypt s
  | .gcmDecrypt => Sys2Proof.Machine.execGcmDecrypt s

end Sys2Proof.Machine
end

