-- ==== Sys2Proof/Safety.lean ====
section
/-! DEFINITION. What a safe state is: the invariant of the engine, in the terms the claims use. -/

namespace Sys2Proof.Machine

/-- What every state an engine can be in between two events has. -/
structure State.Inv (s : State) : Prop where
  /-- the parameters are legal (R9) -/
  paramsLegal : s.params.legal = true
  /-- IVMEM is in canonical form (R57; log entry 4) -/
  ivmemWf : Memory.wf 256 s.ivmem
  /-- BUF is in canonical form (R58; log entry 4) -/
  bufWf : Memory.wf s.params.bufBytes s.buf
  /-- GS is not in use between two events (R55, R290) -/
  gsClear : s.gs = GcmState.zero
  /-- the T-table is built exactly when the engine is not in INIT (R352) -/
  tableBuilt : s.tt = .built ↔ s.ctl ≠ .init
  /-- while BUSY, DONE and ERR are 0 and CMD is the running word (R90, R153) -/
  busyLive : s.ctl = .busy → s.done = false ∧ s.err = .ok ∧ s.cmd = s.pend.word
  /-- in INIT no command has completed and there is no context (R350, R352) -/
  initQuiet : s.ctl = .init → s.done = false ∧ s.err = .ok ∧ s.keyValid = false
  /-- without a context, RK and ACTIVE_BACKEND have their reset values (R39, R51, R42) -/
  noContext : s.keyValid = false → s.rk = Vector.replicate 32 0 ∧ s.activeBackend = .reference
  /-- without the primitive, the context never uses the HardwareAccelerated backend (R186) -/
  noHwsub : s.params.hasHwsub = false → s.activeBackend ≠ .hardwareAccelerated
  /-- while reset is asserted the engine is in INIT (R351) -/
  heldInReset : s.resetAsserted = true → s.ctl = .init

end Sys2Proof.Machine
end

