-- ==== Sys2Proof/Certificates/Slice0/Obligations.lean ====
section
/-! DEFINITION. The statements for the provers. The names under `Sys2Proof.Statement` say again, in numbers and
formulas of the spec, what the statements speak of: the offsets of R30 and R336, the round functions of R182 to R184,
the recurrences of R212 and R230. -/

namespace Sys2Proof.Statement

open Sys2Proof.Machine

/-! ### Turns -/

/-- It is the host's turn, reset is not asserted, and the host's next line is `op`. -/
abbrev HostIssues (s : State) (op : HostOp) : Prop :=
  s.nextTurn = .host ∧ s.resetAsserted = false ∧ s.program.head? = some op

/-- It is the engine's turn and reset is not asserted. -/
abbrev EngineMoves (s : State) : Prop := s.nextTurn = .engine ∧ s.resetAsserted = false

/-- The engine is BUSY and it is its turn: this step is the Complete step. -/
abbrev Completes (s : State) : Prop := EngineMoves s ∧ s.ctl = .busy

/-- The state with the turn and the host's line used up and no answer yet. -/
def afterLine (s : State) : State :=
  { s with turns := s.turns.tail, resp := none, program := s.program.tail }

/-- What a RD line that answers `v` with response `r` leaves: the answer shown and the data kept for the host (R140),
nothing else changed. -/
def answered (s : State) (v : Word) (r : Resp) : State :=
  { afterLine s with resp := some (.read v r), reads := s.reads ++ [v] }

/-- What a command that ends with `code` leaves when it writes nothing else (R155, R158). -/
def finished (s : State) (code : ErrCode) : State := { s with err := code, done := true, ctl := .idle }

/-! ### Offsets, in numbers (R30, R84, R336) -/

/-- A misaligned offset. -/
abbrev Misaligned (a : Nat) : Prop := a % 4 ≠ 0

/-- A reserved offset, as R336 lists them. -/
abbrev Reserved (p : Params) (a : Nat) : Prop :=
  (0x024 ≤ a ∧ a < 0x040) ∨ (0x0C0 ≤ a ∧ a < 0x100) ∨ (0x180 ≤ a ∧ a < 0x1000) ∨ (0x1100 ≤ a ∧ a < 0x8000) ∨
    0x8000 + p.bufBytes ≤ a

/-- A read-only register: ID, CAP, ERR, RES0-RES3, RK0-RK31. -/
abbrev ReadOnly (a : Nat) : Prop :=
  a = 0x000 ∨ a = 0x004 ∨ a = 0x014 ∨ (0x070 ≤ a ∧ a < 0x080) ∨ (0x100 ≤ a ∧ a < 0x180)

/-- A write that can never be performed (R325, conditions 1 and 2). -/
abbrev NeverWritable (p : Params) (a : Nat) : Prop := Misaligned a ∨ Reserved p a ∨ ReadOnly a

/-- CTRL or STATUS. -/
abbrev CtrlOrStatus (a : Nat) : Prop := a = 0x008 ∨ a = 0x00C

/-- A write the engine rejects because it is not IDLE (R89; R325, condition 3). -/
abbrev RejectedWrite (s : State) (off : Offset) : Prop :=
  ¬ NeverWritable s.params off.toNat ∧ ¬ CtrlOrStatus off.toNat ∧ s.ctl ≠ .idle

/-- One of the four registers from `base` on. -/
abbrev InGroup (base a : Nat) : Prop := base ≤ a ∧ a < base + 16

/-- Where the text begins: `roundup16(AAD_LEN)` (R286). -/
def textStart (s : State) : Nat := 16 * ((s.aadLen.toNat + 15) / 16)

/-- A BUF word one of whose four bytes is in BUF[TB..TB+TEXT_LEN). -/
def InText (s : State) (a : Nat) : Prop :=
  0x8000 ≤ a ∧ a < 0x8000 + s.params.bufBytes ∧
    ∃ k, k < 4 ∧ textStart s ≤ a - 0x8000 + k ∧ a - 0x8000 + k < textStart s + s.textLen.toNat

/-- The offset of a whole word in the write set of command `i` (the table of R156). -/
def InWriteSet (s : State) (i : Instr) (a : Nat) : Prop :=
  match i with
  | .nop => False
  | .sub | .roundT | .roundTp | .encBlock | .decBlock | .gfmul => InGroup 0x070 a
  | .keyexp => 0x100 ≤ a ∧ a < 0x180
  | .ghashInit => InGroup 0x080 a ∨ InGroup 0x090 a
  | .ghashBlock => InGroup 0x090 a ∨ InGroup 0x070 a
  | .ctrBlock => InGroup 0x070 a ∨ InGroup 0x0A0 a
  | .gcmEncrypt => InGroup 0x0B0 a ∨ InText s a
  | .gcmDecrypt => InText s a

/-- A read that is no draw (R90): outside BUSY, while an illegal word runs (its write set is empty, R156), or of a
location outside the running command's write set, STATUS under KEYEXP excepted (log entry 7). -/
def LiveRead (s : State) (off : Offset) : Prop :=
  s.ctl = .busy → ∀ i, decode s.pend.word = .ok i → ¬ InWriteSet s i off.toNat ∧ ¬ (i = .keyexp ∧ off = 0x00C)

/-! ### Words and round functions, from R10, R12, R182 to R184 -/

/-- `X 0 .. X 3` are the four big-endian words of a block (R12). -/
def WordsOf (b : Block) (x : Nat → Word) : Prop :=
  x 0 = b.extractLsb' 96 32 ∧ x 1 = b.extractLsb' 64 32 ∧ x 2 = b.extractLsb' 32 32 ∧ x 3 = b.extractLsb' 0 32

/-- The byte of a word whose lowest bit is bit `n`, through the table, back in its place. -/
def subLane (x : Word) (n : Nat) : Word := (sbox ((x >>> n).setWidth 8)).setWidth 32 <<< n

/-- `v` is the block `old` with word `k` replaced by `d` and the other words as they were (R32). -/
def WordReplaced (old v : Block) (k : Nat) (d : Word) : Prop :=
  ∀ j, j < 4 → v.extractLsb' (96 - 32 * j) 32 = if j = k then d else old.extractLsb' (96 - 32 * j) 32

/-- The data word of four memory bytes (R87): `S[a] | S[a+1] << 8 | S[a+2] << 16 | S[a+3] << 24`. -/
def laneWord (b0 b1 b2 b3 : Byte) : Word :=
  b0.setWidth 32 ||| b1.setWidth 32 <<< 8 ||| b2.setWidth 32 <<< 16 ||| b3.setWidth 32 <<< 24

/-- `tau` (R182). -/
def tauOf (x : Word) : Word := subLane x 24 ||| subLane x 16 ||| subLane x 8 ||| subLane x 0

/-- `L` (R183), with the library's rotation. -/
def layer (v : Word) : Word :=
  v ^^^ v.rotateLeft 2 ^^^ v.rotateLeft 10 ^^^ v.rotateLeft 18 ^^^ v.rotateLeft 24

/-- `L′` (R183). -/
def layerKey (v : Word) : Word := v ^^^ v.rotateLeft 13 ^^^ v.rotateLeft 23

/-- The result of `Crypt(b, keys)` is `r`: the recurrence of R230. -/
def CryptGives (b : Block) (keys : Nat → Word) (r : Block) : Prop :=
  ∃ x : Nat → Word, WordsOf b x ∧
    (∀ i, i < 32 → x (i + 4) = x i ^^^ layer (tauOf (x (i + 1) ^^^ x (i + 2) ^^^ x (i + 3) ^^^ keys i))) ∧
    WordsOf r (fun k => x (35 - k))

/-- Round key `i` of a file. -/
def keyAt (rk : Vector Word 32) (i : Nat) : Word := rk.toList.getD i 0

/-- `CK[i]`, by the formula of R211: byte `j` is `(4i + j)·7 mod 256`. -/
def ckAt (i : Nat) : Word :=
  BitVec.ofNat 32 (((4 * i) * 7 % 256) * 2 ^ 24 + ((4 * i + 1) * 7 % 256) * 2 ^ 16 + ((4 * i + 2) * 7 % 256) * 2 ^ 8 +
    (4 * i + 3) * 7 % 256)

/-- A string with the fewest zero bytes after it that make its length a multiple of 16 (R11). -/
def padded (bs : List Byte) : List Byte := bs ++ List.replicate ((16 - bs.length % 16) % 16) 0

/-- A command needs the context (R157 step 2). -/
abbrev NeedsContext (i : Instr) : Prop :=
  i = .encBlock ∨ i = .decBlock ∨ i = .ghashInit ∨ i = .ctrBlock ∨ i = .gcmEncrypt ∨ i = .gcmDecrypt

/-- A GCM command. -/
abbrev IsGcm (i : Instr) : Prop := i = .gcmEncrypt ∨ i = .gcmDecrypt

/-- The length checks of R285, in exact integers. -/
abbrev LengthsGood (s : State) : Prop :=
  1 ≤ s.ivLen.toNat ∧ s.ivLen.toNat ≤ 256 ∧ 16 * ((s.aadLen.toNat + 15) / 16) + s.textLen.toNat ≤ s.params.bufBytes

/-- The `n` bytes of a memory from `a` on, in offset order; `byte` reads one byte (R15). -/
def bytesFrom (byte : Nat → Byte) (a n : Nat) : List Byte := (List.range n).map fun k => byte (a + k)

/-- The IV, IVMEM[0..IV_LEN) (R286). -/
def ivOf (s : State) : List Byte := bytesFrom s.ivByte 0 s.ivLen.toNat

/-- The AAD, BUF[0..AAD_LEN) (R286). -/
def aadOf (s : State) : List Byte := bytesFrom s.bufByte 0 s.aadLen.toNat

/-- The text, BUF[TB..TB+TEXT_LEN) (R286). -/
def textOf (s : State) : List Byte := bytesFrom s.bufByte (textStart s) s.textLen.toNat

/-- `J0` under `gH = E(0)` and the IV (R287, steps 1 and 2). -/
def j0Of (s : State) : Block := initialCounter (encryptWith s.rk 0) (ivOf s)

/-- The tag recomputed over the AAD and the text in BUF (R282 to R284, R287). -/
def tagOver (s : State) : Block :=
  encryptWith s.rk (j0Of s) ^^^ ghash (encryptWith s.rk 0) (tagInput (aadOf s) (textOf s))

/-- The keystream byte for text byte `k` (R288, R289). -/
def keystreamByte (s : State) (k : Nat) : Byte :=
  blockByte (encryptWith s.rk (inc32^[k / 16 + 1] (j0Of s))) (k % 16)

end Sys2Proof.Statement

section Statements

open Sys2Proof Sys2Proof.Machine Sys2Proof.Statement

/-! ### Encoding -/

/-- R121, R122: on every word, decoding and encoding agree in both directions. -/
def Obligations.DecodeAnswersExactlyTheEncodedCommand : Prop :=
  ∀ (w : Word) (i : Instr), i.wellFormed = true ∧ (decode w = .ok i ↔ w = encode i)

/-- R124: the words no command is read from are exactly the two listed kinds, each rejected by its own reason. -/
def Obligations.UndecodedWordsAreExactlyTheIllegalOnes : Prop :=
  ∀ w : Word,
    (decode w = .error .upperBitsNotZero ↔ w.toNat / 256 ≠ 0) ∧
    (decode w = .error .unassignedOpcode ↔
      w.toNat / 256 = 0 ∧
        ((0x0B ≤ w.toNat % 256 ∧ w.toNat % 256 ≤ 0x0F) ∨ (0x12 ≤ w.toNat % 256 ∧ w.toNat % 256 ≤ 0xFF))) ∧
    (CommandWord.legal w = true ↔ ∃ i, decode w = .ok i)

/-- R122: the words of the opcode map, as the map writes them. -/
def Obligations.OpcodeMapWordsDecodeAsListed : Prop :=
  decode 0x00000000 = .ok .nop ∧ decode 0x00000001 = .ok .sub ∧ decode 0x00000002 = .ok .roundT ∧
  decode 0x00000003 = .ok .roundTp ∧ decode 0x00000004 = .ok .keyexp ∧ decode 0x00000005 = .ok .encBlock ∧
  decode 0x00000006 = .ok .decBlock ∧ decode 0x00000007 = .ok .gfmul ∧ decode 0x00000008 = .ok .ghashInit ∧
  decode 0x00000009 = .ok .ghashBlock ∧ decode 0x0000000A = .ok .ctrBlock ∧ decode 0x00000010 = .ok .gcmEncrypt ∧
  decode 0x00000011 = .ok .gcmDecrypt

/-! ### A step -/

/-- R155, R159: the Complete step runs the command the accepted word decodes to. `startTurn` is all a step adds: the
turn is used up and the port shows no answer. -/
def Obligations.CompleteStepRunsTheDecodedCommand : Prop :=
  ∀ (s : State) (i : Instr), Completes s → decode s.pend.word = .ok i →
    step s = exec i { s with turns := s.turns.tail, resp := none }

/-- The model's `withFetchWord` (log entry 2): the very next step completes the placed word, a command or an illegal
word, in the state acceptance (R153) leaves. -/
def Obligations.FetchWordIsCompletedByTheNextStep : Prop :=
  ∀ (s : State) (w : Word),
    let placed := { s with
      cmd := w, pend := { word := w, bsel := s.ctrlBackend }, done := false, err := .ok, ctl := .busy,
      tt := .built, resetAsserted := false, resp := none }
    (∀ i, w = encode i → step (s.withFetchWord 32 w.toNat) = exec i placed) ∧
    (CommandWord.legal w = false → step (s.withFetchWord 32 w.toNat) = .next (finished placed .illegalCmd))

/-- R320: nothing stops the machine; every step of every state answers a next state. R9, R33: the engine's parameters,
and so CAP, never change. -/
def Obligations.EveryStepAnswersANextStateOfTheSameEngine : Prop :=
  ∀ s : State, ∃ t, step s = .next t ∧ t.params = s.params ∧ capReg t.params = capReg s.params

/-- R8 with the model's default turn (log entry 1): when no turn is laid down, an engine that is not IDLE moves, and
is IDLE after that one step; after a command DONE is set. -/
def Obligations.EngineWithNoTurnLaidDownBecomesIdleInOneStep : Prop :=
  ∀ s : State, s.turns = [] → s.resetAsserted = false → s.ctl ≠ .idle →
    ∃ t, step s = .next t ∧ t.ctl = .idle ∧ (s.ctl = .busy → t.done = true)

/-! ### The command protocol -/

/-- R153: acceptance of any word in IDLE; and while BUSY no host transaction changes an operand. -/
def Obligations.AcceptanceSnapshotsTheCommand : Prop :=
  (∀ (s : State) (w : Word), HostIssues s (.wr 0x010 w) → s.ctl = .idle →
    step s = .next { afterLine s with
      cmd := w, pend := { word := w, bsel := s.ctrlBackend }, done := false, err := .ok, ctl := .busy,
      resp := some (.write .okay) }) ∧
  (∀ (s t : State), s.ctl = .busy → s.nextTurn = .host → step s = .next t →
    t.pend = s.pend ∧ t.cmd = s.cmd ∧ t.key = s.key ∧ t.opa = s.opa ∧ t.opb = s.opb ∧ t.res = s.res ∧ t.h = s.h ∧
    t.y = s.y ∧ t.ctr = s.ctr ∧ t.tag = s.tag ∧ t.ivLen = s.ivLen ∧ t.aadLen = s.aadLen ∧ t.textLen = s.textLen ∧
    t.rk = s.rk ∧ t.keyValid = s.keyValid ∧ t.activeBackend = s.activeBackend ∧ t.ctl = .busy ∧
    (∀ a, t.ivByte a = s.ivByte a) ∧ (∀ a, t.bufByte a = s.bufByte a))

/-- R161: an illegal word written in IDLE is accepted, stays in CMD, and completes with ERR = 1 and nothing else,
with or without a key. -/
def Obligations.IllegalWordCompletesWithIllegalCmd : Prop :=
  ∀ (s : State) (w : Word) (rest : List HostOp) (more : List Turn),
    s.turns = .host :: .engine :: more → s.program = .wr 0x010 w :: rest → s.resetAsserted = false → s.ctl = .idle →
    CommandWord.legal w = false →
    ∃ t, step s = .next t ∧
      step t = .next { s with
        cmd := w, pend := { word := w, bsel := s.ctrlBackend }, done := true, err := .illegalCmd, ctl := .idle,
        turns := more, program := rest, resp := none }

/-- R157, R324: which code a completed command reports: the first check that fails, in the fixed order legality,
context, lengths, authentication. -/
def Obligations.ChecksDecideTheCodeInFixedOrder : Prop :=
  (∀ s : State, Completes s → CommandWord.legal s.pend.word = false → ∃ t, step s = .next t ∧ t.err = .illegalCmd) ∧
  ∀ (s : State) (i : Instr), ∃ t, exec i s = .next t ∧
    t.err =
      (if NeedsContext i ∧ s.keyValid = false then .noKey
       else if IsGcm i ∧ ¬ LengthsGood s then .badLength
       else if i = .gcmDecrypt ∧ tagOver s ≠ s.tag then .authFail
       else .ok)

/-- R158 (and R293 for code 4): a command that ends with an error writes nothing but ERR, DONE and `ctl`, an illegal
word included. GS, which no host can see, is untouched by the other commands and clear after a GCM command: for the
codes 2 and 3 that is the model's reading of R290 over R158 (log entry 9). -/
def Obligations.FailedCommandWritesNothingElse : Prop :=
  (∀ s : State, Completes s → CommandWord.legal s.pend.word = false →
    step s = .next { finished s .illegalCmd with turns := s.turns.tail, resp := none }) ∧
  ∀ (s t : State) (i : Instr), exec i s = .next t → t.err ≠ .ok →
    t = { finished s t.err with gs := if IsGcm i then GcmState.zero else s.gs }

/-- R155: every completion sets DONE, returns to IDLE, and leaves every register and byte that is not in the
command's write set. -/
def Obligations.CompletionFrame : Prop :=
  ∀ (s : State) (i : Instr), ∃ t, exec i s = .next t ∧ t.done = true ∧ t.ctl = .idle ∧
    t.ctrlIe = s.ctrlIe ∧ t.ctrlBackend = s.ctrlBackend ∧ t.werr = s.werr ∧ t.cmd = s.cmd ∧ t.pend = s.pend ∧
    t.ivLen = s.ivLen ∧ t.aadLen = s.aadLen ∧ t.textLen = s.textLen ∧ t.key = s.key ∧ t.opa = s.opa ∧ t.opb = s.opb ∧
    t.tt = s.tt ∧ t.params = s.params ∧ t.resetAsserted = s.resetAsserted ∧ t.epoch = s.epoch ∧
    t.drawCount = s.drawCount ∧ t.resp = s.resp ∧ t.program = s.program ∧ t.reads = s.reads ∧ t.turns = s.turns ∧
    (i ≠ .keyexp → t.rk = s.rk ∧ t.keyValid = s.keyValid ∧ t.activeBackend = s.activeBackend) ∧
    (i = .nop ∨ i = .keyexp ∨ i = .ghashInit ∨ IsGcm i → t.res = s.res) ∧
    (i ≠ .ghashInit → t.h = s.h) ∧ (i ≠ .ghashInit ∧ i ≠ .ghashBlock → t.y = s.y) ∧
    (i ≠ .ctrBlock → t.ctr = s.ctr) ∧ (i ≠ .gcmEncrypt → t.tag = s.tag) ∧
    (¬ IsGcm i → t.gs = s.gs) ∧
    (∀ a, t.ivByte a = s.ivByte a) ∧
    (∀ a, ¬ IsGcm i ∨ a < textStart s ∨ textStart s + s.textLen.toNat ≤ a → t.bufByte a = s.bufByte a)

/-- R50: the control state has no transition but reset, InitDone, acceptance and completion; it is INIT after
reset. -/
def Obligations.ControlStateHasOnlyTheListedTransitions : Prop :=
  State.reset.ctl = .init ∧ ∀ s t : State, step s = .next t →
    (t.ctl = .init ↔ s.nextTurn = .assertReset ∨ (s.ctl = .init ∧ ¬ EngineMoves s)) ∧
    (t.ctl = .busy ↔
      (s.ctl = .idle ∧ ∃ w, HostIssues s (.wr 0x010 w)) ∨
      (s.ctl = .busy ∧ s.nextTurn ≠ .assertReset ∧ ¬ EngineMoves s)) ∧
    (t.ctl = .idle ↔
      (s.ctl ≠ .idle ∧ EngineMoves s) ∨
      (s.ctl = .idle ∧ s.nextTurn ≠ .assertReset ∧ ¬ ∃ w, HostIssues s (.wr 0x010 w)))

/-- R38: what sets and clears DONE; R59: `irq` is IE and DONE; both are 0 after reset. -/
def Obligations.DoneIsSetByCompletionAndClearedAsListed : Prop :=
  State.reset.done = false ∧ State.reset.irq = false ∧ ∀ s t : State, step s = .next t →
    (t.done = true ↔
      Completes s ∨
      (s.done = true ∧ s.nextTurn ≠ .assertReset ∧ ¬ (s.ctl = .idle ∧ ∃ w, HostIssues s (.wr 0x010 w)) ∧
        ¬ ∃ d, HostIssues s (.wr 0x00C d) ∧ d.getLsbD 1 = true)) ∧
    (t.irq = true ↔ t.ctrlIe = true ∧ t.done = true)

/-- R39: KEY_VALID is set only by the completion of KEYEXP and cleared only by reset; the six commands that need it
fail with NO_KEY while it is 0. -/
def Obligations.KeyValidIsSetByKeyexpAndClearedByReset : Prop :=
  (∀ s t : State, step s = .next t →
    (t.keyValid = true ↔
      (Completes s ∧ s.pend.word = 0x00000004) ∨ (s.keyValid = true ∧ s.nextTurn ≠ .assertReset))) ∧
  (∀ (s : State) (i : Instr), NeedsContext i → s.keyValid = false → ∃ t, exec i s = .next t ∧ t.err = .noKey) ∧
  State.reset.keyValid = false

/-- R48: RES is written by the successful completion of eight commands, and by nothing else but reset. -/
def Obligations.ResIsWrittenOnlyByTheEightCommands : Prop :=
  (∀ s t : State, step s = .next t → t.res ≠ s.res →
    (s.nextTurn = .assertReset ∧ t.res = 0) ∨
    (Completes s ∧ t.err = .ok ∧
      (s.pend.word = 0x01 ∨ s.pend.word = 0x02 ∨ s.pend.word = 0x03 ∨ s.pend.word = 0x05 ∨ s.pend.word = 0x06 ∨
       s.pend.word = 0x07 ∨ s.pend.word = 0x09 ∨ s.pend.word = 0x0A))) ∧
  State.reset.res = 0

/-- R51, R214: the round keys are written only by the completion of KEYEXP, all 32 together, and by reset. -/
def Obligations.RoundKeysAreWrittenOnlyByKeyexp : Prop :=
  ∀ s t : State, step s = .next t → t.rk ≠ s.rk →
    (s.nextTurn = .assertReset ∧ ∀ i (h : i < 32), t.rk[i] = 0) ∨
    (Completes s ∧ s.pend.word = 0x00000004 ∧ t.rk = keyExpand s.key)

/-- R41: WERR is set by every rejected host write, and stays until a write to STATUS with bit 4 set, or reset. -/
def Obligations.WerrIsSetByRejectedWritesAndSticky : Prop :=
  (∀ s t : State, step s = .next t →
    (t.werr = true ↔
      (∃ off d, HostIssues s (.wr off d) ∧ RejectedWrite s off) ∨
      (s.werr = true ∧ s.nextTurn ≠ .assertReset ∧
        ¬ ∃ d, HostIssues s (.wr 0x00C d) ∧ d.getLsbD 4 = true))) ∧
  State.reset.werr = false

/-! ### The bus -/

/-- R336, R82, R86, R325: a transaction answers SLVERR exactly in the four listed cases, with the listed effects. -/
def Obligations.BusErrorsAreExactlyTheListedCases : Prop :=
  (∀ (s : State) (off : Offset) (d : Word), HostIssues s (.wr off d) →
    ∃ t, step s = .next t ∧
      (NeverWritable s.params off.toNat → t = { afterLine s with resp := some (.write .slverr) }) ∧
      (RejectedWrite s off → t = { afterLine s with werr := true, resp := some (.write .slverr) }) ∧
      (¬ NeverWritable s.params off.toNat ∧ ¬ RejectedWrite s off → t.resp = some (.write .okay) ∧
        (t.werr = s.werr ∨ off = 0x00C))) ∧
  (∀ (s : State) (off : Offset), HostIssues s (.rd off) →
    ∃ t, step s = .next t ∧
      (Misaligned off.toNat ∨ Reserved s.params off.toNat →
        t = answered s 0 .slverr) ∧
      (¬ (Misaligned off.toNat ∨ Reserved s.params off.toNat) → ∃ v, t.resp = some (.read v .okay)))

/-- R91: a read changes nothing of the engine, and reading again gives the same answer unless the answer is a draw. -/
def Obligations.ReadsHaveNoSideEffects : Prop :=
  ∀ (s : State) (off : Offset) (rest : List HostOp) (more : List Turn),
    s.turns = .host :: .host :: more → s.program = .rd off :: .rd off :: rest → s.resetAsserted = false →
    ∃ t u v r, step s = .next t ∧ step t = .next u ∧
      t = { answered s v r with drawCount := t.drawCount } ∧
      (t.drawCount = s.drawCount → u = answered t v r) ∧
      (t.drawCount ≠ s.drawCount → t.drawCount = s.drawCount + 1 ∧ s.ctl = .busy)

/-- R34, R35: a write to CTRL is performed in every control state; BACKEND = 3 is ignored; CTRL reads back with its
reserved bits 0. -/
def Obligations.CtrlWriteStoresIeAndLegalBackends : Prop :=
  ∀ (s : State) (d : Word), HostIssues s (.wr 0x008 d) →
    ∃ t, step s = .next t ∧
      t = { afterLine s with ctrlIe := d.getLsbD 0, ctrlBackend := t.ctrlBackend, resp := some (.write .okay) } ∧
      t.ctrlBackend.bits = (if d.extractLsb' 4 2 = 3 then s.ctrlBackend.bits else d.extractLsb' 4 2) ∧
      t.ctrlReg.toNat = (d.getLsbD 0).toNat + 16 * t.ctrlBackend.bits.toNat

/-- R36: a write to STATUS, in every control state, clears each W1C bit whose data bit is 1 and ignores every other
bit; the layout of STATUS as it is read; its reset value. -/
def Obligations.StatusWriteClearsOnlyW1C : Prop :=
  (∀ (s : State) (d : Word), HostIssues s (.wr 0x00C d) →
    step s = .next { afterLine s with
      done := (if d.getLsbD 1 then false else s.done), werr := (if d.getLsbD 4 then false else s.werr),
      resp := some (.write .okay) }) ∧
  (∀ s : State, s.statusReg.toNat =
    (decide (s.ctl = .busy)).toNat + 2 * s.done.toNat + 4 * s.keyValid.toNat + 8 * (decide (s.ctl ≠ .init)).toNat +
      16 * s.werr.toNat + 256 * s.activeBackend.bits.toNat) ∧
  State.reset.statusReg = 0

/-- R31, R33, R43 to R51, R85, R90: a read of a register that is no draw returns its current value, with OKAY, and
changes nothing: outside BUSY, while an illegal word runs, and outside the running command's write set. -/
def Obligations.RegisterReadsReturnCurrentValues : Prop :=
  ∀ (s : State) (off : Offset) (v : Word), HostIssues s (.rd off) → LiveRead s off →
    ((off = 0x000 ∧ v = 0x52464531) ∨
     (off = 0x004 ∧ v = BitVec.ofNat 32 (s.params.bufBytes / 16 % 65536 * 65536 + 0x1000 + s.params.hasHwsub.toNat)) ∨
     (off = 0x008 ∧ v = BitVec.ofNat 32 (s.ctrlIe.toNat + 16 * s.ctrlBackend.bits.toNat)) ∨
     (off = 0x00C ∧ v = s.statusReg) ∨ (off = 0x010 ∧ v = s.cmd) ∨
     (off = 0x014 ∧ v = BitVec.ofNat 32 s.err.bits.toNat) ∨
     (off = 0x018 ∧ v = s.ivLen) ∨ (off = 0x01C ∧ v = s.aadLen) ∨ (off = 0x020 ∧ v = s.textLen) ∨
     (∃ g b k, (g, b) ∈ [(s.key, 0x040), (s.opa, 0x050), (s.opb, 0x060), (s.res, 0x070), (s.h, 0x080), (s.y, 0x090),
        (s.ctr, 0x0A0), (s.tag, 0x0B0)] ∧ k < 4 ∧ off.toNat = b + 4 * k ∧ v = g.extractLsb' (96 - 32 * k) 32) ∨
     (∃ i, i < 32 ∧ off.toNat = 0x100 + 4 * i ∧ v = keyAt s.rk i)) →
    step s = .next (answered s v .okay)

/-- R45 to R49, R85: in IDLE a write to a read-write register is stored whole, and changes no other word. -/
def Obligations.RegisterWritesStoreTheWord : Prop :=
  ∀ (s : State) (off : Offset) (d : Word), HostIssues s (.wr off d) → s.ctl = .idle →
    (off = 0x018 → step s = .next { afterLine s with ivLen := d, resp := some (.write .okay) }) ∧
    (off = 0x01C → step s = .next { afterLine s with aadLen := d, resp := some (.write .okay) }) ∧
    (off = 0x020 → step s = .next { afterLine s with textLen := d, resp := some (.write .okay) }) ∧
    (∀ k, k < 4 →
      (off.toNat = 0x040 + 4 * k →
        ∃ v, WordReplaced s.key v k d ∧ step s = .next { afterLine s with key := v, resp := some (.write .okay) }) ∧
      (off.toNat = 0x050 + 4 * k →
        ∃ v, WordReplaced s.opa v k d ∧ step s = .next { afterLine s with opa := v, resp := some (.write .okay) }) ∧
      (off.toNat = 0x060 + 4 * k →
        ∃ v, WordReplaced s.opb v k d ∧ step s = .next { afterLine s with opb := v, resp := some (.write .okay) }) ∧
      (off.toNat = 0x080 + 4 * k →
        ∃ v, WordReplaced s.h v k d ∧ step s = .next { afterLine s with h := v, resp := some (.write .okay) }) ∧
      (off.toNat = 0x090 + 4 * k →
        ∃ v, WordReplaced s.y v k d ∧ step s = .next { afterLine s with y := v, resp := some (.write .okay) }) ∧
      (off.toNat = 0x0A0 + 4 * k →
        ∃ v, WordReplaced s.ctr v k d ∧ step s = .next { afterLine s with ctr := v, resp := some (.write .okay) }) ∧
      (off.toNat = 0x0B0 + 4 * k →
        ∃ v, WordReplaced s.tag v k d ∧ step s = .next { afterLine s with tag := v, resp := some (.write .okay) }))

/-- R87: the memory windows have little-endian lanes, for reads that are no draw and, in IDLE, for writes; a write leaves
every other byte as it was. -/
def Obligations.MemoryWindowsHaveLittleEndianLanes : Prop :=
  (∀ (s : State) (off : Offset) (a : Nat), HostIssues s (.rd off) → a % 4 = 0 →
    (off.toNat = 0x1000 + a → a < 256 →
      step s = .next
        (answered s (laneWord (s.ivByte a) (s.ivByte (a + 1)) (s.ivByte (a + 2)) (s.ivByte (a + 3))) .okay)) ∧
    (off.toNat = 0x8000 + a → a < s.params.bufBytes → LiveRead s off →
      step s = .next
        (answered s (laneWord (s.bufByte a) (s.bufByte (a + 1)) (s.bufByte (a + 2)) (s.bufByte (a + 3))) .okay))) ∧
  (∀ (s : State) (off : Offset) (a : Nat) (d : Word), HostIssues s (.wr off d) → a % 4 = 0 → s.ctl = .idle →
    (off.toNat = 0x1000 + a → a < 256 →
      ∃ t, step s = .next t ∧ t = { afterLine s with ivmem := t.ivmem, resp := some (.write .okay) } ∧
        ∀ x, t.ivByte x = if a ≤ x ∧ x < a + 4 then d.extractLsb' (8 * (x - a)) 8 else s.ivByte x) ∧
    (off.toNat = 0x8000 + a → a < s.params.bufBytes →
      ∃ t, step s = .next t ∧ t = { afterLine s with buf := t.buf, resp := some (.write .okay) } ∧
        ∀ x, t.bufByte x = if a ≤ x ∧ x < a + 4 then d.extractLsb' (8 * (x - a)) 8 else s.bufByte x))

/-- R90, R156: while BUSY, a read of a location in the running command's write set answers a fresh draw with OKAY;
every other read answers the live value, so every read while an illegal word runs does. Under KEYEXP, STATUS is live but
for KEY_VALID and ACTIVE_BACKEND, which are drawn: that is the model's reading, R156 over R90's "STATUS is never in a
write set" (log entry 7). The draw is the model's free value (log entry 5): the statement holds for every draw. -/
def Obligations.BusyReadsOfTheWriteSetAreDraws : Prop :=
  (∀ (s : State) (off : Offset) (i : Instr), HostIssues s (.rd off) → s.ctl = .busy → decode s.pend.word = .ok i →
    ¬ Misaligned off.toNat →
    (InWriteSet s i off.toNat →
      step s = .next { answered s (Config.busDraw s.drawCount) .okay with drawCount := s.drawCount + 1 }) ∧
    (i = .keyexp → off = 0x00C → ∃ v : Word,
      step s = .next { answered s v .okay with drawCount := s.drawCount + 1 } ∧
      (∀ n, n ≠ 2 → n ≠ 8 → n ≠ 9 → v.getLsbD n = s.statusReg.getLsbD n) ∧
      v.getLsbD 0 = true)) ∧
  (∀ (s : State) (off : Offset), HostIssues s (.rd off) → s.ctl = .busy → LiveRead s off →
    step s = .next (answered s (s.valueAt (locate s.params off))
      (if Misaligned off.toNat ∨ Reserved s.params off.toNat then .slverr else .okay))) ∧
  (∀ (s : State) (off : Offset), CommandWord.legal s.pend.word = false → LiveRead s off)

/-- R140: a POLL line is a read that stays until the value masked is the one waited for; a RD line does the same read,
and its data is kept for the host. -/
def Obligations.PollRepeatsItsReadUntilTheValueShows : Prop :=
  ∀ (s : State) (off : Offset) (mask value : Word) (rest : List HostOp),
    s.nextTurn = .host → s.resetAsserted = false → s.program = .poll off mask value :: rest →
    ∃ t data r, step s = .next t ∧ t.resp = some (.read data r) ∧
      t.program = (if data &&& mask = value then rest else s.program) ∧
      t.reads = s.reads ∧
      step { s with program := .rd off :: rest } = .next { t with program := rest, reads := s.reads ++ [data] }

/-- R80: the platform addresses of the window and its offsets are in one-to-one correspondence. -/
def Obligations.PlatformAddressIsBasePlusOffset : Prop :=
  ∀ (p : Params) (addr : Nat) (off : Offset), platformOffset p addr = some off ↔ addr = p.engineBase + off.toNat

/-! ### Reset and initialisation -/

/-- R350: the reset state, field by field. -/
def Obligations.ResetStateHoldsTheListedValues : Prop :=
  let s := State.reset
  s.ctrlReg = 0x00000020 ∧ s.statusReg = 0 ∧ s.cmd = 0 ∧ s.errReg = 0 ∧ s.ivLen = 0 ∧ s.aadLen = 0 ∧ s.textLen = 0 ∧
  s.key = 0 ∧ s.opa = 0 ∧ s.opb = 0 ∧ s.res = 0 ∧ s.h = 0 ∧ s.y = 0 ∧ s.ctr = 0 ∧ s.tag = 0 ∧
  (∀ i (h : i < 32), s.rk[i] = 0) ∧ s.ctl = .init ∧ s.pend.word = 0 ∧ s.pend.bsel.bits = 0 ∧
  s.gs.gH = 0 ∧ s.gs.gJ0 = 0 ∧ s.gs.gCTR = 0 ∧ s.gs.gY = 0 ∧ s.irq = false ∧
  idReg = 0x52464531 ∧ (∀ p : Params, p.legal = true →
    (capReg p).toNat = p.bufBytes / 16 * 2 ^ 16 + 0x10 * 2 ^ 8 + p.hasHwsub.toNat)

/-- R350, R351: reset from any state: at once every piece of state takes its reset value, a running command leaves no
trace, and every byte of both memories is a new draw; while reset is asserted the port accepts nothing and the engine
does not move; when it is released the state is the same. -/
def Obligations.ResetPutsEveryPieceOfStateToItsResetValue : Prop :=
  (∀ s : State, s.nextTurn = .assertReset → ∃ t, step s = .next t ∧
    t.ctrlIe = false ∧ t.ctrlBackend = .hardwareAccelerated ∧ t.done = false ∧ t.keyValid = false ∧ t.werr = false ∧
    t.activeBackend = .reference ∧ t.cmd = 0 ∧ t.err = .ok ∧ t.ivLen = 0 ∧ t.aadLen = 0 ∧ t.textLen = 0 ∧ t.key = 0 ∧
    t.opa = 0 ∧ t.opb = 0 ∧ t.res = 0 ∧ t.h = 0 ∧ t.y = 0 ∧ t.ctr = 0 ∧ t.tag = 0 ∧ (∀ i (h : i < 32), t.rk[i] = 0) ∧
    t.ctl = .init ∧ t.pend.word = 0 ∧ t.pend.bsel = .reference ∧ t.gs = GcmState.zero ∧ t.irq = false ∧
    t.params = s.params ∧ t.resetAsserted = true ∧ t.program = s.program ∧ t.reads = s.reads ∧
    (∀ a, t.ivByte a = Config.ivmemDraw (s.epoch + 1) a) ∧ (∀ a, t.bufByte a = Config.bufDraw (s.epoch + 1) a)) ∧
  (∀ s : State, s.resetAsserted = true → s.nextTurn = .host ∨ s.nextTurn = .engine →
    step s = .next { s with turns := s.turns.tail, resp := none }) ∧
  (∀ s : State, s.nextTurn = .releaseReset →
    step s = .next { s with turns := s.turns.tail, resp := none, resetAsserted := false })

/-- R352, R188: InitDone builds the T-table, makes the engine IDLE, and changes nothing else; before it a CMD write is
rejected. -/
def Obligations.InitDoneBuildsTheTableAndNothingElse : Prop :=
  (∀ s : State, EngineMoves s → s.ctl = .init →
    ∃ t, step s = .next t ∧ t = { s with turns := s.turns.tail, resp := none, ctl := .idle, tt := t.tt } ∧
      t.irq = s.irq ∧
      ∀ k (b : Byte), k < 4 → t.tableEntry k b = layer ((sbox b).setWidth 32 <<< (24 - 8 * k))) ∧
  (∀ (s : State) (w : Word), HostIssues s (.wr 0x010 w) → s.ctl = .init →
    step s = .next { afterLine s with werr := true, resp := some (.write .slverr) })

/-! ### Substitution and round functions -/

/-- R160: NOP has no effect but its completion; written to CMD in IDLE, it sets DONE, and so raises `irq` when IE is
set, and touches no data. -/
def Obligations.NopWritesOnlyItsCompletion : Prop :=
  (∀ s : State, exec .nop s = .next (finished s .ok)) ∧
  (∀ (s : State) (rest : List HostOp) (more : List Turn),
    s.turns = .host :: .engine :: more → s.program = .wr 0x010 0x00000000 :: rest → s.resetAsserted = false →
    s.ctl = .idle →
    ∃ t u, step s = .next t ∧ step t = .next u ∧ u.irq = s.ctrlIe ∧
      u = { s with
        cmd := 0, pend := { word := 0, bsel := s.ctrlBackend }, done := true, err := .ok, ctl := .idle,
        turns := more, program := rest, resp := none })

/-- R190: byte `j` of RES is the substitution of byte `j` of OPA, for the 16 bytes; nothing else changes. The rule's
two corner values. -/
def Obligations.SubSubstitutesTheSixteenBytes : Prop :=
  ∀ s : State, ∃ r : Block,
    (∀ j, j < 16 → r.extractLsb' (8 * j) 8 = sbox (s.opa.extractLsb' (8 * j) 8)) ∧
    exec .sub s = .next { finished s .ok with res := r } ∧
    (s.opa = 0 → r = 0xd6d6d6d6d6d6d6d6d6d6d6d6d6d6d6d6) ∧
    (s.opa = BitVec.allOnes 128 → r = 0x48484848484848484848484848484848)

/-- R191, R192, R182 to R184: word `k` of RES is `L(tau(·))`, for ROUND_TP `L′(tau(·))`, of word `k` of OPA, spelled
out; nothing else changes. The rules' corner values. -/
def Obligations.RoundCommandsApplyTheRoundFunctionsToFourWords : Prop :=
  ∀ s : State,
    (∃ r : Block,
      (∀ k, k < 4 → r.extractLsb' (32 * k) 32 = layer (tauOf (s.opa.extractLsb' (32 * k) 32))) ∧
      exec .roundT s = .next { finished s .ok with res := r }) ∧
    (∃ r : Block,
      (∀ k, k < 4 → r.extractLsb' (32 * k) 32 = layerKey (tauOf (s.opa.extractLsb' (32 * k) 32))) ∧
      exec .roundTp s = .next { finished s .ok with res := r }) ∧
    layer (tauOf 0x00000000) = 0x5b5b5b5b ∧ layer (tauOf 0xffffffff) = 0x21212121 ∧
    layer (tauOf 0x80000000) = 0x9767abab ∧ layer (tauOf 0x00000001) = 0x1c424205 ∧
    layerKey (tauOf 0x00000000) = 0x67676767 ∧ layerKey (tauOf 0xffffffff) = 0x65656565 ∧
    layerKey (tauOf 0x80000000) = 0x5b7960e7 ∧ layerKey (tauOf 0x00000001) = 0x446fa721

/-- R189, R187: once the T-table is built, four lookups and three XORs give T on every word; and T is what the cipher
uses. -/
def Obligations.TableDrivenRoundEqualsT : Prop :=
  ∀ (s : State) (x : Word), s.tt = .built →
    s.tableEntry 0 (x.extractLsb' 24 8) ^^^ s.tableEntry 1 (x.extractLsb' 16 8) ^^^
      s.tableEntry 2 (x.extractLsb' 8 8) ^^^ s.tableEntry 3 (x.extractLsb' 0 8) = layer (tauOf x) ∧
    s.tableRoundT x = layer (tauOf x) ∧ roundT x = layer (tauOf x)

/-- R181: the substitution table is a permutation of the byte values; R193: the laws of the diffusion layers and of
tau. -/
def Obligations.SubstitutionAndDiffusionLaws : Prop :=
  Function.Bijective sbox ∧
  (∀ a b : Word, diffuse (a ^^^ b) = diffuse a ^^^ diffuse b ∧ diffuseKey (a ^^^ b) = diffuseKey a ^^^ diffuseKey b) ∧
  (∀ (x : Word) (n : Nat), n < 32 →
    diffuse (rotl32 x n) = rotl32 (diffuse x) n ∧ diffuseKey (rotl32 x n) = rotl32 (diffuseKey x) n) ∧
  (∀ x : Word, tau (rotl32 x 8) = rotl32 (tau x) 8) ∧
  (∀ (k : Nat) (b : Byte), 1 ≤ k → k ≤ 3 → tableWord k b = rotl32 (tableWord 0 b) (32 - 8 * k)) ∧
  diffuse 0 = 0 ∧ diffuseKey 0 = 0 ∧ diffuse 0xffffffff = 0xffffffff ∧ diffuseKey 0xffffffff = 0xffffffff ∧
  (∃ a b : Word, roundT (a ^^^ b) ≠ roundT a ^^^ roundT b) ∧ (∃ a b : Word, roundTp (a ^^^ b) ≠ roundTp a ^^^ roundTp b)

/-- R187: no result of any command depends on the backend: changing CTRL.BACKEND, ACTIVE_BACKEND and the snapshot
changes nothing of what a command leaves but those three. -/
def Obligations.NoResultDependsOnTheBackend : Prop :=
  ∀ (s : State) (i : Instr) (b1 b2 b3 : Backend), ∃ t u,
    exec i s = .next t ∧
    exec i { s with ctrlBackend := b1, activeBackend := b2, pend := { s.pend with bsel := b3 } } = .next u ∧
    u = { t with ctrlBackend := b1, activeBackend := u.activeBackend, pend := { s.pend with bsel := b3 } }

/-! ### Key schedule and block cipher -/

/-- R210 to R212: KEYEXP leaves the round keys of the recurrence with the constants FK and CK, a valid context, and
the effective backend; nothing else changes. -/
def Obligations.KeyexpCreatesTheContext : Prop :=
  ∀ s : State, ∃ (st : Nat → Word) (rk : Vector Word 32),
    st 0 = s.key.extractLsb' 96 32 ^^^ 0xa3b1bac6 ∧ st 1 = s.key.extractLsb' 64 32 ^^^ 0x56aa3350 ∧
    st 2 = s.key.extractLsb' 32 32 ^^^ 0x677d9197 ∧ st 3 = s.key.extractLsb' 0 32 ^^^ 0xb27022dc ∧
    (∀ i, i < 32 →
      st (i + 4) = st i ^^^ layerKey (tauOf (st (i + 1) ^^^ st (i + 2) ^^^ st (i + 3) ^^^ ckAt i))) ∧
    (∀ i (h : i < 32), rk[i] = st (i + 4)) ∧
    exec .keyexp s = .next { finished s .ok with
      rk := rk, keyValid := true,
      activeBackend := if s.pend.bsel = .hardwareAccelerated ∧ s.params.hasHwsub = false then .tableDriven
        else s.pend.bsel }

/-- R230 to R232: E and D follow the recurrence of `Crypt`, D with the keys in reverse order. -/
def Obligations.BlockCipherFollowsTheRounds : Prop :=
  ∀ (rk : Vector Word 32) (b : Block),
    CryptGives b (keyAt rk) (encryptWith rk b) ∧ CryptGives b (fun i => keyAt rk (31 - i)) (decryptWith rk b)

/-- R233, R234: ENC_BLOCK and DEC_BLOCK write RES by the recurrence when there is a context, and fail with NO_KEY and
nothing else when there is none. -/
def Obligations.BlockCommandsWriteTheCipherResult : Prop :=
  ∀ s : State,
    (s.keyValid = true →
      (∃ r, CryptGives s.opa (keyAt s.rk) r ∧ exec .encBlock s = .next { finished s .ok with res := r }) ∧
      (∃ r, CryptGives s.opa (fun i => keyAt s.rk (31 - i)) r ∧
        exec .decBlock s = .next { finished s .ok with res := r })) ∧
    (s.keyValid = false →
      exec .encBlock s = .next (finished s .noKey) ∧ exec .decBlock s = .next (finished s .noKey))

/-- R235: for every context and every block, decryption undoes encryption and encryption undoes decryption, as
functions and as commands. -/
def Obligations.CipherRoundTrip : Prop :=
  (∀ (rk : Vector Word 32) (b : Block),
    decryptWith rk (encryptWith rk b) = b ∧ encryptWith rk (decryptWith rk b) = b) ∧
  (∀ s t : State, s.keyValid = true → exec .encBlock s = .next t →
    ∃ u, exec .decBlock { t with opa := t.res } = .next u ∧ u.res = s.opa ∧ u.err = .ok)

/-! ### GF(2^128) and GHASH -/

/-- R250, R251, R253: GFMUL writes RES by the bit-serial recurrence with the reduction byte 0xe1; nothing else
changes. -/
def Obligations.GfmulFollowsTheBitSerialRecurrence : Prop :=
  ∀ s : State, ∃ z v : Nat → Block,
    z 0 = 0 ∧ v 0 = s.opb ∧
    (∀ i, i < 128 → z (i + 1) = if s.opa.getLsbD (127 - i) then z i ^^^ v i else z i) ∧
    (∀ i, i < 128 → v (i + 1) = if (v i).getLsbD 0 then (v i >>> 1) ^^^ ((0xe1 : Block) <<< 120) else v i >>> 1) ∧
    exec .gfmul s = .next { finished s .ok with res := z 128 }

/-- R256: the laws of the field multiplication. -/
def Obligations.GfmulLaws : Prop :=
  (∀ a : Block, gfmul a 0 = 0 ∧ gfmul 0 a = 0) ∧
  (∀ a b c : Block, gfmul (a ^^^ b) c = gfmul a c ^^^ gfmul b c) ∧
  (∀ a b : Block, gfmul a b = gfmul b a) ∧
  (∀ a : Block, gfmul a 0x80000000000000000000000000000000 = a)

/-- R252: GHASH starts at zero, absorbs the blocks in order, and sees the string zero-padded. -/
def Obligations.GhashAbsorbsBlocksInOrder : Prop :=
  ∀ hk : Block,
    ghash hk [] = 0 ∧
    (∀ bs : List Byte, ghash hk bs = ghash hk (padded bs)) ∧
    (∀ bs b : List Byte, bs.length % 16 = 0 → b.length = 16 →
      ghash hk (bs ++ b) = gfmul (ghash hk bs ^^^ blk2int b) hk)

/-- R254: GHASH_INIT derives H and clears Y, or fails with NO_KEY; nothing else changes. -/
def Obligations.GhashInitDerivesHAndClearsY : Prop :=
  ∀ s : State,
    (s.keyValid = true → ∃ r, CryptGives 0 (keyAt s.rk) r ∧
      exec .ghashInit s = .next { finished s .ok with h := r, y := 0 }) ∧
    (s.keyValid = false → exec .ghashInit s = .next (finished s .noKey))

/-- R255: GHASH_BLOCK absorbs OPA; the new Y is also in RES; it needs no key; nothing else changes. With H = 0, and
with Y = OPA, the result is 0. -/
def Obligations.GhashBlockAbsorbsOpa : Prop :=
  ∀ s : State, ∃ y, y = gfmul (s.y ^^^ s.opa) s.h ∧ exec .ghashBlock s = .next { finished s .ok with y := y, res := y } ∧
    (s.h = 0 ∨ s.y = s.opa → y = 0)

/-! ### Counter mode and GCM -/

/-- R280, R281: CTR_BLOCK writes OPA XOR E(CTR), and increments the low 32 bits of CTR modulo 2^32, the upper 96
unchanged; without a context it fails with NO_KEY and CTR is not incremented. -/
def Obligations.CtrBlockEncryptsAndIncrementsTheCounter : Prop :=
  ∀ s : State,
    (s.keyValid = true → ∃ ks c : Block, CryptGives s.ctr (keyAt s.rk) ks ∧
      c.toNat = s.ctr.toNat / 2 ^ 32 * 2 ^ 32 + (s.ctr.toNat % 2 ^ 32 + 1) % 2 ^ 32 ∧
      exec .ctrBlock s = .next { finished s .ok with res := s.opa ^^^ ks, ctr := c }) ∧
    (s.keyValid = false → exec .ctrBlock s = .next (finished s .noKey))

/-- R282: the initial counter block, on both paths (the length block is 64 zero bits and the bit length). R283: the
GHASH input of the tag: AAD and ciphertext zero-padded, then their bit lengths, 64 bits each. -/
def Obligations.GcmStringsAreBuiltAsTheRulesSay : Prop :=
  (∀ (hk : Block) (iv : List Byte), 1 ≤ iv.length → iv.length ≤ 256 →
    (iv.length = 12 → int2blk (initialCounter hk iv) = iv ++ [0, 0, 0, 1]) ∧
    (iv.length ≠ 12 → ∃ lb : List Byte, lb.length = 16 ∧ (blk2int lb).toNat = 8 * iv.length ∧
      initialCounter hk iv = ghash hk (padded iv ++ lb))) ∧
  (∀ a c : List Byte, a.length < 2 ^ 32 → c.length < 2 ^ 32 →
    ∃ lb : List Byte, lb.length = 16 ∧ (blk2int lb).toNat = 8 * a.length * 2 ^ 64 + 8 * c.length ∧
      tagInput a c = padded a ++ padded c ++ lb)

/-- R285: the length checks, in exact integers: outside them both GCM commands end with BAD_LENGTH and change nothing
a host can see. That GS is zero then too is the model's reading of R290 (log entry 9). -/
def Obligations.GcmLengthChecks : Prop :=
  ∀ (s : State) (i : Instr), IsGcm i → s.keyValid = true →
    (¬ LengthsGood s → exec i s = .next { finished s .badLength with gs := GcmState.zero }) ∧
    (LengthsGood s → ∃ t, exec i s = .next t ∧ t.err ≠ .badLength) ∧
    (s.aadLen = 0xFFFFFFFF → s.params.legal = true → ¬ LengthsGood s)

/-- R287 to R289, R284: GCM_ENCRYPT. With a context and good lengths, each text byte is XORed with its keystream byte,
TAG is the tag over the AAD and the ciphertext, and nothing else a host can see changes: no byte of BUF outside the
text, no byte of IVMEM, no register. The operands the meaning uses are those of R286 and R287: the text base, the bytes
IVMEM[0..IV_LEN), BUF[0..AAD_LEN) and BUF[TB..TB+TEXT_LEN) in offset order, and J0 under E(0). -/
def Obligations.GcmEncryptReplacesTheTextAndWritesTheTag : Prop :=
  (∀ s : State, s.textBase = textStart s ∧ s.gcmJ0 = j0Of s ∧
    s.ivOperand.length = s.ivLen.toNat ∧ (∀ k, k < s.ivLen.toNat → s.ivOperand[k]? = some (s.ivByte k)) ∧
    s.aadOperand.length = s.aadLen.toNat ∧ (∀ k, k < s.aadLen.toNat → s.aadOperand[k]? = some (s.bufByte k)) ∧
    s.textOperand.length = s.textLen.toNat ∧
    (∀ k, k < s.textLen.toNat → s.textOperand[k]? = some (s.bufByte (textStart s + k)))) ∧
  ∀ s : State, s.keyValid = true → LengthsGood s →
    ∃ t, exec .gcmEncrypt s = .next t ∧
      t = { finished s .ok with buf := t.buf, tag := t.tag, gs := GcmState.zero } ∧
      (∀ k, k < s.textLen.toNat →
        t.bufByte (textStart s + k) = s.bufByte (textStart s + k) ^^^ keystreamByte s k) ∧
      (∀ a, a < textStart s ∨ textStart s + s.textLen.toNat ≤ a → t.bufByte a = s.bufByte a) ∧
      t.tag = tagOver t

/-- R291, R292: GCM_DECRYPT when the recomputed tag equals TAG in all 128 bits: the text is decrypted in place, TAG
keeps the expected tag, and nothing else a host can see changes. -/
def Obligations.GcmDecryptReplacesAVerifiedText : Prop :=
  ∀ s : State, s.keyValid = true → LengthsGood s → s.tag = tagOver s →
    ∃ t, exec .gcmDecrypt s = .next t ∧
      t = { finished s .ok with buf := t.buf, gs := GcmState.zero } ∧
      (∀ k, k < s.textLen.toNat →
        t.bufByte (textStart s + k) = s.bufByte (textStart s + k) ^^^ keystreamByte s k) ∧
      (∀ a, a < textStart s ∨ textStart s + s.textLen.toNat ≤ a → t.bufByte a = s.bufByte a)

/-- R293: when the tag differs in any bit: AUTH_FAIL, and nothing else a host can see changes; the outcome is the same
state whichever bits differ. -/
def Obligations.GcmDecryptWithAWrongTagReleasesNothing : Prop :=
  ∀ s : State, s.keyValid = true → LengthsGood s → s.tag ≠ tagOver s →
    exec .gcmDecrypt s = .next { finished s .authFail with gs := GcmState.zero }

/-- R296: GCM_ENCRYPT and then GCM_DECRYPT on what it left restores the text with ERR = 0, for every context and every
legal IV, AAD and text; the ciphertext is as long as the plaintext; and equal inputs give an equal ciphertext and
tag. -/
def Obligations.GcmRoundTrip : Prop :=
  (∀ s t : State, s.keyValid = true → LengthsGood s → exec .gcmEncrypt s = .next t →
    ∃ u, exec .gcmDecrypt t = .next u ∧ u.err = .ok ∧ u.tag = t.tag ∧ (∀ a, u.bufByte a = s.bufByte a)) ∧
  (∀ (rk : Vector Word 32) (j0 : Block) (p : List Byte), (ctrText rk j0 p).length = p.length) ∧
  (∀ s t s' t' : State, s.keyValid = true → LengthsGood s → s'.keyValid = true → LengthsGood s' → s'.rk = s.rk →
    ivOf s' = ivOf s → aadOf s' = aadOf s → textOf s' = textOf s →
    exec .gcmEncrypt s = .next t → exec .gcmEncrypt s' = .next t' →
    t'.tag = t.tag ∧ textOf t' = textOf t)

/-- R291, corner cases: after GCM_ENCRYPT, any change of TAG, one bit or more, makes GCM_DECRYPT fail. -/
def Obligations.ChangedTagAlwaysFails : Prop :=
  ∀ (s t : State) (tag : Block), s.keyValid = true → LengthsGood s → exec .gcmEncrypt s = .next t → tag ≠ t.tag →
    ∃ u, exec .gcmDecrypt { t with tag := tag } = .next u ∧ u.err = .authFail ∧ u.tag = tag ∧
      (∀ a, u.bufByte a = t.bufByte a)

/-- R99: the GCM commands depend only on the bytes of the IV, the AAD and the text: two states that agree on these,
and differ in any other byte of either memory, give the same code, the same tag and the same text. -/
def Obligations.GcmReadsOnlyTheListedBytes : Prop :=
  ∀ (s s' : State) (i : Instr), IsGcm i →
    s' = { s with ivmem := s'.ivmem, buf := s'.buf, epoch := s'.epoch } →
    (∀ a, a < s.ivLen.toNat → s'.ivByte a = s.ivByte a) →
    (∀ a, a < s.aadLen.toNat ∨ (textStart s ≤ a ∧ a < textStart s + s.textLen.toNat) → s'.bufByte a = s.bufByte a) →
    ∃ t t', exec i s = .next t ∧ exec i s' = .next t' ∧ t'.err = t.err ∧ t'.tag = t.tag ∧
      ∀ a, textStart s ≤ a → a < textStart s + s.textLen.toNat → t'.bufByte a = t.bufByte a

/-! ### Invariants -/

/-- The invariant of log entry 4 and R9, R50 to R58 holds right after reset, for every legal instance. -/
def Obligations.EveryLegalInstanceResetsIntoTheInvariant : Prop :=
  State.reset.Inv ∧ ∀ p : Params, p.legal = true → (State.resetOf p).Inv

/-- Every step keeps the invariant, from every state that has it. -/
def Obligations.EveryStepKeepsTheInvariant : Prop :=
  ∀ s t : State, s.Inv → step s = .next t → t.Inv

/-- R329: in a state with the invariant, a completion never meets DONE already set, and `irq` rises only by a
completion or a write to CTRL. -/
def Obligations.CompletionNeverMeetsDone : Prop :=
  ∀ s t : State, s.Inv → step s = .next t →
    (Completes s → s.done = false) ∧
    (s.irq = false → t.irq = true → Completes s ∨ ∃ d, HostIssues s (.wr 0x008 d) ∧ d.getLsbD 0 = true)

/-! ### The host's program lines -/

/-- R141: what the abbreviations stand for, and what the reading ones give: `RD128` the four words read, the first in
the most significant bits, `RDMEM` the bytes kept of the words read, so that it is the inverse of `WRMEM`. The words read
are those the RD lines left in `reads` (log entry 14). That a line past offset 0xFFFF wraps to 0x0000 is the model's
choice (log entry 25). -/
def Obligations.HostAbbreviationsExpandAsListed : Prop :=
  (∀ i, hostIssue i = [.wr 0x010 (encode i)]) ∧ hostWait = [.poll 0x00C 0x00000003 0x00000002] ∧
  (∀ i, hostRun i = hostIssue i ++ hostWait ++ [.rd 0x014]) ∧
  (∀ g, ∃ b : Offset, (g, b) ∈ [(Group.key, (0x040 : Offset)), (.opa, 0x050), (.opb, 0x060), (.res, 0x070), (.h, 0x080),
      (.y, 0x090), (.ctr, 0x0A0), (.tag, 0x0B0)] ∧
    (∀ v : Block, hostWr128 g v =
      [.wr b (v.extractLsb' 96 32), .wr (b + 4) (v.extractLsb' 64 32), .wr (b + 8) (v.extractLsb' 32 32),
       .wr (b + 12) (v.extractLsb' 0 32)]) ∧
    hostRd128 g = [.rd b, .rd (b + 4), .rd (b + 8), .rd (b + 12)]) ∧
  (∀ (s : State) (before : List Word) (p0 p1 p2 p3 : Word), s.reads = before ++ [p0, p1, p2, p3] →
    s.rd128Result = p0 ++ p1 ++ p2 ++ p3) ∧
  (∀ (base : Offset) (bs : List Byte), (hostWrmem base bs).length = (bs.length + 3) / 4 ∧
    ∀ i, 4 * i < bs.length → (hostWrmem base bs)[i]? = some (.wr (base + BitVec.ofNat 16 (4 * i))
      (laneWord (bs.getD (4 * i) 0) (bs.getD (4 * i + 1) 0) (bs.getD (4 * i + 2) 0) (bs.getD (4 * i + 3) 0)))) ∧
  (∀ (base : Offset) (n : Nat), (hostRdmem base n).length = (n + 3) / 4 ∧
    ∀ i, 4 * i < n → (hostRdmem base n)[i]? = some (.rd (base + BitVec.ofNat 16 (4 * i)))) ∧
  (∀ (s : State) (before ds : List Word) (n : Nat), s.reads = before ++ ds → ds.length = (n + 3) / 4 →
    (s.rdmemResult n).length = n ∧
    ∀ k, k < n → (s.rdmemResult n)[k]? = some ((ds.getD (k / 4) 0).extractLsb' (8 * (k % 4)) 8)) ∧
  (∀ (s : State) (base : Offset) (before ds : List Word) (bs : List Byte), s.reads = before ++ ds →
    ds.length = (bs.length + 3) / 4 →
    (∀ i, i < ds.length → (hostWrmem base bs)[i]? = some (.wr (base + BitVec.ofNat 16 (4 * i)) (ds.getD i 0))) →
    s.rdmemResult bs.length = bs)

end Statements
end

