-- ==== Sys2Proof/Laws/State.lean ====
section
/-! SUPPORT. One lemma per field per update of the state: what the update leaves in the field. -/

namespace Sys2Proof.Machine

variable (s : State)

/-! ### finish -/

@[simp] theorem finish_ctrlIe (c : ErrCode) : (State.finish c s).ctrlIe = s.ctrlIe := rfl
@[simp] theorem finish_ctrlBackend (c : ErrCode) : (State.finish c s).ctrlBackend = s.ctrlBackend := rfl
@[simp] theorem finish_done (c : ErrCode) : (State.finish c s).done = true := rfl
@[simp] theorem finish_keyValid (c : ErrCode) : (State.finish c s).keyValid = s.keyValid := rfl
@[simp] theorem finish_werr (c : ErrCode) : (State.finish c s).werr = s.werr := rfl
@[simp] theorem finish_activeBackend (c : ErrCode) : (State.finish c s).activeBackend = s.activeBackend := rfl
@[simp] theorem finish_cmd (c : ErrCode) : (State.finish c s).cmd = s.cmd := rfl
@[simp] theorem finish_err (c : ErrCode) : (State.finish c s).err = c := rfl
@[simp] theorem finish_ivLen (c : ErrCode) : (State.finish c s).ivLen = s.ivLen := rfl
@[simp] theorem finish_aadLen (c : ErrCode) : (State.finish c s).aadLen = s.aadLen := rfl
@[simp] theorem finish_textLen (c : ErrCode) : (State.finish c s).textLen = s.textLen := rfl
@[simp] theorem finish_key (c : ErrCode) : (State.finish c s).key = s.key := rfl
@[simp] theorem finish_opa (c : ErrCode) : (State.finish c s).opa = s.opa := rfl
@[simp] theorem finish_opb (c : ErrCode) : (State.finish c s).opb = s.opb := rfl
@[simp] theorem finish_res (c : ErrCode) : (State.finish c s).res = s.res := rfl
@[simp] theorem finish_h (c : ErrCode) : (State.finish c s).h = s.h := rfl
@[simp] theorem finish_y (c : ErrCode) : (State.finish c s).y = s.y := rfl
@[simp] theorem finish_ctr (c : ErrCode) : (State.finish c s).ctr = s.ctr := rfl
@[simp] theorem finish_tag (c : ErrCode) : (State.finish c s).tag = s.tag := rfl
@[simp] theorem finish_rk (c : ErrCode) : (State.finish c s).rk = s.rk := rfl
@[simp] theorem finish_ctl (c : ErrCode) : (State.finish c s).ctl = .idle := rfl
@[simp] theorem finish_pend (c : ErrCode) : (State.finish c s).pend = s.pend := rfl
@[simp] theorem finish_ivmem (c : ErrCode) : (State.finish c s).ivmem = s.ivmem := rfl
@[simp] theorem finish_buf (c : ErrCode) : (State.finish c s).buf = s.buf := rfl
@[simp] theorem finish_gs (c : ErrCode) : (State.finish c s).gs = s.gs := rfl
@[simp] theorem finish_tt (c : ErrCode) : (State.finish c s).tt = s.tt := rfl
@[simp] theorem finish_params (c : ErrCode) : (State.finish c s).params = s.params := rfl
@[simp] theorem finish_resetAsserted (c : ErrCode) : (State.finish c s).resetAsserted = s.resetAsserted := rfl
@[simp] theorem finish_epoch (c : ErrCode) : (State.finish c s).epoch = s.epoch := rfl
@[simp] theorem finish_drawCount (c : ErrCode) : (State.finish c s).drawCount = s.drawCount := rfl
@[simp] theorem finish_resp (c : ErrCode) : (State.finish c s).resp = s.resp := rfl
@[simp] theorem finish_program (c : ErrCode) : (State.finish c s).program = s.program := rfl
@[simp] theorem finish_reads (c : ErrCode) : (State.finish c s).reads = s.reads := rfl
@[simp] theorem finish_turns (c : ErrCode) : (State.finish c s).turns = s.turns := rfl

/-! ### bufWrite -/

@[simp] theorem bufWrite_ctrlIe (a : Nat) (bs : List Byte) : (State.bufWrite s a bs).ctrlIe = s.ctrlIe := rfl
@[simp] theorem bufWrite_ctrlBackend (a : Nat) (bs : List Byte) : (State.bufWrite s a bs).ctrlBackend = s.ctrlBackend := rfl
@[simp] theorem bufWrite_done (a : Nat) (bs : List Byte) : (State.bufWrite s a bs).done = s.done := rfl
@[simp] theorem bufWrite_keyValid (a : Nat) (bs : List Byte) : (State.bufWrite s a bs).keyValid = s.keyValid := rfl
@[simp] theorem bufWrite_werr (a : Nat) (bs : List Byte) : (State.bufWrite s a bs).werr = s.werr := rfl
@[simp] theorem bufWrite_activeBackend (a : Nat) (bs : List Byte) : (State.bufWrite s a bs).activeBackend = s.activeBackend := rfl
@[simp] theorem bufWrite_cmd (a : Nat) (bs : List Byte) : (State.bufWrite s a bs).cmd = s.cmd := rfl
@[simp] theorem bufWrite_err (a : Nat) (bs : List Byte) : (State.bufWrite s a bs).err = s.err := rfl
@[simp] theorem bufWrite_ivLen (a : Nat) (bs : List Byte) : (State.bufWrite s a bs).ivLen = s.ivLen := rfl
@[simp] theorem bufWrite_aadLen (a : Nat) (bs : List Byte) : (State.bufWrite s a bs).aadLen = s.aadLen := rfl
@[simp] theorem bufWrite_textLen (a : Nat) (bs : List Byte) : (State.bufWrite s a bs).textLen = s.textLen := rfl
@[simp] theorem bufWrite_key (a : Nat) (bs : List Byte) : (State.bufWrite s a bs).key = s.key := rfl
@[simp] theorem bufWrite_opa (a : Nat) (bs : List Byte) : (State.bufWrite s a bs).opa = s.opa := rfl
@[simp] theorem bufWrite_opb (a : Nat) (bs : List Byte) : (State.bufWrite s a bs).opb = s.opb := rfl
@[simp] theorem bufWrite_res (a : Nat) (bs : List Byte) : (State.bufWrite s a bs).res = s.res := rfl
@[simp] theorem bufWrite_h (a : Nat) (bs : List Byte) : (State.bufWrite s a bs).h = s.h := rfl
@[simp] theorem bufWrite_y (a : Nat) (bs : List Byte) : (State.bufWrite s a bs).y = s.y := rfl
@[simp] theorem bufWrite_ctr (a : Nat) (bs : List Byte) : (State.bufWrite s a bs).ctr = s.ctr := rfl
@[simp] theorem bufWrite_tag (a : Nat) (bs : List Byte) : (State.bufWrite s a bs).tag = s.tag := rfl
@[simp] theorem bufWrite_rk (a : Nat) (bs : List Byte) : (State.bufWrite s a bs).rk = s.rk := rfl
@[simp] theorem bufWrite_ctl (a : Nat) (bs : List Byte) : (State.bufWrite s a bs).ctl = s.ctl := rfl
@[simp] theorem bufWrite_pend (a : Nat) (bs : List Byte) : (State.bufWrite s a bs).pend = s.pend := rfl
@[simp] theorem bufWrite_ivmem (a : Nat) (bs : List Byte) : (State.bufWrite s a bs).ivmem = s.ivmem := rfl
@[simp] theorem bufWrite_buf (a : Nat) (bs : List Byte) : (State.bufWrite s a bs).buf = Memory.putBytes s.buf a bs := rfl
@[simp] theorem bufWrite_gs (a : Nat) (bs : List Byte) : (State.bufWrite s a bs).gs = s.gs := rfl
@[simp] theorem bufWrite_tt (a : Nat) (bs : List Byte) : (State.bufWrite s a bs).tt = s.tt := rfl
@[simp] theorem bufWrite_params (a : Nat) (bs : List Byte) : (State.bufWrite s a bs).params = s.params := rfl
@[simp] theorem bufWrite_resetAsserted (a : Nat) (bs : List Byte) : (State.bufWrite s a bs).resetAsserted = s.resetAsserted := rfl
@[simp] theorem bufWrite_epoch (a : Nat) (bs : List Byte) : (State.bufWrite s a bs).epoch = s.epoch := rfl
@[simp] theorem bufWrite_drawCount (a : Nat) (bs : List Byte) : (State.bufWrite s a bs).drawCount = s.drawCount := rfl
@[simp] theorem bufWrite_resp (a : Nat) (bs : List Byte) : (State.bufWrite s a bs).resp = s.resp := rfl
@[simp] theorem bufWrite_program (a : Nat) (bs : List Byte) : (State.bufWrite s a bs).program = s.program := rfl
@[simp] theorem bufWrite_reads (a : Nat) (bs : List Byte) : (State.bufWrite s a bs).reads = s.reads := rfl
@[simp] theorem bufWrite_turns (a : Nat) (bs : List Byte) : (State.bufWrite s a bs).turns = s.turns := rfl

/-! ### ivWrite -/

@[simp] theorem ivWrite_ctrlIe (a : Nat) (bs : List Byte) : (State.ivWrite s a bs).ctrlIe = s.ctrlIe := rfl
@[simp] theorem ivWrite_ctrlBackend (a : Nat) (bs : List Byte) : (State.ivWrite s a bs).ctrlBackend = s.ctrlBackend := rfl
@[simp] theorem ivWrite_done (a : Nat) (bs : List Byte) : (State.ivWrite s a bs).done = s.done := rfl
@[simp] theorem ivWrite_keyValid (a : Nat) (bs : List Byte) : (State.ivWrite s a bs).keyValid = s.keyValid := rfl
@[simp] theorem ivWrite_werr (a : Nat) (bs : List Byte) : (State.ivWrite s a bs).werr = s.werr := rfl
@[simp] theorem ivWrite_activeBackend (a : Nat) (bs : List Byte) : (State.ivWrite s a bs).activeBackend = s.activeBackend := rfl
@[simp] theorem ivWrite_cmd (a : Nat) (bs : List Byte) : (State.ivWrite s a bs).cmd = s.cmd := rfl
@[simp] theorem ivWrite_err (a : Nat) (bs : List Byte) : (State.ivWrite s a bs).err = s.err := rfl
@[simp] theorem ivWrite_ivLen (a : Nat) (bs : List Byte) : (State.ivWrite s a bs).ivLen = s.ivLen := rfl
@[simp] theorem ivWrite_aadLen (a : Nat) (bs : List Byte) : (State.ivWrite s a bs).aadLen = s.aadLen := rfl
@[simp] theorem ivWrite_textLen (a : Nat) (bs : List Byte) : (State.ivWrite s a bs).textLen = s.textLen := rfl
@[simp] theorem ivWrite_key (a : Nat) (bs : List Byte) : (State.ivWrite s a bs).key = s.key := rfl
@[simp] theorem ivWrite_opa (a : Nat) (bs : List Byte) : (State.ivWrite s a bs).opa = s.opa := rfl
@[simp] theorem ivWrite_opb (a : Nat) (bs : List Byte) : (State.ivWrite s a bs).opb = s.opb := rfl
@[simp] theorem ivWrite_res (a : Nat) (bs : List Byte) : (State.ivWrite s a bs).res = s.res := rfl
@[simp] theorem ivWrite_h (a : Nat) (bs : List Byte) : (State.ivWrite s a bs).h = s.h := rfl
@[simp] theorem ivWrite_y (a : Nat) (bs : List Byte) : (State.ivWrite s a bs).y = s.y := rfl
@[simp] theorem ivWrite_ctr (a : Nat) (bs : List Byte) : (State.ivWrite s a bs).ctr = s.ctr := rfl
@[simp] theorem ivWrite_tag (a : Nat) (bs : List Byte) : (State.ivWrite s a bs).tag = s.tag := rfl
@[simp] theorem ivWrite_rk (a : Nat) (bs : List Byte) : (State.ivWrite s a bs).rk = s.rk := rfl
@[simp] theorem ivWrite_ctl (a : Nat) (bs : List Byte) : (State.ivWrite s a bs).ctl = s.ctl := rfl
@[simp] theorem ivWrite_pend (a : Nat) (bs : List Byte) : (State.ivWrite s a bs).pend = s.pend := rfl
@[simp] theorem ivWrite_ivmem (a : Nat) (bs : List Byte) : (State.ivWrite s a bs).ivmem = Memory.putBytes s.ivmem a bs := rfl
@[simp] theorem ivWrite_buf (a : Nat) (bs : List Byte) : (State.ivWrite s a bs).buf = s.buf := rfl
@[simp] theorem ivWrite_gs (a : Nat) (bs : List Byte) : (State.ivWrite s a bs).gs = s.gs := rfl
@[simp] theorem ivWrite_tt (a : Nat) (bs : List Byte) : (State.ivWrite s a bs).tt = s.tt := rfl
@[simp] theorem ivWrite_params (a : Nat) (bs : List Byte) : (State.ivWrite s a bs).params = s.params := rfl
@[simp] theorem ivWrite_resetAsserted (a : Nat) (bs : List Byte) : (State.ivWrite s a bs).resetAsserted = s.resetAsserted := rfl
@[simp] theorem ivWrite_epoch (a : Nat) (bs : List Byte) : (State.ivWrite s a bs).epoch = s.epoch := rfl
@[simp] theorem ivWrite_drawCount (a : Nat) (bs : List Byte) : (State.ivWrite s a bs).drawCount = s.drawCount := rfl
@[simp] theorem ivWrite_resp (a : Nat) (bs : List Byte) : (State.ivWrite s a bs).resp = s.resp := rfl
@[simp] theorem ivWrite_program (a : Nat) (bs : List Byte) : (State.ivWrite s a bs).program = s.program := rfl
@[simp] theorem ivWrite_reads (a : Nat) (bs : List Byte) : (State.ivWrite s a bs).reads = s.reads := rfl
@[simp] theorem ivWrite_turns (a : Nat) (bs : List Byte) : (State.ivWrite s a bs).turns = s.turns := rfl

/-! ### clearGs -/

@[simp] theorem clearGs_ctrlIe : (State.clearGs s).ctrlIe = s.ctrlIe := rfl
@[simp] theorem clearGs_ctrlBackend : (State.clearGs s).ctrlBackend = s.ctrlBackend := rfl
@[simp] theorem clearGs_done : (State.clearGs s).done = s.done := rfl
@[simp] theorem clearGs_keyValid : (State.clearGs s).keyValid = s.keyValid := rfl
@[simp] theorem clearGs_werr : (State.clearGs s).werr = s.werr := rfl
@[simp] theorem clearGs_activeBackend : (State.clearGs s).activeBackend = s.activeBackend := rfl
@[simp] theorem clearGs_cmd : (State.clearGs s).cmd = s.cmd := rfl
@[simp] theorem clearGs_err : (State.clearGs s).err = s.err := rfl
@[simp] theorem clearGs_ivLen : (State.clearGs s).ivLen = s.ivLen := rfl
@[simp] theorem clearGs_aadLen : (State.clearGs s).aadLen = s.aadLen := rfl
@[simp] theorem clearGs_textLen : (State.clearGs s).textLen = s.textLen := rfl
@[simp] theorem clearGs_key : (State.clearGs s).key = s.key := rfl
@[simp] theorem clearGs_opa : (State.clearGs s).opa = s.opa := rfl
@[simp] theorem clearGs_opb : (State.clearGs s).opb = s.opb := rfl
@[simp] theorem clearGs_res : (State.clearGs s).res = s.res := rfl
@[simp] theorem clearGs_h : (State.clearGs s).h = s.h := rfl
@[simp] theorem clearGs_y : (State.clearGs s).y = s.y := rfl
@[simp] theorem clearGs_ctr : (State.clearGs s).ctr = s.ctr := rfl
@[simp] theorem clearGs_tag : (State.clearGs s).tag = s.tag := rfl
@[simp] theorem clearGs_rk : (State.clearGs s).rk = s.rk := rfl
@[simp] theorem clearGs_ctl : (State.clearGs s).ctl = s.ctl := rfl
@[simp] theorem clearGs_pend : (State.clearGs s).pend = s.pend := rfl
@[simp] theorem clearGs_ivmem : (State.clearGs s).ivmem = s.ivmem := rfl
@[simp] theorem clearGs_buf : (State.clearGs s).buf = s.buf := rfl
@[simp] theorem clearGs_gs : (State.clearGs s).gs = GcmState.zero := rfl
@[simp] theorem clearGs_tt : (State.clearGs s).tt = s.tt := rfl
@[simp] theorem clearGs_params : (State.clearGs s).params = s.params := rfl
@[simp] theorem clearGs_resetAsserted : (State.clearGs s).resetAsserted = s.resetAsserted := rfl
@[simp] theorem clearGs_epoch : (State.clearGs s).epoch = s.epoch := rfl
@[simp] theorem clearGs_drawCount : (State.clearGs s).drawCount = s.drawCount := rfl
@[simp] theorem clearGs_resp : (State.clearGs s).resp = s.resp := rfl
@[simp] theorem clearGs_program : (State.clearGs s).program = s.program := rfl
@[simp] theorem clearGs_reads : (State.clearGs s).reads = s.reads := rfl
@[simp] theorem clearGs_turns : (State.clearGs s).turns = s.turns := rfl

/-! ### writeCtrl -/

@[simp] theorem writeCtrl_ctrlIe (d : Word) : (State.writeCtrl s d).ctrlIe = d.getLsbD 0 := rfl
@[simp] theorem writeCtrl_ctrlBackend (d : Word) : (State.writeCtrl s d).ctrlBackend = (Backend.ofBits? (d.extractLsb' 4 2)).getD s.ctrlBackend := rfl
@[simp] theorem writeCtrl_done (d : Word) : (State.writeCtrl s d).done = s.done := rfl
@[simp] theorem writeCtrl_keyValid (d : Word) : (State.writeCtrl s d).keyValid = s.keyValid := rfl
@[simp] theorem writeCtrl_werr (d : Word) : (State.writeCtrl s d).werr = s.werr := rfl
@[simp] theorem writeCtrl_activeBackend (d : Word) : (State.writeCtrl s d).activeBackend = s.activeBackend := rfl
@[simp] theorem writeCtrl_cmd (d : Word) : (State.writeCtrl s d).cmd = s.cmd := rfl
@[simp] theorem writeCtrl_err (d : Word) : (State.writeCtrl s d).err = s.err := rfl
@[simp] theorem writeCtrl_ivLen (d : Word) : (State.writeCtrl s d).ivLen = s.ivLen := rfl
@[simp] theorem writeCtrl_aadLen (d : Word) : (State.writeCtrl s d).aadLen = s.aadLen := rfl
@[simp] theorem writeCtrl_textLen (d : Word) : (State.writeCtrl s d).textLen = s.textLen := rfl
@[simp] theorem writeCtrl_key (d : Word) : (State.writeCtrl s d).key = s.key := rfl
@[simp] theorem writeCtrl_opa (d : Word) : (State.writeCtrl s d).opa = s.opa := rfl
@[simp] theorem writeCtrl_opb (d : Word) : (State.writeCtrl s d).opb = s.opb := rfl
@[simp] theorem writeCtrl_res (d : Word) : (State.writeCtrl s d).res = s.res := rfl
@[simp] theorem writeCtrl_h (d : Word) : (State.writeCtrl s d).h = s.h := rfl
@[simp] theorem writeCtrl_y (d : Word) : (State.writeCtrl s d).y = s.y := rfl
@[simp] theorem writeCtrl_ctr (d : Word) : (State.writeCtrl s d).ctr = s.ctr := rfl
@[simp] theorem writeCtrl_tag (d : Word) : (State.writeCtrl s d).tag = s.tag := rfl
@[simp] theorem writeCtrl_rk (d : Word) : (State.writeCtrl s d).rk = s.rk := rfl
@[simp] theorem writeCtrl_ctl (d : Word) : (State.writeCtrl s d).ctl = s.ctl := rfl
@[simp] theorem writeCtrl_pend (d : Word) : (State.writeCtrl s d).pend = s.pend := rfl
@[simp] theorem writeCtrl_ivmem (d : Word) : (State.writeCtrl s d).ivmem = s.ivmem := rfl
@[simp] theorem writeCtrl_buf (d : Word) : (State.writeCtrl s d).buf = s.buf := rfl
@[simp] theorem writeCtrl_gs (d : Word) : (State.writeCtrl s d).gs = s.gs := rfl
@[simp] theorem writeCtrl_tt (d : Word) : (State.writeCtrl s d).tt = s.tt := rfl
@[simp] theorem writeCtrl_params (d : Word) : (State.writeCtrl s d).params = s.params := rfl
@[simp] theorem writeCtrl_resetAsserted (d : Word) : (State.writeCtrl s d).resetAsserted = s.resetAsserted := rfl
@[simp] theorem writeCtrl_epoch (d : Word) : (State.writeCtrl s d).epoch = s.epoch := rfl
@[simp] theorem writeCtrl_drawCount (d : Word) : (State.writeCtrl s d).drawCount = s.drawCount := rfl
@[simp] theorem writeCtrl_resp (d : Word) : (State.writeCtrl s d).resp = s.resp := rfl
@[simp] theorem writeCtrl_program (d : Word) : (State.writeCtrl s d).program = s.program := rfl
@[simp] theorem writeCtrl_reads (d : Word) : (State.writeCtrl s d).reads = s.reads := rfl
@[simp] theorem writeCtrl_turns (d : Word) : (State.writeCtrl s d).turns = s.turns := rfl

/-! ### writeStatus -/

@[simp] theorem writeStatus_ctrlIe (d : Word) : (State.writeStatus s d).ctrlIe = s.ctrlIe := rfl
@[simp] theorem writeStatus_ctrlBackend (d : Word) : (State.writeStatus s d).ctrlBackend = s.ctrlBackend := rfl
@[simp] theorem writeStatus_done (d : Word) : (State.writeStatus s d).done = (s.done && !d.getLsbD 1) := rfl
@[simp] theorem writeStatus_keyValid (d : Word) : (State.writeStatus s d).keyValid = s.keyValid := rfl
@[simp] theorem writeStatus_werr (d : Word) : (State.writeStatus s d).werr = (s.werr && !d.getLsbD 4) := rfl
@[simp] theorem writeStatus_activeBackend (d : Word) : (State.writeStatus s d).activeBackend = s.activeBackend := rfl
@[simp] theorem writeStatus_cmd (d : Word) : (State.writeStatus s d).cmd = s.cmd := rfl
@[simp] theorem writeStatus_err (d : Word) : (State.writeStatus s d).err = s.err := rfl
@[simp] theorem writeStatus_ivLen (d : Word) : (State.writeStatus s d).ivLen = s.ivLen := rfl
@[simp] theorem writeStatus_aadLen (d : Word) : (State.writeStatus s d).aadLen = s.aadLen := rfl
@[simp] theorem writeStatus_textLen (d : Word) : (State.writeStatus s d).textLen = s.textLen := rfl
@[simp] theorem writeStatus_key (d : Word) : (State.writeStatus s d).key = s.key := rfl
@[simp] theorem writeStatus_opa (d : Word) : (State.writeStatus s d).opa = s.opa := rfl
@[simp] theorem writeStatus_opb (d : Word) : (State.writeStatus s d).opb = s.opb := rfl
@[simp] theorem writeStatus_res (d : Word) : (State.writeStatus s d).res = s.res := rfl
@[simp] theorem writeStatus_h (d : Word) : (State.writeStatus s d).h = s.h := rfl
@[simp] theorem writeStatus_y (d : Word) : (State.writeStatus s d).y = s.y := rfl
@[simp] theorem writeStatus_ctr (d : Word) : (State.writeStatus s d).ctr = s.ctr := rfl
@[simp] theorem writeStatus_tag (d : Word) : (State.writeStatus s d).tag = s.tag := rfl
@[simp] theorem writeStatus_rk (d : Word) : (State.writeStatus s d).rk = s.rk := rfl
@[simp] theorem writeStatus_ctl (d : Word) : (State.writeStatus s d).ctl = s.ctl := rfl
@[simp] theorem writeStatus_pend (d : Word) : (State.writeStatus s d).pend = s.pend := rfl
@[simp] theorem writeStatus_ivmem (d : Word) : (State.writeStatus s d).ivmem = s.ivmem := rfl
@[simp] theorem writeStatus_buf (d : Word) : (State.writeStatus s d).buf = s.buf := rfl
@[simp] theorem writeStatus_gs (d : Word) : (State.writeStatus s d).gs = s.gs := rfl
@[simp] theorem writeStatus_tt (d : Word) : (State.writeStatus s d).tt = s.tt := rfl
@[simp] theorem writeStatus_params (d : Word) : (State.writeStatus s d).params = s.params := rfl
@[simp] theorem writeStatus_resetAsserted (d : Word) : (State.writeStatus s d).resetAsserted = s.resetAsserted := rfl
@[simp] theorem writeStatus_epoch (d : Word) : (State.writeStatus s d).epoch = s.epoch := rfl
@[simp] theorem writeStatus_drawCount (d : Word) : (State.writeStatus s d).drawCount = s.drawCount := rfl
@[simp] theorem writeStatus_resp (d : Word) : (State.writeStatus s d).resp = s.resp := rfl
@[simp] theorem writeStatus_program (d : Word) : (State.writeStatus s d).program = s.program := rfl
@[simp] theorem writeStatus_reads (d : Word) : (State.writeStatus s d).reads = s.reads := rfl
@[simp] theorem writeStatus_turns (d : Word) : (State.writeStatus s d).turns = s.turns := rfl

/-! ### accept -/

@[simp] theorem accept_ctrlIe (w : Word) : (State.accept s w).ctrlIe = s.ctrlIe := rfl
@[simp] theorem accept_ctrlBackend (w : Word) : (State.accept s w).ctrlBackend = s.ctrlBackend := rfl
@[simp] theorem accept_done (w : Word) : (State.accept s w).done = false := rfl
@[simp] theorem accept_keyValid (w : Word) : (State.accept s w).keyValid = s.keyValid := rfl
@[simp] theorem accept_werr (w : Word) : (State.accept s w).werr = s.werr := rfl
@[simp] theorem accept_activeBackend (w : Word) : (State.accept s w).activeBackend = s.activeBackend := rfl
@[simp] theorem accept_cmd (w : Word) : (State.accept s w).cmd = w := rfl
@[simp] theorem accept_err (w : Word) : (State.accept s w).err = .ok := rfl
@[simp] theorem accept_ivLen (w : Word) : (State.accept s w).ivLen = s.ivLen := rfl
@[simp] theorem accept_aadLen (w : Word) : (State.accept s w).aadLen = s.aadLen := rfl
@[simp] theorem accept_textLen (w : Word) : (State.accept s w).textLen = s.textLen := rfl
@[simp] theorem accept_key (w : Word) : (State.accept s w).key = s.key := rfl
@[simp] theorem accept_opa (w : Word) : (State.accept s w).opa = s.opa := rfl
@[simp] theorem accept_opb (w : Word) : (State.accept s w).opb = s.opb := rfl
@[simp] theorem accept_res (w : Word) : (State.accept s w).res = s.res := rfl
@[simp] theorem accept_h (w : Word) : (State.accept s w).h = s.h := rfl
@[simp] theorem accept_y (w : Word) : (State.accept s w).y = s.y := rfl
@[simp] theorem accept_ctr (w : Word) : (State.accept s w).ctr = s.ctr := rfl
@[simp] theorem accept_tag (w : Word) : (State.accept s w).tag = s.tag := rfl
@[simp] theorem accept_rk (w : Word) : (State.accept s w).rk = s.rk := rfl
@[simp] theorem accept_ctl (w : Word) : (State.accept s w).ctl = .busy := rfl
@[simp] theorem accept_pend (w : Word) : (State.accept s w).pend = { word := w, bsel := s.ctrlBackend } := rfl
@[simp] theorem accept_ivmem (w : Word) : (State.accept s w).ivmem = s.ivmem := rfl
@[simp] theorem accept_buf (w : Word) : (State.accept s w).buf = s.buf := rfl
@[simp] theorem accept_gs (w : Word) : (State.accept s w).gs = s.gs := rfl
@[simp] theorem accept_tt (w : Word) : (State.accept s w).tt = s.tt := rfl
@[simp] theorem accept_params (w : Word) : (State.accept s w).params = s.params := rfl
@[simp] theorem accept_resetAsserted (w : Word) : (State.accept s w).resetAsserted = s.resetAsserted := rfl
@[simp] theorem accept_epoch (w : Word) : (State.accept s w).epoch = s.epoch := rfl
@[simp] theorem accept_drawCount (w : Word) : (State.accept s w).drawCount = s.drawCount := rfl
@[simp] theorem accept_resp (w : Word) : (State.accept s w).resp = s.resp := rfl
@[simp] theorem accept_program (w : Word) : (State.accept s w).program = s.program := rfl
@[simp] theorem accept_reads (w : Word) : (State.accept s w).reads = s.reads := rfl
@[simp] theorem accept_turns (w : Word) : (State.accept s w).turns = s.turns := rfl

/-! ### startTurn -/

@[simp] theorem startTurn_ctrlIe : (State.startTurn s).ctrlIe = s.ctrlIe := rfl
@[simp] theorem startTurn_ctrlBackend : (State.startTurn s).ctrlBackend = s.ctrlBackend := rfl
@[simp] theorem startTurn_done : (State.startTurn s).done = s.done := rfl
@[simp] theorem startTurn_keyValid : (State.startTurn s).keyValid = s.keyValid := rfl
@[simp] theorem startTurn_werr : (State.startTurn s).werr = s.werr := rfl
@[simp] theorem startTurn_activeBackend : (State.startTurn s).activeBackend = s.activeBackend := rfl
@[simp] theorem startTurn_cmd : (State.startTurn s).cmd = s.cmd := rfl
@[simp] theorem startTurn_err : (State.startTurn s).err = s.err := rfl
@[simp] theorem startTurn_ivLen : (State.startTurn s).ivLen = s.ivLen := rfl
@[simp] theorem startTurn_aadLen : (State.startTurn s).aadLen = s.aadLen := rfl
@[simp] theorem startTurn_textLen : (State.startTurn s).textLen = s.textLen := rfl
@[simp] theorem startTurn_key : (State.startTurn s).key = s.key := rfl
@[simp] theorem startTurn_opa : (State.startTurn s).opa = s.opa := rfl
@[simp] theorem startTurn_opb : (State.startTurn s).opb = s.opb := rfl
@[simp] theorem startTurn_res : (State.startTurn s).res = s.res := rfl
@[simp] theorem startTurn_h : (State.startTurn s).h = s.h := rfl
@[simp] theorem startTurn_y : (State.startTurn s).y = s.y := rfl
@[simp] theorem startTurn_ctr : (State.startTurn s).ctr = s.ctr := rfl
@[simp] theorem startTurn_tag : (State.startTurn s).tag = s.tag := rfl
@[simp] theorem startTurn_rk : (State.startTurn s).rk = s.rk := rfl
@[simp] theorem startTurn_ctl : (State.startTurn s).ctl = s.ctl := rfl
@[simp] theorem startTurn_pend : (State.startTurn s).pend = s.pend := rfl
@[simp] theorem startTurn_ivmem : (State.startTurn s).ivmem = s.ivmem := rfl
@[simp] theorem startTurn_buf : (State.startTurn s).buf = s.buf := rfl
@[simp] theorem startTurn_gs : (State.startTurn s).gs = s.gs := rfl
@[simp] theorem startTurn_tt : (State.startTurn s).tt = s.tt := rfl
@[simp] theorem startTurn_params : (State.startTurn s).params = s.params := rfl
@[simp] theorem startTurn_resetAsserted : (State.startTurn s).resetAsserted = s.resetAsserted := rfl
@[simp] theorem startTurn_epoch : (State.startTurn s).epoch = s.epoch := rfl
@[simp] theorem startTurn_drawCount : (State.startTurn s).drawCount = s.drawCount := rfl
@[simp] theorem startTurn_resp : (State.startTurn s).resp = none := rfl
@[simp] theorem startTurn_program : (State.startTurn s).program = s.program := rfl
@[simp] theorem startTurn_reads : (State.startTurn s).reads = s.reads := rfl
@[simp] theorem startTurn_turns : (State.startTurn s).turns = s.turns.tail := rfl

/-! ### initDone -/

@[simp] theorem initDone_ctrlIe : (State.initDone s).ctrlIe = s.ctrlIe := rfl
@[simp] theorem initDone_ctrlBackend : (State.initDone s).ctrlBackend = s.ctrlBackend := rfl
@[simp] theorem initDone_done : (State.initDone s).done = s.done := rfl
@[simp] theorem initDone_keyValid : (State.initDone s).keyValid = s.keyValid := rfl
@[simp] theorem initDone_werr : (State.initDone s).werr = s.werr := rfl
@[simp] theorem initDone_activeBackend : (State.initDone s).activeBackend = s.activeBackend := rfl
@[simp] theorem initDone_cmd : (State.initDone s).cmd = s.cmd := rfl
@[simp] theorem initDone_err : (State.initDone s).err = s.err := rfl
@[simp] theorem initDone_ivLen : (State.initDone s).ivLen = s.ivLen := rfl
@[simp] theorem initDone_aadLen : (State.initDone s).aadLen = s.aadLen := rfl
@[simp] theorem initDone_textLen : (State.initDone s).textLen = s.textLen := rfl
@[simp] theorem initDone_key : (State.initDone s).key = s.key := rfl
@[simp] theorem initDone_opa : (State.initDone s).opa = s.opa := rfl
@[simp] theorem initDone_opb : (State.initDone s).opb = s.opb := rfl
@[simp] theorem initDone_res : (State.initDone s).res = s.res := rfl
@[simp] theorem initDone_h : (State.initDone s).h = s.h := rfl
@[simp] theorem initDone_y : (State.initDone s).y = s.y := rfl
@[simp] theorem initDone_ctr : (State.initDone s).ctr = s.ctr := rfl
@[simp] theorem initDone_tag : (State.initDone s).tag = s.tag := rfl
@[simp] theorem initDone_rk : (State.initDone s).rk = s.rk := rfl
@[simp] theorem initDone_ctl : (State.initDone s).ctl = .idle := rfl
@[simp] theorem initDone_pend : (State.initDone s).pend = s.pend := rfl
@[simp] theorem initDone_ivmem : (State.initDone s).ivmem = s.ivmem := rfl
@[simp] theorem initDone_buf : (State.initDone s).buf = s.buf := rfl
@[simp] theorem initDone_gs : (State.initDone s).gs = s.gs := rfl
@[simp] theorem initDone_tt : (State.initDone s).tt = .built := rfl
@[simp] theorem initDone_params : (State.initDone s).params = s.params := rfl
@[simp] theorem initDone_resetAsserted : (State.initDone s).resetAsserted = s.resetAsserted := rfl
@[simp] theorem initDone_epoch : (State.initDone s).epoch = s.epoch := rfl
@[simp] theorem initDone_drawCount : (State.initDone s).drawCount = s.drawCount := rfl
@[simp] theorem initDone_resp : (State.initDone s).resp = s.resp := rfl
@[simp] theorem initDone_program : (State.initDone s).program = s.program := rfl
@[simp] theorem initDone_reads : (State.initDone s).reads = s.reads := rfl
@[simp] theorem initDone_turns : (State.initDone s).turns = s.turns := rfl

/-! ### recordRead -/

@[simp] theorem recordRead_ctrlIe : (State.recordRead s).ctrlIe = s.ctrlIe := rfl
@[simp] theorem recordRead_ctrlBackend : (State.recordRead s).ctrlBackend = s.ctrlBackend := rfl
@[simp] theorem recordRead_done : (State.recordRead s).done = s.done := rfl
@[simp] theorem recordRead_keyValid : (State.recordRead s).keyValid = s.keyValid := rfl
@[simp] theorem recordRead_werr : (State.recordRead s).werr = s.werr := rfl
@[simp] theorem recordRead_activeBackend : (State.recordRead s).activeBackend = s.activeBackend := rfl
@[simp] theorem recordRead_cmd : (State.recordRead s).cmd = s.cmd := rfl
@[simp] theorem recordRead_err : (State.recordRead s).err = s.err := rfl
@[simp] theorem recordRead_ivLen : (State.recordRead s).ivLen = s.ivLen := rfl
@[simp] theorem recordRead_aadLen : (State.recordRead s).aadLen = s.aadLen := rfl
@[simp] theorem recordRead_textLen : (State.recordRead s).textLen = s.textLen := rfl
@[simp] theorem recordRead_key : (State.recordRead s).key = s.key := rfl
@[simp] theorem recordRead_opa : (State.recordRead s).opa = s.opa := rfl
@[simp] theorem recordRead_opb : (State.recordRead s).opb = s.opb := rfl
@[simp] theorem recordRead_res : (State.recordRead s).res = s.res := rfl
@[simp] theorem recordRead_h : (State.recordRead s).h = s.h := rfl
@[simp] theorem recordRead_y : (State.recordRead s).y = s.y := rfl
@[simp] theorem recordRead_ctr : (State.recordRead s).ctr = s.ctr := rfl
@[simp] theorem recordRead_tag : (State.recordRead s).tag = s.tag := rfl
@[simp] theorem recordRead_rk : (State.recordRead s).rk = s.rk := rfl
@[simp] theorem recordRead_ctl : (State.recordRead s).ctl = s.ctl := rfl
@[simp] theorem recordRead_pend : (State.recordRead s).pend = s.pend := rfl
@[simp] theorem recordRead_ivmem : (State.recordRead s).ivmem = s.ivmem := rfl
@[simp] theorem recordRead_buf : (State.recordRead s).buf = s.buf := rfl
@[simp] theorem recordRead_gs : (State.recordRead s).gs = s.gs := rfl
@[simp] theorem recordRead_tt : (State.recordRead s).tt = s.tt := rfl
@[simp] theorem recordRead_params : (State.recordRead s).params = s.params := rfl
@[simp] theorem recordRead_resetAsserted : (State.recordRead s).resetAsserted = s.resetAsserted := rfl
@[simp] theorem recordRead_epoch : (State.recordRead s).epoch = s.epoch := rfl
@[simp] theorem recordRead_drawCount : (State.recordRead s).drawCount = s.drawCount := rfl
@[simp] theorem recordRead_resp : (State.recordRead s).resp = s.resp := rfl
@[simp] theorem recordRead_program : (State.recordRead s).program = s.program := rfl
@[simp] theorem recordRead_reads : (State.recordRead s).reads = s.reads ++ (s.resp.bind BusResult.readData).toList := rfl
@[simp] theorem recordRead_turns : (State.recordRead s).turns = s.turns := rfl

/-! ### releaseReset -/

@[simp] theorem releaseReset_ctrlIe : (State.releaseReset s).ctrlIe = s.ctrlIe := rfl
@[simp] theorem releaseReset_ctrlBackend : (State.releaseReset s).ctrlBackend = s.ctrlBackend := rfl
@[simp] theorem releaseReset_done : (State.releaseReset s).done = s.done := rfl
@[simp] theorem releaseReset_keyValid : (State.releaseReset s).keyValid = s.keyValid := rfl
@[simp] theorem releaseReset_werr : (State.releaseReset s).werr = s.werr := rfl
@[simp] theorem releaseReset_activeBackend : (State.releaseReset s).activeBackend = s.activeBackend := rfl
@[simp] theorem releaseReset_cmd : (State.releaseReset s).cmd = s.cmd := rfl
@[simp] theorem releaseReset_err : (State.releaseReset s).err = s.err := rfl
@[simp] theorem releaseReset_ivLen : (State.releaseReset s).ivLen = s.ivLen := rfl
@[simp] theorem releaseReset_aadLen : (State.releaseReset s).aadLen = s.aadLen := rfl
@[simp] theorem releaseReset_textLen : (State.releaseReset s).textLen = s.textLen := rfl
@[simp] theorem releaseReset_key : (State.releaseReset s).key = s.key := rfl
@[simp] theorem releaseReset_opa : (State.releaseReset s).opa = s.opa := rfl
@[simp] theorem releaseReset_opb : (State.releaseReset s).opb = s.opb := rfl
@[simp] theorem releaseReset_res : (State.releaseReset s).res = s.res := rfl
@[simp] theorem releaseReset_h : (State.releaseReset s).h = s.h := rfl
@[simp] theorem releaseReset_y : (State.releaseReset s).y = s.y := rfl
@[simp] theorem releaseReset_ctr : (State.releaseReset s).ctr = s.ctr := rfl
@[simp] theorem releaseReset_tag : (State.releaseReset s).tag = s.tag := rfl
@[simp] theorem releaseReset_rk : (State.releaseReset s).rk = s.rk := rfl
@[simp] theorem releaseReset_ctl : (State.releaseReset s).ctl = s.ctl := rfl
@[simp] theorem releaseReset_pend : (State.releaseReset s).pend = s.pend := rfl
@[simp] theorem releaseReset_ivmem : (State.releaseReset s).ivmem = s.ivmem := rfl
@[simp] theorem releaseReset_buf : (State.releaseReset s).buf = s.buf := rfl
@[simp] theorem releaseReset_gs : (State.releaseReset s).gs = s.gs := rfl
@[simp] theorem releaseReset_tt : (State.releaseReset s).tt = s.tt := rfl
@[simp] theorem releaseReset_params : (State.releaseReset s).params = s.params := rfl
@[simp] theorem releaseReset_resetAsserted : (State.releaseReset s).resetAsserted = false := rfl
@[simp] theorem releaseReset_epoch : (State.releaseReset s).epoch = s.epoch := rfl
@[simp] theorem releaseReset_drawCount : (State.releaseReset s).drawCount = s.drawCount := rfl
@[simp] theorem releaseReset_resp : (State.releaseReset s).resp = s.resp := rfl
@[simp] theorem releaseReset_program : (State.releaseReset s).program = s.program := rfl
@[simp] theorem releaseReset_reads : (State.releaseReset s).reads = s.reads := rfl
@[simp] theorem releaseReset_turns : (State.releaseReset s).turns = s.turns := rfl

/-! ### setGroup -/

@[simp] theorem setGroup_ctrlIe (g : Group) (v : Block) : (s.setGroup g v).ctrlIe = s.ctrlIe := by cases g <;> rfl
@[simp] theorem setGroup_ctrlBackend (g : Group) (v : Block) : (s.setGroup g v).ctrlBackend = s.ctrlBackend := by cases g <;> rfl
@[simp] theorem setGroup_done (g : Group) (v : Block) : (s.setGroup g v).done = s.done := by cases g <;> rfl
@[simp] theorem setGroup_keyValid (g : Group) (v : Block) : (s.setGroup g v).keyValid = s.keyValid := by cases g <;> rfl
@[simp] theorem setGroup_werr (g : Group) (v : Block) : (s.setGroup g v).werr = s.werr := by cases g <;> rfl
@[simp] theorem setGroup_activeBackend (g : Group) (v : Block) : (s.setGroup g v).activeBackend = s.activeBackend := by cases g <;> rfl
@[simp] theorem setGroup_cmd (g : Group) (v : Block) : (s.setGroup g v).cmd = s.cmd := by cases g <;> rfl
@[simp] theorem setGroup_err (g : Group) (v : Block) : (s.setGroup g v).err = s.err := by cases g <;> rfl
@[simp] theorem setGroup_ivLen (g : Group) (v : Block) : (s.setGroup g v).ivLen = s.ivLen := by cases g <;> rfl
@[simp] theorem setGroup_aadLen (g : Group) (v : Block) : (s.setGroup g v).aadLen = s.aadLen := by cases g <;> rfl
@[simp] theorem setGroup_textLen (g : Group) (v : Block) : (s.setGroup g v).textLen = s.textLen := by cases g <;> rfl
@[simp] theorem setGroup_rk (g : Group) (v : Block) : (s.setGroup g v).rk = s.rk := by cases g <;> rfl
@[simp] theorem setGroup_ctl (g : Group) (v : Block) : (s.setGroup g v).ctl = s.ctl := by cases g <;> rfl
@[simp] theorem setGroup_pend (g : Group) (v : Block) : (s.setGroup g v).pend = s.pend := by cases g <;> rfl
@[simp] theorem setGroup_ivmem (g : Group) (v : Block) : (s.setGroup g v).ivmem = s.ivmem := by cases g <;> rfl
@[simp] theorem setGroup_buf (g : Group) (v : Block) : (s.setGroup g v).buf = s.buf := by cases g <;> rfl
@[simp] theorem setGroup_gs (g : Group) (v : Block) : (s.setGroup g v).gs = s.gs := by cases g <;> rfl
@[simp] theorem setGroup_tt (g : Group) (v : Block) : (s.setGroup g v).tt = s.tt := by cases g <;> rfl
@[simp] theorem setGroup_params (g : Group) (v : Block) : (s.setGroup g v).params = s.params := by cases g <;> rfl
@[simp] theorem setGroup_resetAsserted (g : Group) (v : Block) : (s.setGroup g v).resetAsserted = s.resetAsserted := by cases g <;> rfl
@[simp] theorem setGroup_epoch (g : Group) (v : Block) : (s.setGroup g v).epoch = s.epoch := by cases g <;> rfl
@[simp] theorem setGroup_drawCount (g : Group) (v : Block) : (s.setGroup g v).drawCount = s.drawCount := by cases g <;> rfl
@[simp] theorem setGroup_resp (g : Group) (v : Block) : (s.setGroup g v).resp = s.resp := by cases g <;> rfl
@[simp] theorem setGroup_program (g : Group) (v : Block) : (s.setGroup g v).program = s.program := by cases g <;> rfl
@[simp] theorem setGroup_reads (g : Group) (v : Block) : (s.setGroup g v).reads = s.reads := by cases g <;> rfl
@[simp] theorem setGroup_turns (g : Group) (v : Block) : (s.setGroup g v).turns = s.turns := by cases g <;> rfl

@[simp] theorem setGroup_group_self (g : Group) (v : Block) : (s.setGroup g v).group g = v := by cases g <;> rfl

theorem setGroup_group_ne (g g' : Group) (v : Block) (h : g' ≠ g) : (s.setGroup g v).group g' = s.group g' := by
  cases g <;> cases g' <;> first | rfl | exact absurd rfl h

/-! ### assertReset -/

@[simp] theorem assertReset_ctrlIe : s.assertReset.ctrlIe = false := rfl
@[simp] theorem assertReset_ctrlBackend : s.assertReset.ctrlBackend = .hardwareAccelerated := rfl
@[simp] theorem assertReset_done : s.assertReset.done = false := rfl
@[simp] theorem assertReset_keyValid : s.assertReset.keyValid = false := rfl
@[simp] theorem assertReset_werr : s.assertReset.werr = false := rfl
@[simp] theorem assertReset_activeBackend : s.assertReset.activeBackend = .reference := rfl
@[simp] theorem assertReset_cmd : s.assertReset.cmd = 0 := rfl
@[simp] theorem assertReset_err : s.assertReset.err = .ok := rfl
@[simp] theorem assertReset_ivLen : s.assertReset.ivLen = 0 := rfl
@[simp] theorem assertReset_aadLen : s.assertReset.aadLen = 0 := rfl
@[simp] theorem assertReset_textLen : s.assertReset.textLen = 0 := rfl
@[simp] theorem assertReset_key : s.assertReset.key = 0 := rfl
@[simp] theorem assertReset_opa : s.assertReset.opa = 0 := rfl
@[simp] theorem assertReset_opb : s.assertReset.opb = 0 := rfl
@[simp] theorem assertReset_res : s.assertReset.res = 0 := rfl
@[simp] theorem assertReset_h : s.assertReset.h = 0 := rfl
@[simp] theorem assertReset_y : s.assertReset.y = 0 := rfl
@[simp] theorem assertReset_ctr : s.assertReset.ctr = 0 := rfl
@[simp] theorem assertReset_tag : s.assertReset.tag = 0 := rfl
@[simp] theorem assertReset_rk : s.assertReset.rk = Vector.replicate 32 0 := rfl
@[simp] theorem assertReset_ctl : s.assertReset.ctl = .init := rfl
@[simp] theorem assertReset_pend : s.assertReset.pend = { word := 0, bsel := .reference } := rfl
@[simp] theorem assertReset_ivmem : s.assertReset.ivmem = [] := rfl
@[simp] theorem assertReset_buf : s.assertReset.buf = [] := rfl
@[simp] theorem assertReset_gs : s.assertReset.gs = GcmState.zero := rfl
@[simp] theorem assertReset_tt : s.assertReset.tt = .unspecified := rfl
@[simp] theorem assertReset_params : s.assertReset.params = s.params := rfl
@[simp] theorem assertReset_resetAsserted : s.assertReset.resetAsserted = true := rfl
@[simp] theorem assertReset_epoch : s.assertReset.epoch = s.epoch + 1 := rfl
@[simp] theorem assertReset_drawCount : s.assertReset.drawCount = s.drawCount := rfl
@[simp] theorem assertReset_resp : s.assertReset.resp = none := rfl
@[simp] theorem assertReset_program : s.assertReset.program = s.program := rfl
@[simp] theorem assertReset_reads : s.assertReset.reads = s.reads := rfl
@[simp] theorem assertReset_turns : s.assertReset.turns = s.turns := rfl

end Sys2Proof.Machine
end

