-- ==== Sys2Proof/Laws/Memory.lean ====
section
/-! SUPPORT. The laws of the byte memories: what a read gives after a write, and that writing keeps the canonical
form. -/

namespace Sys2Proof.Machine

/-! ### One byte -/

theorem get?_put_self (m : Memory) (a : Nat) (b : Byte) : Memory.get? (Memory.put m a b) a = some b := by
  induction m with
  | nil => simp [Memory.put, Memory.get?]
  | cons c m ih =>
    obtain ⟨x, d⟩ := c
    unfold Memory.put
    split
    · simp [Memory.get?]
    · split
      · simp [Memory.get?]
      · next h1 h2 => simp [Memory.get?, h2, ih]

theorem get?_put_ne (m : Memory) (a a' : Nat) (b : Byte) (h : a' ≠ a) :
    Memory.get? (Memory.put m a b) a' = Memory.get? m a' := by
  induction m with
  | nil => simp [Memory.put, Memory.get?, h]
  | cons c m ih =>
    obtain ⟨x, d⟩ := c
    unfold Memory.put
    split
    · simp [Memory.get?, h]
    · split
      · next h2 => subst h2; simp [Memory.get?, h]
      · simp [Memory.get?, ih]

/-- Every entry after a byte write is the written byte or an entry that was there. -/
theorem mem_put {m : Memory} {a : Nat} {b : Byte} {c : Host.Cell} (h : c ∈ Memory.put m a b) :
    c = (a, b) ∨ c ∈ m := by
  induction m with
  | nil => simpa [Memory.put] using h
  | cons d m ih =>
    obtain ⟨x, e⟩ := d
    unfold Memory.put at h
    split at h
    · simpa using h
    · split at h
      · simp only [List.mem_cons] at h ⊢
        exact h.imp_right Or.inr
      · simp only [List.mem_cons] at h ⊢
        obtain h | h := h
        · exact .inr (.inl h)
        · exact (ih h).imp_right Or.inr

theorem wf_put {size : Nat} {m : Memory} (hm : Memory.wf size m) {a : Nat} (ha : a < size) (b : Byte) :
    Memory.wf size (Memory.put m a b) := by
  refine ⟨?_, fun c hc => ?_⟩
  · obtain ⟨hp, -⟩ := hm
    induction m with
    | nil => simp [Memory.put]
    | cons d m ih =>
      obtain ⟨x, e⟩ := d
      obtain ⟨hx, hq⟩ := List.pairwise_cons.1 hp
      unfold Memory.put
      split
      · next h =>
        refine List.pairwise_cons.2 ⟨fun c hc => ?_, List.pairwise_cons.2 ⟨hx, hq⟩⟩
        obtain rfl | hc := List.mem_cons.1 hc
        · exact h
        · exact Nat.lt_trans h (hx c hc)
      · split
        · next h => subst h; exact List.pairwise_cons.2 ⟨hx, hq⟩
        · next h1 h2 =>
          refine List.pairwise_cons.2 ⟨fun c hc => ?_, ih hq⟩
          obtain rfl | hc := mem_put hc
          · simp only; omega
          · exact hx c hc
  · obtain rfl | hc := mem_put hc
    · exact ha
    · exact hm.2 c hc

/-! ### A byte string -/

theorem wf_putBytes {size : Nat} (bs : List Byte) :
    ∀ {m : Memory} {a : Nat}, Memory.wf size m → a + bs.length ≤ size → Memory.wf size (Memory.putBytes m a bs) := by
  induction bs with
  | nil => intro m a hm _; exact hm
  | cons b bs ih =>
    intro m a hm ha
    simp only [List.length_cons] at ha
    exact ih (wf_put hm (by omega) b) (by omega)

/-- Outside the written bytes nothing changes. -/
theorem get?_putBytes_outside (bs : List Byte) :
    ∀ (m : Memory) (a a' : Nat), a' < a ∨ a + bs.length ≤ a' →
      Memory.get? (Memory.putBytes m a bs) a' = Memory.get? m a' := by
  induction bs with
  | nil => intros; rfl
  | cons b bs ih =>
    intro m a a' h
    simp only [List.length_cons] at h
    rw [Memory.putBytes, ih _ _ _ (by omega), get?_put_ne _ _ _ _ (by omega)]

/-- Inside them, byte `i` of the string is read. -/
theorem get?_putBytes_inside (bs : List Byte) :
    ∀ (m : Memory) (a i : Nat) (hi : i < bs.length), Memory.get? (Memory.putBytes m a bs) (a + i) = some bs[i] := by
  induction bs with
  | nil => intro m a i hi; simp at hi
  | cons b bs ih =>
    intro m a i hi
    rw [Memory.putBytes]
    cases i with
    | zero => rw [get?_putBytes_outside _ _ _ _ (by omega)]; exact get?_put_self _ _ _
    | succ i =>
      have := ih (Memory.put m a b) (a + 1) i (by simpa using hi)
      rw [show a + 1 + i = a + (i + 1) by omega] at this
      simpa using this

/-! ### The memories of a state -/

@[simp] theorem ivRead_length (s : State) (off n : Nat) : (s.ivRead off n).length = n := by simp [State.ivRead]

@[simp] theorem bufRead_length (s : State) (off n : Nat) : (s.bufRead off n).length = n := by simp [State.bufRead]

@[simp] theorem bufRead_getElem (s : State) (off n i : Nat) (h : i < (s.bufRead off n).length) :
    (s.bufRead off n)[i] = s.bufByte (off + i) := by simp [State.bufRead]

@[simp] theorem ivRead_getElem (s : State) (off n i : Nat) (h : i < (s.ivRead off n).length) :
    (s.ivRead off n)[i] = s.ivByte (off + i) := by simp [State.ivRead]

theorem bufByte_bufWrite_outside (s : State) (off a : Nat) (bs : List Byte) (h : a < off ∨ off + bs.length ≤ a) :
    (s.bufWrite off bs).bufByte a = s.bufByte a := by
  simp [State.bufByte, State.bufWrite, get?_putBytes_outside _ _ _ _ h]

theorem bufByte_bufWrite_inside (s : State) (off i : Nat) (bs : List Byte) (h : i < bs.length) :
    (s.bufWrite off bs).bufByte (off + i) = bs[i] := by
  simp [State.bufByte, State.bufWrite, get?_putBytes_inside _ _ _ _ h]

theorem ivByte_ivWrite_outside (s : State) (off a : Nat) (bs : List Byte) (h : a < off ∨ off + bs.length ≤ a) :
    (s.ivWrite off bs).ivByte a = s.ivByte a := by
  simp [State.ivByte, State.ivWrite, get?_putBytes_outside _ _ _ _ h]

theorem ivByte_ivWrite_inside (s : State) (off i : Nat) (bs : List Byte) (h : i < bs.length) :
    (s.ivWrite off bs).ivByte (off + i) = bs[i] := by
  simp [State.ivByte, State.ivWrite, get?_putBytes_inside _ _ _ _ h]

/-- Reading back the whole of what was written. -/
theorem bufRead_bufWrite_same (s : State) (off : Nat) (bs : List Byte) :
    (s.bufWrite off bs).bufRead off bs.length = bs := by
  refine List.ext_getElem (by simp) fun i h1 h2 => ?_
  rw [bufRead_getElem, bufByte_bufWrite_inside _ _ _ _ h2]

/-- A read that does not meet the written bytes. -/
theorem bufRead_bufWrite_outside (s : State) (off off' n : Nat) (bs : List Byte)
    (h : off' + n ≤ off ∨ off + bs.length ≤ off') : (s.bufWrite off bs).bufRead off' n = s.bufRead off' n := by
  refine List.ext_getElem (by simp) fun i h1 h2 => ?_
  simp only [bufRead_length] at h1
  rw [bufRead_getElem, bufRead_getElem, bufByte_bufWrite_outside _ _ _ _ (by omega)]

theorem lanesOfWord_length (d : Word) : (lanesOfWord d).length = 4 := rfl

end Sys2Proof.Machine
end

