-- ==== Sys2Proof/Laws/Words.lean ====
section
/-! SUPPORT. The laws of words, blocks and byte strings. -/

namespace Sys2Proof.Machine

/-! ### Bits of a block built from words, of a word of a block, and of a rotation -/

theorem getLsbD_blockOfWords (a b c d : Word) (i : Nat) :
    (blockOfWords a b c d).getLsbD i =
      if i < 32 then d.getLsbD i else if i < 64 then c.getLsbD (i - 32)
      else if i < 96 then b.getLsbD (i - 64) else a.getLsbD (i - 96) := by
  show BitVec.getLsbD (w := 32 + 32 + 32 + 32) (a ++ b ++ c ++ d) i = _
  simp only [BitVec.getLsbD_append]
  grind

theorem getLsbD_blockWord (v : Block) (k i : Nat) :
    (blockWord v k).getLsbD i = (decide (i < 32) && v.getLsbD (96 - 32 * k + i)) := by
  simp [blockWord, BitVec.getLsbD_extractLsb']

theorem getLsbD_blockByte (v : Block) (j i : Nat) :
    (blockByte v j).getLsbD i = (decide (i < 8) && v.getLsbD (8 * (15 - j) + i)) := by
  simp [blockByte, BitVec.getLsbD_extractLsb']

theorem getLsbD_wordOfLanes (b0 b1 b2 b3 : Byte) (i : Nat) :
    (wordOfLanes b0 b1 b2 b3).getLsbD i =
      if i < 8 then b0.getLsbD i else if i < 16 then b1.getLsbD (i - 8)
      else if i < 24 then b2.getLsbD (i - 16) else b3.getLsbD (i - 24) := by
  show BitVec.getLsbD (w := 8 + 8 + 8 + 8) (b3 ++ b2 ++ b1 ++ b0) i = _
  simp only [BitVec.getLsbD_append]
  grind

theorem getLsbD_tau (x : Word) (i : Nat) :
    (tau x).getLsbD i =
      if i < 8 then (sbox (x.extractLsb' 0 8)).getLsbD i else if i < 16 then (sbox (x.extractLsb' 8 8)).getLsbD (i - 8)
      else if i < 24 then (sbox (x.extractLsb' 16 8)).getLsbD (i - 16)
      else (sbox (x.extractLsb' 24 8)).getLsbD (i - 24) := by
  show BitVec.getLsbD (w := 8 + 8 + 8 + 8)
    (sbox (x.extractLsb' 24 8) ++ sbox (x.extractLsb' 16 8) ++ sbox (x.extractLsb' 8 8) ++ sbox (x.extractLsb' 0 8)) i = _
  simp only [BitVec.getLsbD_append]
  grind

/-- The rotation of R10 is the library's. -/
theorem rotl32_eq_rotateLeft (x : Word) (n : Nat) (h : n < 32) : rotl32 x n = x.rotateLeft n := by
  rw [rotl32, BitVec.rotateLeft_def, Nat.mod_eq_of_lt h]

/-! ### Words of a block -/

@[simp] theorem blockWord_ofWords_zero (a b c d : Word) : blockWord (blockOfWords a b c d) 0 = a := by
  refine BitVec.eq_of_getLsbD_eq fun i hi => ?_
  simp only [getLsbD_blockWord, getLsbD_blockOfWords]; grind

@[simp] theorem blockWord_ofWords_one (a b c d : Word) : blockWord (blockOfWords a b c d) 1 = b := by
  refine BitVec.eq_of_getLsbD_eq fun i hi => ?_
  simp only [getLsbD_blockWord, getLsbD_blockOfWords]; grind

@[simp] theorem blockWord_ofWords_two (a b c d : Word) : blockWord (blockOfWords a b c d) 2 = c := by
  refine BitVec.eq_of_getLsbD_eq fun i hi => ?_
  simp only [getLsbD_blockWord, getLsbD_blockOfWords]; grind

@[simp] theorem blockWord_ofWords_three (a b c d : Word) : blockWord (blockOfWords a b c d) 3 = d := by
  refine BitVec.eq_of_getLsbD_eq fun i hi => ?_
  simp only [getLsbD_blockWord, getLsbD_blockOfWords]; grind

/-- A block is its four words. -/
theorem blockOfWords_blockWord (v : Block) :
    blockOfWords (blockWord v 0) (blockWord v 1) (blockWord v 2) (blockWord v 3) = v := by
  refine BitVec.eq_of_getLsbD_eq fun i hi => ?_
  simp only [getLsbD_blockWord, getLsbD_blockOfWords]; grind

/-- Writing word `k` of a block changes that word. -/
theorem blockWord_setWord_self (v : Block) (k : Fin 4) (w : Word) : blockWord (blockSetWord v k w) k = w := by
  obtain ⟨k, hk⟩ := k
  have : k = 0 ∨ k = 1 ∨ k = 2 ∨ k = 3 := by omega
  obtain rfl | rfl | rfl | rfl := this <;> simp [blockSetWord]

/-- And leaves the other words as they are. -/
theorem blockWord_setWord_ne (v : Block) (k j : Fin 4) (w : Word) (h : j ≠ k) :
    blockWord (blockSetWord v k w) j = blockWord v j := by
  have : j = 0 ∨ j = 1 ∨ j = 2 ∨ j = 3 := by omega
  obtain rfl | rfl | rfl | rfl := this <;> simp [blockSetWord] <;> exact fun e => absurd e.symm h

theorem blockWord_mapWords (f : Word → Word) (v : Block) (k : Nat) (hk : k < 4) :
    blockWord (blockMapWords f v) k = f (blockWord v k) := by
  have : k = 0 ∨ k = 1 ∨ k = 2 ∨ k = 3 := by omega
  obtain rfl | rfl | rfl | rfl := this <;> simp [blockMapWords]

/-! ### Lanes -/

/-- The four lanes of a word make the word. -/
theorem wordOfLanes_lanes (d : Word) :
    wordOfLanes (d.extractLsb' 0 8) (d.extractLsb' 8 8) (d.extractLsb' 16 8) (d.extractLsb' 24 8) = d := by
  refine BitVec.eq_of_getLsbD_eq fun i hi => ?_
  simp only [getLsbD_wordOfLanes, BitVec.getLsbD_extractLsb']; grind

/-! ### Byte strings -/

@[simp] theorem int2blk_length (v : Block) : (int2blk v).length = 16 := rfl

@[simp] theorem zeros_length (n : Nat) : (zeros n).length = n := by simp [zeros]

@[simp] theorem beBytes_length (n v : Nat) : (beBytes n v).length = n := by simp [beBytes]

theorem le_roundup16 (n : Nat) : n ≤ roundup16 n := by unfold roundup16; omega

theorem roundup16_mod (n : Nat) : roundup16 n % 16 = 0 := by unfold roundup16; omega

theorem pad16_length (bs : List Byte) : (pad16 bs).length = roundup16 bs.length := by
  have := le_roundup16 bs.length
  simp [pad16]; omega

/-- A string whose length is a multiple of 16 is not padded. -/
theorem pad16_eq_self {bs : List Byte} (h : bs.length % 16 = 0) : pad16 bs = bs := by
  have : roundup16 bs.length - bs.length = 0 := by unfold roundup16; omega
  simp [pad16, this, zeros]

theorem xorBytes_length (as bs : List Byte) : (xorBytes as bs).length = min as.length bs.length := by
  simp [xorBytes]

/-- XOR with the same string, as long at least, is its own inverse. -/
theorem xorBytes_xorBytes (as ks : List Byte) (h : as.length ≤ ks.length) : xorBytes (xorBytes as ks) ks = as := by
  refine List.ext_getElem (by simp [xorBytes]; omega) fun i h1 h2 => ?_
  simp [xorBytes]

end Sys2Proof.Machine
end

