-- ==== Sys2Proof/Laws/Commands.lean ====
section
/-! SUPPORT. What the end of a command, the checks before it and the parts of the GCM commands can do. -/

namespace Sys2Proof.Machine

/-! ### The end of a command and the checks -/

theorem complete_next {s t : State} : complete s = .next t ↔ t = s.finish .ok := by
  simp [complete, eq_comm]

theorem raiseError_next {c : ErrCode} {s t : State} : raiseError c s = .next t ↔ t = s.finish c := by
  simp [raiseError, eq_comm]

/-- The context check: the command goes on with a context, else NO_KEY. -/
theorem withContext_next {s t : State} {go : State → Host.Outcome State Fault Refusal} :
    withContext s go = .next t ↔
      (s.keyValid = true ∧ go s = .next t) ∨ (s.keyValid = false ∧ t = s.finish .noKey) := by
  unfold withContext
  cases hk : s.keyValid <;> simp [raiseError_next]

@[simp] theorem clearGs_lengthsOk (s : State) : s.clearGs.lengthsOk = s.lengthsOk := rfl

/-- The length checks in numbers (R285). -/
theorem lengthsOk_iff (s : State) :
    s.lengthsOk = true ↔ 1 ≤ s.ivLen.toNat ∧ s.ivLen.toNat ≤ 256 ∧
      16 * ((s.aadLen.toNat + 15) / 16) + s.textLen.toNat ≤ s.params.bufBytes := by
  have h : s.textBase = 16 * ((s.aadLen.toNat + 15) / 16) := Nat.mul_comm _ _
  simp only [State.lengthsOk, Bool.and_eq_true, decide_eq_true_eq, and_assoc]
  rw [h]
  rfl

/-- The checks of the GCM commands: with a context and good lengths the command goes on, else NO_KEY or
BAD_LENGTH. -/
theorem withGcmChecks_next {s t : State} {go : State → Host.Outcome State Fault Refusal} :
    withGcmChecks s go = .next t ↔
      (s.keyValid = true ∧ s.lengthsOk = true ∧ go s.clearGs = .next t) ∨
      (s.keyValid = false ∧ t = s.clearGs.finish .noKey) ∨
      (s.keyValid = true ∧ s.lengthsOk = false ∧ t = s.clearGs.finish .badLength) := by
  unfold withGcmChecks
  rw [withContext_next]
  cases hk : s.keyValid <;> cases hl : s.lengthsOk <;> simp [hk, hl, raiseError_next]

/-! ### Byte reads of states that share their memories -/

theorem bufByte_congr {s t : State} (hb : t.buf = s.buf) (he : t.epoch = s.epoch) (a : Nat) :
    t.bufByte a = s.bufByte a := by simp [State.bufByte, hb, he]

theorem ivByte_congr {s t : State} (hb : t.ivmem = s.ivmem) (he : t.epoch = s.epoch) (a : Nat) :
    t.ivByte a = s.ivByte a := by simp [State.ivByte, hb, he]

@[simp] theorem finish_bufByte (c : ErrCode) (s : State) (a : Nat) : (s.finish c).bufByte a = s.bufByte a := rfl

@[simp] theorem finish_ivByte (c : ErrCode) (s : State) (a : Nat) : (s.finish c).ivByte a = s.ivByte a := rfl

@[simp] theorem clearGs_bufByte (s : State) (a : Nat) : s.clearGs.bufByte a = s.bufByte a := rfl

@[simp] theorem clearGs_ivByte (s : State) (a : Nat) : s.clearGs.ivByte a = s.ivByte a := rfl

/-! ### Counter mode -/

/-- The chunks of a text are as long as the text. -/
theorem ctrChunks_length (rk : Vector Word 32) (n : Nat) :
    ∀ (c : Block) (bs : List Byte), bs.length ≤ 16 * n → (ctrChunks rk n c bs).length = bs.length := by
  induction n with
  | zero => intro c bs h; simp_all [ctrChunks]
  | succ n ih =>
    intro c bs h
    rw [ctrChunks, List.length_append, xorBytes_length, ih _ _ (by simp; omega)]
    simp; omega

theorem ctrText_length (rk : Vector Word 32) (j0 : Block) (bs : List Byte) :
    (ctrText rk j0 bs).length = bs.length :=
  ctrChunks_length _ _ _ _ (by unfold chunkCount; omega)

/-- Counter mode undoes itself. -/
theorem ctrChunks_ctrChunks (rk : Vector Word 32) (n : Nat) :
    ∀ (c : Block) (bs : List Byte), bs.length ≤ 16 * n → ctrChunks rk n c (ctrChunks rk n c bs) = bs := by
  induction n with
  | zero => intro c bs h; simp_all [ctrChunks]
  | succ n ih =>
    intro c bs h
    rw [ctrChunks, ctrChunks]
    by_cases hs : bs.length ≤ 16
    · have hd : bs.drop 16 = [] := List.drop_eq_nil_of_le hs
      have hnil : ∀ m c', ctrChunks rk m c' [] = [] := fun m c' =>
        List.eq_nil_of_length_eq_zero (ctrChunks_length rk m c' [] (by simp))
      rw [hd, hnil, List.append_nil, List.take_of_length_le (by simp [xorBytes_length]),
        List.take_of_length_le hs, List.drop_eq_nil_of_le (by simp [xorBytes_length]), hnil, List.append_nil,
        xorBytes_xorBytes _ _ (by simpa using hs)]
    · have hl : (xorBytes (bs.take 16) (int2blk (encryptWith rk c))).length = 16 := by
        simp [xorBytes_length]; omega
      rw [List.take_append_of_le_length (by omega), List.take_of_length_le (by omega), List.drop_append_of_le_length (by omega),
        List.drop_eq_nil_of_le (by omega), List.nil_append, ih _ _ (by simp; omega), xorBytes_xorBytes _ _ (by simp),
        List.take_append_drop]

theorem ctrText_ctrText (rk : Vector Word 32) (j0 : Block) (bs : List Byte) :
    ctrText rk j0 (ctrText rk j0 bs) = bs := by
  unfold ctrText
  rw [ctrChunks_length _ _ _ _ (by unfold chunkCount; omega)]
  exact ctrChunks_ctrChunks _ _ _ _ (by unfold chunkCount; omega)

/-- Byte `k` of a text in counter mode: XORed with byte `k mod 16` of the keystream block of chunk `k / 16`. -/
theorem ctrChunks_getElem? (rk : Vector Word 32) (n : Nat) :
    ∀ (c : Block) (bs : List Byte) (k : Nat), bs.length ≤ 16 * n →
      (ctrChunks rk n c bs)[k]? = bs[k]?.map (· ^^^ blockByte (encryptWith rk (inc32^[k / 16] c)) (k % 16)) := by
  induction n with
  | zero => intro c bs k h; simp_all [ctrChunks]
  | succ n ih =>
    intro c bs k h
    have hl : (xorBytes (bs.take 16) (int2blk (encryptWith rk c))).length = min 16 bs.length := by
      simp [xorBytes_length]
    rw [ctrChunks, List.getElem?_append]
    by_cases hk : k < min 16 bs.length
    · rw [if_pos (by omega)]
      have h0 : k / 16 = 0 := by omega
      have h1 : k % 16 = k := by omega
      have h2 : k < 16 := by omega
      rw [h0, h1]
      simp [xorBytes, int2blk, List.getElem?_zipWith, h2]
      cases bs[k]? <;> rfl
    · rw [if_neg (by omega), hl]
      by_cases hb : bs.length ≤ k
      · have hd : (bs.drop 16).length ≤ k - min 16 bs.length := by rw [List.length_drop]; omega
        have e := ih (inc32 c) (bs.drop 16) (k - min 16 bs.length) (by simp; omega)
        rw [List.getElem?_eq_none hd] at e
        rw [List.getElem?_eq_none (l := bs) hb, e]
        simp only [Option.map_none]
      · have h3 : k / 16 = (k - 16) / 16 + 1 := by omega
        have h4 : k % 16 = (k - 16) % 16 := by omega
        rw [show min 16 bs.length = 16 by omega, ih _ _ _ (by simp; omega), h3, h4, Function.iterate_succ_apply,
          List.getElem?_drop, show 16 + (k - 16) = k by omega]

theorem ctrText_getElem? (rk : Vector Word 32) (j0 : Block) (bs : List Byte) (k : Nat) :
    (ctrText rk j0 bs)[k]? = bs[k]?.map (· ^^^ blockByte (encryptWith rk (inc32^[k / 16 + 1] j0)) (k % 16)) := by
  rw [Function.iterate_succ_apply]
  exact ctrChunks_getElem? _ _ _ _ _ (by unfold chunkCount; omega)

/-! ### Reading the operands after the text has been replaced -/

/-- A text written where the text stands is what the next command reads as its text. -/
theorem textOperand_bufWrite (s : State) (c : List Byte) (h : c.length = s.textBytes) :
    (s.bufWrite s.textBase c).textOperand = c := by
  show (s.bufWrite s.textBase c).bufRead s.textBase s.textBytes = c
  rw [← h, bufRead_bufWrite_same]

/-- Replacing the text leaves the AAD alone: the AAD ends at or before the text's base. -/
theorem aadOperand_bufWrite (s : State) (c : List Byte) :
    (s.bufWrite s.textBase c).aadOperand = s.aadOperand := by
  have := le_roundup16 s.aadBytes
  show (s.bufWrite s.textBase c).bufRead 0 s.aadBytes = s.bufRead 0 s.aadBytes
  exact bufRead_bufWrite_outside _ _ _ _ _ (.inl (by simp only [State.textBase]; omega))

end Sys2Proof.Machine
end

