-- ==== Sys2Proof/Laws/Bus.lean ====
section
/-! SUPPORT. What a bus transaction and the host's turn can do. -/

namespace Sys2Proof.Machine

/-! ### Where an offset leads -/

/-- The registers are none of the memories, and are neither misaligned. -/
theorem locateRegister_cases (n : Nat) :
    (∀ a, locateRegister n ≠ .ivmem a) ∧ (∀ a, locateRegister n ≠ .buf a) ∧ locateRegister n ≠ .misaligned := by
  refine ⟨fun a h => ?_, fun a h => ?_, fun h => ?_⟩
  all_goals
    unfold locateRegister at h
    repeat' split at h
    all_goals cases h

/-- An offset that leads into IVMEM names a whole word of it. -/
theorem locate_ivmem {p : Params} {off : Offset} {a : Nat} (h : locate p off = .ivmem a) :
    off.toNat = 0x1000 + a ∧ a + 4 ≤ 256 ∧ a % 4 = 0 := by
  unfold locate at h
  dsimp only at h
  split at h
  · cases h
  split at h
  · exact absurd h ((locateRegister_cases _).1 a)
  split at h
  · cases h
  split at h
  · injection h; omega
  split at h
  · cases h
  split at h <;> cases h

/-- An offset that leads into BUF names a byte of it. -/
theorem locate_buf {p : Params} {off : Offset} {a : Nat} (h : locate p off = .buf a) :
    off.toNat = 0x8000 + a ∧ a < p.bufBytes ∧ a % 4 = 0 := by
  unfold locate at h
  dsimp only at h
  split at h
  · cases h
  split at h
  · exact absurd h ((locateRegister_cases _).2.1 a)
  split at h
  · cases h
  split at h
  · cases h
  split at h
  · cases h
  split at h
  · injection h; omega
  · cases h

/-- With a legal BUF_BYTES the whole word is in BUF. -/
theorem locate_buf_word {p : Params} (hp : p.legal = true) {off : Offset} {a : Nat} (h : locate p off = .buf a) :
    a + 4 ≤ p.bufBytes := by
  obtain ⟨-, h1, h2⟩ := locate_buf h
  simp only [Params.legal, Params.bufBytesLegal, Bool.and_eq_true, beq_iff_eq, decide_eq_true_eq] at hp
  omega

/-! ### The map in numbers -/

/-- The registers, finitely many: which of them refuse writes, which are always writable, which do not exist. -/
theorem locateRegister_table : ∀ m, m < 96 →
    (locateRegister (4 * m)).refusesWrites =
      decide ((0x024 ≤ 4 * m ∧ 4 * m < 0x040) ∨ (0x0C0 ≤ 4 * m ∧ 4 * m < 0x100) ∨ 4 * m = 0x000 ∨ 4 * m = 0x004 ∨
        4 * m = 0x014 ∨ (0x070 ≤ 4 * m ∧ 4 * m < 0x080) ∨ (0x100 ≤ 4 * m ∧ 4 * m < 0x180)) ∧
    (locateRegister (4 * m)).alwaysWritable = decide (4 * m = 0x008 ∨ 4 * m = 0x00C) ∧
    ((locateRegister (4 * m)).readResp = .slverr ↔ (0x024 ≤ 4 * m ∧ 4 * m < 0x040) ∨ (0x0C0 ≤ 4 * m ∧ 4 * m < 0x100)) := by
  decide

/-- The writes that are always refused: misaligned, reserved, read-only (R82, R86). -/
theorem refusesWrites_iff (p : Params) (off : Offset) :
    (locate p off).refusesWrites = true ↔
      off.toNat % 4 ≠ 0 ∨
      ((0x024 ≤ off.toNat ∧ off.toNat < 0x040) ∨ (0x0C0 ≤ off.toNat ∧ off.toNat < 0x100) ∨
        (0x180 ≤ off.toNat ∧ off.toNat < 0x1000) ∨ (0x1100 ≤ off.toNat ∧ off.toNat < 0x8000) ∨
        0x8000 + p.bufBytes ≤ off.toNat) ∨
      (off.toNat = 0x000 ∨ off.toNat = 0x004 ∨ off.toNat = 0x014 ∨ (0x070 ≤ off.toNat ∧ off.toNat < 0x080) ∨
        (0x100 ≤ off.toNat ∧ off.toNat < 0x180)) := by
  have hlt := off.isLt
  unfold locate
  dsimp only
  split
  · next h => simp [Loc.refusesWrites, h]
  split
  · next h4 h =>
    obtain ⟨m, hm⟩ : ∃ m, off.toNat = 4 * m := ⟨off.toNat / 4, by omega⟩
    simp only [hm] at h ⊢
    rw [(locateRegister_table m (by omega)).1, decide_eq_true_eq]
    omega
  repeat' split
  all_goals
    simp [Loc.refusesWrites]
    omega

/-- The locations that are writable in every control state: CTRL and STATUS (R89). -/
theorem alwaysWritable_iff (p : Params) (off : Offset) :
    (locate p off).alwaysWritable = true ↔ off.toNat = 0x008 ∨ off.toNat = 0x00C := by
  have hlt := off.isLt
  unfold locate
  dsimp only
  split
  · next h => simp [Loc.alwaysWritable]; omega
  split
  · next h4 h =>
    obtain ⟨m, hm⟩ : ∃ m, off.toNat = 4 * m := ⟨off.toNat / 4, by omega⟩
    simp only [hm] at h ⊢
    rw [(locateRegister_table m (by omega)).2.1, decide_eq_true_eq]
  repeat' split
  all_goals
    simp [Loc.alwaysWritable]
    omega

/-- The reads that answer SLVERR: misaligned and reserved (R82, R86). -/
theorem readResp_iff (p : Params) (off : Offset) :
    (locate p off).readResp = .slverr ↔
      off.toNat % 4 ≠ 0 ∨
      ((0x024 ≤ off.toNat ∧ off.toNat < 0x040) ∨ (0x0C0 ≤ off.toNat ∧ off.toNat < 0x100) ∨
        (0x180 ≤ off.toNat ∧ off.toNat < 0x1000) ∨ (0x1100 ≤ off.toNat ∧ off.toNat < 0x8000) ∨
        0x8000 + p.bufBytes ≤ off.toNat) := by
  have hlt := off.isLt
  unfold locate
  dsimp only
  split
  · next h => simp [Loc.readResp, h]
  split
  · next h4 h =>
    obtain ⟨m, hm⟩ : ∃ m, off.toNat = 4 * m := ⟨off.toNat / 4, by omega⟩
    simp only [hm] at h ⊢
    rw [(locateRegister_table m (by omega)).2.2]
    omega
  repeat' split
  all_goals
    simp [Loc.readResp]
    omega

/-- The locations without a value are the two that answer SLVERR. -/
theorem eq_of_readResp_slverr {l : Loc} (h : l.readResp = .slverr) : l = .misaligned ∨ l = .reserved := by
  cases l <;> simp_all [Loc.readResp]

/-- Below 0x024 each register has its one offset. -/
theorem locate_register {p : Params} {off : Offset} {l : Loc}
    (hl : l = .ctrl ∨ l = .status ∨ l = .cmd) (h : locate p off = l) :
    (l = .ctrl → off = 0x008) ∧ (l = .status → off = 0x00C) ∧ (l = .cmd → off = 0x010) := by
  unfold locate at h
  dsimp only at h
  split at h
  · subst h; simp at hl
  split at h
  · unfold locateRegister at h
    repeat' split at h
    all_goals
      subst h
      first
        | (simp at hl; done)
        | (refine ⟨fun h => ?_, fun h => ?_, fun h => ?_⟩ <;>
            first | (cases h; done) | exact BitVec.eq_of_toNat_eq (by assumption))
  repeat' split at h
  all_goals
    subst h
    simp at hl

/-! ### Reads -/

/-- A read answers data with a response and may count a draw; nothing else changes (R91). -/
theorem busRead_frame (s : State) (off : Offset) :
    ∃ d r n, s.busRead off = { s with resp := some (.read d r), drawCount := n } := by
  unfold State.busRead
  dsimp only
  split
  · exact ⟨_, _, _, rfl⟩
  · exact ⟨_, _, s.drawCount, rfl⟩

/-- The data of a read goes to the end of what the host has read. -/
theorem recordRead_read {s : State} {d : Word} {r : Resp} (h : s.resp = some (.read d r)) :
    s.recordRead = { s with reads := s.reads ++ [d] } := by
  simp [State.recordRead, h, BusResult.readData]

/-! ### Writes -/

/-- The three outcomes of a write (R325): refused, rejected because the engine is not IDLE, or performed. -/
theorem busWrite_cases (s : State) (off : Offset) (d : Word) :
    ((locate s.params off).refusesWrites = true ∧ s.busWrite off d = { s with resp := some (.write .slverr) }) ∨
    ((locate s.params off).refusesWrites = false ∧ s.ctl ≠ .idle ∧ (locate s.params off).alwaysWritable = false ∧
      s.busWrite off d = { s with werr := true, resp := some (.write .slverr) }) ∨
    ((locate s.params off).refusesWrites = false ∧ (s.ctl = .idle ∨ (locate s.params off).alwaysWritable = true) ∧
      s.busWrite off d = { s.store (locate s.params off) d with resp := some (.write .okay) }) := by
  unfold State.busWrite
  dsimp only
  split
  · next h => exact .inl ⟨h, rfl⟩
  · next h =>
    split
    · next h' => exact .inr (.inl ⟨by simpa using h, h'.1, h'.2, rfl⟩)
    · next h' =>
      refine .inr (.inr ⟨by simpa using h, ?_, rfl⟩)
      by_cases hc : s.ctl = .idle
      · exact .inl hc
      · exact .inr (by simpa [hc] using h')

theorem busWrite_refused {s : State} {off : Offset} (d : Word) (h : (locate s.params off).refusesWrites = true) :
    s.busWrite off d = { s with resp := some (.write .slverr) } := by
  obtain ⟨-, e⟩ | ⟨h', -⟩ | ⟨h', -⟩ := busWrite_cases s off d
  · exact e
  · simp [h] at h'
  · simp [h] at h'

theorem busWrite_rejected {s : State} {off : Offset} (d : Word) (h : (locate s.params off).refusesWrites = false)
    (hc : s.ctl ≠ .idle) (ha : (locate s.params off).alwaysWritable = false) :
    s.busWrite off d = { s with werr := true, resp := some (.write .slverr) } := by
  obtain ⟨h', -⟩ | ⟨-, -, -, e⟩ | ⟨-, h', -⟩ := busWrite_cases s off d
  · simp [h] at h'
  · exact e
  · simp [hc, ha] at h'

theorem busWrite_performed {s : State} {off : Offset} (d : Word) (h : (locate s.params off).refusesWrites = false)
    (hc : s.ctl = .idle ∨ (locate s.params off).alwaysWritable = true) :
    s.busWrite off d = { s.store (locate s.params off) d with resp := some (.write .okay) } := by
  obtain ⟨h', -⟩ | ⟨-, h1, h2, -⟩ | ⟨-, -, e⟩ := busWrite_cases s off d
  · simp [h] at h'
  · simp [h1, h2] at hc
  · exact e

/-- A read outside BUSY, or of a location no running command writes, answers the current value. -/
theorem busRead_live {s : State} {off : Offset} (h : s.busyRead (locate s.params off) = none) :
    s.busRead off =
      { s with resp := some (.read (s.valueAt (locate s.params off)) (locate s.params off).readResp) } := by
  unfold State.busRead
  dsimp only
  rw [h]

theorem busRead_draw {s : State} {off : Offset} {d : Word} (h : s.busyRead (locate s.params off) = some d) :
    s.busRead off = { s with resp := some (.read d .okay), drawCount := s.drawCount + 1 } := by
  unfold State.busRead
  dsimp only
  rw [h]

theorem busyRead_of_not_busy {s : State} (h : s.ctl ≠ .busy) (l : Loc) : s.busyRead l = none := by
  simp [State.busyRead, State.running, h]

/-! ### The host's turn -/

/-- What the host's turn can do: nothing, a write, a read whose data is kept, or a POLL's read, after which the line is
used up exactly when the value shows. -/
theorem hostTurn_cases (s : State) :
    ((s.program = [] ∨ s.resetAsserted = true) ∧ s.hostTurn = s) ∨
    (s.resetAsserted = false ∧ ∃ off d rest, s.program = .wr off d :: rest ∧
      s.hostTurn = { s.busWrite off d with program := rest }) ∨
    (s.resetAsserted = false ∧ ∃ off rest, s.program = .rd off :: rest ∧
      s.hostTurn = { (s.busRead off).recordRead with program := rest }) ∨
    (s.resetAsserted = false ∧ ∃ off mask value rest, s.program = .poll off mask value :: rest ∧
      s.hostTurn = { s.busRead off with
        program := if (s.busRead off).pollDone mask value then rest else s.program }) := by
  unfold State.hostTurn
  split
  · next h => exact .inl ⟨.inl h, rfl⟩
  · next op rest h =>
    split
    · next hr => exact .inl ⟨.inr hr, rfl⟩
    · next hr =>
      have hr' : s.resetAsserted = false := by simpa using hr
      cases op with
      | wr off d => exact .inr (.inl ⟨hr', off, d, rest, h, rfl⟩)
      | rd off => exact .inr (.inr (.inl ⟨hr', off, rest, h, rfl⟩))
      | poll off m v =>
        refine .inr (.inr (.inr ⟨hr', off, m, v, rest, h, ?_⟩))
        obtain ⟨d, r, n, hf⟩ := busRead_frame s off
        dsimp only
        split
        · rfl
        · rw [hf]

/-! ### What the reading abbreviations give -/

/-- The words read last. -/
theorem lastReads_of_append {s : State} {ws ds : List Word} (h : s.reads = ws ++ ds) : s.lastReads ds.length = ds := by
  simp [State.lastReads, h]

/-- The bytes of a list of words: byte `k` is lane `k mod 4` of word `k / 4`. -/
theorem flatMap_lanes_getElem? (ds : List Word) :
    ∀ k, (ds.flatMap lanesOfWord)[k]? = ds[k / 4]?.map fun d => d.extractLsb' (8 * (k % 4)) 8 := by
  induction ds with
  | nil => simp
  | cons d ds ih =>
    intro k
    rw [List.flatMap_cons, List.getElem?_append, lanesOfWord_length]
    by_cases hk : k < 4
    · have : k = 0 ∨ k = 1 ∨ k = 2 ∨ k = 3 := by omega
      obtain rfl | rfl | rfl | rfl := this <;> simp [lanesOfWord]
    · rw [if_neg hk, ih, show k / 4 = (k - 4) / 4 + 1 by omega, List.getElem?_cons_succ,
        show (k - 4) % 4 = k % 4 by omega]

/-- `RDMEM` keeps as many bytes as it was asked for. -/
theorem rdmemBytes_length {n : Nat} {ds : List Word} (h : ds.length = (n + 3) / 4) :
    (rdmemBytes n ds).length = n := by
  have : (ds.flatMap lanesOfWord).length = 4 * ds.length := by
    simp [List.length_flatMap, lanesOfWord_length, Nat.mul_comm]
  simp only [rdmemBytes, List.length_take]
  omega

end Sys2Proof.Machine
end

