-- ==== Sys2Proof/Laws/PerInstr.lean ====
section
/-! SUPPORT. The family `OpcodeField`: what the encoding of each command is made of (spec/30_encoding.md R120 to
R122), one lemma per constructor. -/

namespace Sys2Proof.Laws.OpcodeField

/-- The command is well formed; its word has a zero MBZ field and an assigned opcode, so it is legal (R121); and the
opcode map has a row for exactly this word and this command (R122). -/
def Statement (i : Instr) : Prop :=
  i.wellFormed = true ∧ (encode i).extractLsb' 8 24 = 0 ∧ (encode i).extractLsb' 0 8 = i.opcode ∧
    i.opcode ∈ CommandWord.assignedOpcodes ∧ CommandWord.legal (encode i) = true ∧
    opcodeTable.filter (fun r => r.matches (encode i)) = [⟨0xFFFFFFFF, encode i, i⟩]

theorem nop : Statement .nop := by unfold Statement; decide
theorem sub : Statement .sub := by unfold Statement; decide
theorem roundT : Statement .roundT := by unfold Statement; decide
theorem roundTp : Statement .roundTp := by unfold Statement; decide
theorem keyexp : Statement .keyexp := by unfold Statement; decide
theorem encBlock : Statement .encBlock := by unfold Statement; decide
theorem decBlock : Statement .decBlock := by unfold Statement; decide
theorem gfmul : Statement .gfmul := by unfold Statement; decide
theorem ghashInit : Statement .ghashInit := by unfold Statement; decide
theorem ghashBlock : Statement .ghashBlock := by unfold Statement; decide
theorem ctrBlock : Statement .ctrBlock := by unfold Statement; decide
theorem gcmEncrypt : Statement .gcmEncrypt := by unfold Statement; decide
theorem gcmDecrypt : Statement .gcmDecrypt := by unfold Statement; decide

end Sys2Proof.Laws.OpcodeField
end

