-- ==== Sys2Proof/Laws/Step.lean ====
section
/-! SUPPORT. What a step can do: which agent moved, and for the engine which of its steps. -/

namespace Sys2Proof.Machine

/-! ### The meanings of the commands -/

/-- A command outside the GCM commands ends in one of two ways: without the context it needs, NO_KEY; else its
effect, under `finish`. The GCM commands have `withGcmChecks_next`. -/
theorem exec_shape (i : Instr) (s : State) :
    ∃ (u : State) (c : ErrCode), exec i s = .next (u.finish c) := by
  cases i <;>
    simp only [exec, execNop, execSub, execRoundT, execRoundTp, execKeyexp, execEncBlock, execDecBlock, execGfmul,
      execGhashInit, execGhashBlock, execCtrBlock, execGcmEncrypt, execGcmDecrypt, withGcmChecks, withContext,
      complete, raiseError]
  all_goals repeat' split
  all_goals exact ⟨_, _, rfl⟩

/-- Every command completes: DONE is set and the engine is IDLE (R155). -/
theorem exec_completes (i : Instr) (s : State) :
    ∃ t, exec i s = .next t ∧ t.done = true ∧ t.ctl = .idle := by
  obtain ⟨u, c, h⟩ := exec_shape i s
  exact ⟨_, h, rfl, rfl⟩

/-! ### The engine's turn -/

/-- The engine's turn: nothing under reset or in IDLE, InitDone in INIT, in BUSY the running command or ILLEGAL_CMD. -/
theorem engineTurn_cases {s t : State} (h : engineTurn exec s = .next t) :
    ((s.resetAsserted = true ∨ s.ctl = .idle) ∧ t = s) ∨
    (s.resetAsserted = false ∧ s.ctl = .init ∧ t = s.initDone) ∨
    (s.resetAsserted = false ∧ s.ctl = .busy ∧ ∃ i, decode s.pend.word = .ok i ∧ exec i s = .next t) ∨
    (s.resetAsserted = false ∧ s.ctl = .busy ∧ (∃ e, decode s.pend.word = .error e) ∧ t = s.finish .illegalCmd) := by
  unfold engineTurn at h
  split at h
  · next hr => cases h; exact .inl ⟨.inl hr, rfl⟩
  · next hr =>
    have hr' : s.resetAsserted = false := by simpa using hr
    split at h
    · next hc => cases h; exact .inr (.inl ⟨hr', hc, rfl⟩)
    · next hc => cases h; exact .inl ⟨.inr hc, rfl⟩
    · next hc =>
      split at h
      · next i hi => exact .inr (.inr (.inl ⟨hr', hc, i, hi, h⟩))
      · next e he => cases h; exact .inr (.inr (.inr ⟨hr', hc, ⟨e, he⟩, rfl⟩))

/-! ### A step -/

/-- One step, by the agent whose turn it is. -/
theorem step_cases {s t : State} (h : step s = .next t) :
    (s.nextTurn = .host ∧ t = s.startTurn.hostTurn) ∨
    (s.nextTurn = .engine ∧ engineTurn exec s.startTurn = .next t) ∨
    (s.nextTurn = .assertReset ∧ t = s.startTurn.assertReset) ∨
    (s.nextTurn = .releaseReset ∧ t = s.startTurn.releaseReset) := by
  unfold step takeTurn at h
  split at h
  · next hn => cases h; exact .inl ⟨hn, rfl⟩
  · next hn => exact .inr (.inl ⟨hn, h⟩)
  · next hn => cases h; exact .inr (.inr (.inl ⟨hn, rfl⟩))
  · next hn => cases h; exact .inr (.inr (.inr ⟨hn, rfl⟩))

/-- A step by turn, read forwards. -/
theorem step_host {s : State} (h : s.nextTurn = .host) : step s = .next s.startTurn.hostTurn := by
  simp [step, takeTurn, h]

theorem step_engine {s : State} (h : s.nextTurn = .engine) : step s = engineTurn exec s.startTurn := by
  simp [step, takeTurn, h]

theorem step_assertReset {s : State} (h : s.nextTurn = .assertReset) : step s = .next s.startTurn.assertReset := by
  simp [step, takeTurn, h]

theorem step_releaseReset {s : State} (h : s.nextTurn = .releaseReset) :
    step s = .next s.startTurn.releaseReset := by
  simp [step, takeTurn, h]

/-- The host's turn when its next line is a write. -/
theorem step_write {s : State} {off : Offset} {d : Word} (hn : s.nextTurn = .host) (hr : s.resetAsserted = false)
    (hp : s.program.head? = some (.wr off d)) :
    step s = .next { s.startTurn.busWrite off d with program := s.program.tail } := by
  obtain ⟨rest, hp⟩ : ∃ rest, s.program = .wr off d :: rest := by
    cases hq : s.program <;> simp_all
  rw [step_host hn]
  simp [State.hostTurn, hp, hr]

/-- The host's turn when its next line is a read. -/
theorem step_read {s : State} {off : Offset} (hn : s.nextTurn = .host) (hr : s.resetAsserted = false)
    (hp : s.program.head? = some (.rd off)) :
    step s = .next { (s.startTurn.busRead off).recordRead with program := s.program.tail } := by
  obtain ⟨rest, hp⟩ : ∃ rest, s.program = .rd off :: rest := by
    cases hq : s.program <;> simp_all
  rw [step_host hn]
  simp [State.hostTurn, hp, hr]

/-- A RD line of a location no running command writes: its current value is answered and kept. -/
theorem step_read_live {s : State} {off : Offset} (hn : s.nextTurn = .host) (hr : s.resetAsserted = false)
    (hp : s.program.head? = some (.rd off)) (hb : s.startTurn.busyRead (locate s.params off) = none) :
    step s = .next { s.startTurn with
      resp := some (.read (s.valueAt (locate s.params off)) (locate s.params off).readResp)
      reads := s.reads ++ [s.valueAt (locate s.params off)], program := s.program.tail } := by
  have hv : s.startTurn.valueAt (locate s.params off) = s.valueAt (locate s.params off) := by
    cases locate s.params off <;> rfl
  rw [step_read hn hr hp, busRead_live hb, recordRead_read rfl]
  simp only [startTurn_params, startTurn_reads, hv]

/-- A RD line of a location the running command writes: a draw is answered and kept. -/
theorem step_read_draw {s : State} {off : Offset} {d : Word} (hn : s.nextTurn = .host) (hr : s.resetAsserted = false)
    (hp : s.program.head? = some (.rd off)) (hb : s.startTurn.busyRead (locate s.params off) = some d) :
    step s = .next { s.startTurn with
      resp := some (.read d .okay), drawCount := s.drawCount + 1, reads := s.reads ++ [d]
      program := s.program.tail } := by
  rw [step_read hn hr hp, busRead_draw hb, recordRead_read rfl]
  rfl

end Sys2Proof.Machine
end

