-- ==== Sys2Proof/Tests/Slice0.lean ====
section
/-! SUPPORT. Tests of single steps against the vectors of spec/95_test_vectors.md and the examples of the rules, and a
witness for the hypotheses of each statement. -/

namespace Sys2Proof.Tests

open Sys2Proof.Machine Sys2Proof.Statement

/-! ### Small states -/

/-- The reset state after InitDone. -/
def idle : State := { State.reset with ctl := .idle, tt := .built }

/-- The key, and the plaintext, of the known-answer test (S1). -/
def katBlock : Block := 0x0123456789abcdeffedcba9876543210

/-- The KAT context: IDLE, with the round keys of the KAT key. -/
def kat : State :=
  { idle with key := katBlock, rk := keyExpand katBlock, keyValid := true, activeBackend := .tableDriven }

/-- IDLE with the context of the all-zero key. -/
def zeroKey : State := { idle with rk := keyExpand 0, keyValid := true, activeBackend := .tableDriven }

/-- The state with one host line to run, and the host's turn next. -/
def hostDoes (op : HostOp) (s : State) : State := { s with turns := [.host], program := [op] }

/-- The state with the command `i` accepted, the engine's turn next. -/
def running (i : Instr) (s : State) : State := { s.accept (encode i) with turns := [.engine] }

/-- One field of the next state an outcome answers. -/
def nextField {α : Type} (f : State → α) : Host.Outcome State Fault Refusal → Option α
  | .next t => some (f t)
  | .fault _ => none
  | .refused _ => none

theorem next_of_field {α : Type} {o : Host.Outcome State Fault Refusal} (f : State → α) {x : α}
    (h : nextField f o = some x) : ∃ t, o = .next t ∧ f t = x := by
  cases o <;> simp_all [nextField]

/-- The state with bytes in IVMEM and BUF from address 0 on, and the three lengths. -/
def withText (s : State) (iv aadText : List Byte) (aadLen textLen : Word) : State :=
  { s with
    ivmem := Memory.putBytes [] 0 iv, buf := Memory.putBytes [] 0 aadText,
    ivLen := BitVec.ofNat 32 iv.length, aadLen := aadLen, textLen := textLen }

/-- IV bytes 00 01 02 ... 0b. -/
def iv12 : List Byte := (List.range 12).map (BitVec.ofNat 8)

/-- The text region as it stands in a state. -/
def text (s : State) : List Byte := s.textOperand

/-! ### Well-formedness: each check refuses an ill-formed term -/

theorem test_mbz_refuses_bit8 : CommandWord.mbzZero 0x00000105 = false ∧ CommandWord.legal 0x00000105 = false := by
  decide
theorem test_mbz_refuses_bit31 : CommandWord.legal 0x80000000 = false := by decide
theorem test_opcode_refuses_unassigned :
    CommandWord.opcodeAssigned 0x0000000B = false ∧ CommandWord.legal 0x0000000F = false ∧
    CommandWord.legal 0x00000012 = false ∧ CommandWord.legal 0x000000FF = false := by decide
theorem test_bufBytes_refuses :
    Params.legal ⟨8, false, 0⟩ = false ∧ Params.legal ⟨40, false, 0⟩ = false ∧ Params.legal ⟨32784, true, 0⟩ = false := by
  decide
theorem test_engineBase_refuses : Params.legal ⟨4096, false, 1⟩ = false := by decide
theorem test_legal_limits :
    Params.legal ⟨16, true, 0x10000⟩ = true ∧ Params.legal ⟨32768, false, 0⟩ = true ∧
    CommandWord.legal 0x0000000A = true ∧ CommandWord.legal 0x00000011 = true := by decide

/-! ### Decoding: the words of R122, bit by bit (R120: [31:8] zero, [7:0] the opcode) -/

theorem test_decode_nop : decode 0b00000000000000000000000000000000 = .ok .nop := by decide
theorem test_decode_sub : decode 0b00000000000000000000000000000001 = .ok .sub := by decide
theorem test_decode_roundT : decode 0b00000000000000000000000000000010 = .ok .roundT := by decide
theorem test_decode_roundTp : decode 0b00000000000000000000000000000011 = .ok .roundTp := by decide
theorem test_decode_keyexp : decode 0b00000000000000000000000000000100 = .ok .keyexp := by decide
theorem test_decode_encBlock : decode 0b00000000000000000000000000000101 = .ok .encBlock := by decide
theorem test_decode_decBlock : decode 0b00000000000000000000000000000110 = .ok .decBlock := by decide
theorem test_decode_gfmul : decode 0b00000000000000000000000000000111 = .ok .gfmul := by decide
theorem test_decode_ghashInit : decode 0b00000000000000000000000000001000 = .ok .ghashInit := by decide
theorem test_decode_ghashBlock : decode 0b00000000000000000000000000001001 = .ok .ghashBlock := by decide
theorem test_decode_ctrBlock : decode 0b00000000000000000000000000001010 = .ok .ctrBlock := by decide
theorem test_decode_gcmEncrypt : decode 0b00000000000000000000000000010000 = .ok .gcmEncrypt := by decide
theorem test_decode_gcmDecrypt : decode 0b00000000000000000000000000010001 = .ok .gcmDecrypt := by decide

/-- R124, V63: the two reasons a word is illegal. -/
theorem test_decode_illegal :
    decode 0x0000000B = .error .unassignedOpcode ∧ decode 0x00000012 = .error .unassignedOpcode ∧
    decode 0x000000FF = .error .unassignedOpcode ∧ decode 0x00000105 = .error .upperBitsNotZero ∧
    decode 0x80000000 = .error .upperBitsNotZero := by decide

theorem test_decodeTableWord :
    decodeTableWord 32 0x11 = some .gcmDecrypt ∧ decodeTableWord 8 0x05 = some .encBlock ∧
    decodeTableWord 32 0x105 = none ∧ decodeTableWord 32 0x100000005 = none := by decide

theorem test_encode : encode .ctrBlock = 0x0000000A ∧ encode .gcmEncrypt = 0x00000010 := by decide

/-- No two rows of the opcode map share a word. -/
theorem test_opcode_rows_disjoint :
    opcodeTable.Pairwise (fun r q => r.value &&& q.mask ≠ q.value) := by decide

/-! ### Substitution and round functions -/

/-- V1. -/
theorem test_sbox :
    sbox 0x00 = 0xd6 ∧ sbox 0x01 = 0x90 ∧ sbox 0x10 = 0x2b ∧ sbox 0x7f = 0x9e ∧ sbox 0x80 = 0xea ∧
    sbox 0xfe = 0x39 ∧ sbox 0xff = 0x48 := by decide
/-- V2, V3. -/
theorem test_tau_and_layers :
    tau 0x01234567 = 0x90f473a2 ∧ tau 0x00000001 = 0xd6d6d690 ∧ diffuse 0x01234567 = 0xfa26eb37 ∧
    diffuseKey 0x01234567 = 0xda0f34e1 ∧ diffuse 0x80000000 = 0x80820202 ∧ diffuseKey 0x80000000 = 0x80401000 := by decide
/-- V4. -/
theorem test_round_functions :
    roundT 0x80000000 = 0x9767abab ∧ roundT 0x00000001 = 0x1c424205 ∧ roundTp 0x80000000 = 0x5b7960e7 ∧
    roundTp 0x00000001 = 0x446fa721 := by decide
/-- V8. -/
theorem test_tableWord :
    tableWord 0 0x00 = 0x8ed55b5b ∧ tableWord 1 0x00 = 0x5b8ed55b ∧ tableWord 2 0x00 = 0x5b5b8ed5 ∧
    tableWord 3 0x00 = 0xd55b5b8e ∧ tableWord 0 0xff = 0x68492121 ∧ tableWord 3 0xff = 0x49212168 := by decide
/-- V8, the check. -/
theorem test_tableRoundT : idle.tableRoundT 0x00000000 = 0x5b5b5b5b := by decide

/-- V5. -/
theorem test_sub :
    nextField (·.res) (exec .sub { idle with opa := katBlock }) = some 0x90f473a2f7ab108439b86aad27711c2b := by decide
/-- V6. -/
theorem test_roundT :
    nextField (·.res) (exec .roundT { idle with opa := katBlock }) = some 0x6ef180c943a134f5397e2a74254e2cc2 := by decide
/-- V7. -/
theorem test_roundTp :
    nextField (·.res) (exec .roundTp { idle with opa := katBlock }) = some 0xcfc85b85d7c05bf9627111af1167c04b := by decide
/-- R160. -/
theorem test_nop : nextField (fun t => (t.done, t.err, t.ctl)) (exec .nop { idle with ctl := .busy, err := .noKey }) =
    some (true, .ok, .idle) := by decide

/-! ### Key schedule and block cipher -/

/-- V12. -/
theorem test_round_keys : (keyExpand katBlock).toList =
    [0xf12186f9, 0x41662b61, 0x5a6ab19a, 0x7ba92077, 0x367360f4, 0x776a0c61, 0xb6bb89b3, 0x24763151] ++
    [0xa520307c, 0xb7584dbd, 0xc30753ed, 0x7ee55b57, 0x6988608c, 0x30d895b7, 0x44ba14af, 0x104495a1] ++
    [0xd120b428, 0x73b55fa3, 0xcc874966, 0x92244439, 0xe89e641f, 0x98ca015a, 0xc7159060, 0x99e1fd2e] ++
    [0xb79bd80c, 0x1d2115b0, 0x0e228aeb, 0xf1780c81, 0x428d3654, 0x62293496, 0x01cf72e5, 0x9124a012] := by decide +kernel

/-- V11: BACKEND = 2 falls back to TableDriven without the primitive, and is kept with it. -/
theorem test_keyexp_backend :
    nextField (fun t => (t.activeBackend, t.keyValid)) (exec .keyexp (idle.accept 4)) = some (.tableDriven, true) ∧
    nextField (fun t => (t.activeBackend, t.keyValid))
      (exec .keyexp { idle.accept 4 with params := ⟨4096, true, 0⟩ }) = some (.hardwareAccelerated, true) := by
  decide +kernel
/-- V13: the first and last round key of the all-zero key. -/
theorem test_keyexp_zero_key :
    nextField (fun t => (t.rk[0], t.rk[31])) (exec .keyexp { kat with key := 0 }) = some (0x45603b23, 0xa16ca108) := by
  decide +kernel
/-- V20. -/
theorem test_encBlock :
    nextField (·.res) (exec .encBlock { kat with opa := katBlock }) = some 0x681edf34d206965e86b3e94f536e4246 := by
  decide +kernel
/-- V25. -/
theorem test_encBlock_no_key :
    nextField (fun t => (t.err, t.res)) (exec .encBlock { idle with opa := katBlock }) = some (.noKey, 0) := by decide
/-- V21. -/
theorem test_decBlock :
    nextField (·.res) (exec .decBlock { kat with opa := 0x681edf34d206965e86b3e94f536e4246 }) = some katBlock := by
  decide +kernel
/-- V23. -/
theorem test_decBlock_zero :
    nextField (·.res) (exec .decBlock kat) = some 0xf7d6b57ed4ba6ae1a630fac4505c98a0 := by decide +kernel

/-! ### GF(2^128) and GHASH -/

/-- V31. -/
theorem test_gfmul :
    nextField (·.res) (exec .gfmul { idle with
      opa := 0x66e94bd4ef8a2c3b884cfa59ca342b2e, opb := 0x0388dace60b6a392f328c2b971b2fe78 }) =
    some 0x5e2ec746917062882c85b0685353deb7 := by decide +kernel
/-- V30: the reduction. -/
theorem test_gfmul_reduction :
    gfmul 0x40000000000000000000000000000000 0x00000000000000000000000000000001 = 0xe1000000000000000000000000000000 ∧
    gfmul 1 1 = 0xe6080000000000000000000000000003 := by decide +kernel
/-- V34. -/
theorem test_ghash :
    ghash 0x66e94bd4ef8a2c3b884cfa59ca342b2e
      (int2blk 0x0388dace60b6a392f328c2b971b2fe78 ++ zeros 8 ++ beBytes 8 128) = 0xf38cbb1ad69223dcc3457ae5b6b0f885 := by
  decide +kernel
/-- V32. -/
theorem test_ghashInit :
    nextField (fun t => (t.h, t.y)) (exec .ghashInit { kat with y := 5 }) =
    some (0x2677f46b09c122cc975533105bd4a22a, 0) := by decide +kernel
/-- V25. -/
theorem test_ghashInit_no_key :
    nextField (fun t => (t.err, t.y)) (exec .ghashInit { idle with y := 5 }) = some (.noKey, 5) := by decide
/-- V33. -/
theorem test_ghashBlock :
    nextField (fun t => (t.y, t.res)) (exec .ghashBlock { idle with
      h := 0x2677f46b09c122cc975533105bd4a22a, opa := katBlock }) =
    some (0x6ded580461308b747cf146b29e828560, 0x6ded580461308b747cf146b29e828560) := by decide +kernel
/-- V33, the second block. -/
theorem test_ghashBlock_next :
    nextField (·.y) (exec .ghashBlock { idle with
      h := 0x2677f46b09c122cc975533105bd4a22a, y := 0x6ded580461308b747cf146b29e828560 }) =
    some 0x663228e4fae7e88909d1132d647884c9 := by decide +kernel

/-! ### Counter mode and GCM -/

/-- V40. -/
theorem test_inc32 :
    inc32 0x000102030405060708090a0bffffffff = 0x000102030405060708090a0b00000000 ∧
    inc32 0xffffffffffffffffffffffff7fffffff = 0xffffffffffffffffffffffff80000000 := by decide
/-- V41, both steps. -/
theorem test_ctrBlock :
    nextField (fun t => (t.res, t.ctr)) (exec .ctrBlock { kat with ctr := 0x000102030405060708090a0bffffffff }) =
    some (0x83c91f45987d37e3a18cec8c9ed04bb3, 0x000102030405060708090a0b00000000) := by decide +kernel
theorem test_ctrBlock_next :
    nextField (·.res) (exec .ctrBlock { kat with ctr := 0x000102030405060708090a0b00000000 }) =
    some 0xaee26fea46d7ac0a03c4f48560557e53 := by decide +kernel
/-- V53: the GHASH path of J0. -/
theorem test_j0_ghash_path :
    initialCounter 0x2677f46b09c122cc975533105bd4a22a ((List.range 16).map (BitVec.ofNat 8)) =
    0x7cd17631a32956cbd369ca9c9f38addf := by decide +kernel

/-- The inputs of V52 (RFC 8998 A.1) in place: AAD at 0, text at 32. -/
def g3 : State :=
  withText kat [0x00, 0x00, 0x12, 0x34, 0x56, 0x78, 0x00, 0x00, 0x00, 0x00, 0xab, 0xcd]
    (int2blk 0xfeedfacedeadbeeffeedfacedeadbeef ++ [0xab, 0xad, 0xda, 0xd2] ++ zeros 12 ++
      int2blk 0xaaaaaaaaaaaaaaaabbbbbbbbbbbbbbbb ++ int2blk 0xccccccccccccccccdddddddddddddddd ++
      int2blk 0xeeeeeeeeeeeeeeeeffffffffffffffff ++ int2blk 0xeeeeeeeeeeeeeeeeaaaaaaaaaaaaaaaa) 20 64

/-- The ciphertext of V52. -/
def g3Cipher : List Byte :=
  int2blk 0x17f399f08c67d5ee19d0dc9969c4bb7d ++ int2blk 0x5fd46fd3756489069157b282bb200735 ++
  int2blk 0xd82710ca5c22f0ccfa7cbf93d496ac15 ++ int2blk 0xa56834cbcf98c397b4024a2691233b8d

/-- V52. -/
theorem test_gcmEncrypt :
    nextField (fun t => (t.tag, text t, t.err)) (exec .gcmEncrypt g3) =
    some (0x83de3541e4c2b58177e065a9bf7b62ec, g3Cipher, .ok) := by decide +kernel

/-- What V52 leaves, with a tag to compare with. -/
def g3Done (tag : Block) : State := { g3.bufWrite 32 g3Cipher with tag := tag }

/-- V59. -/
theorem test_gcmDecrypt :
    nextField (fun t => (text t == text g3, t.err)) (exec .gcmDecrypt (g3Done 0x83de3541e4c2b58177e065a9bf7b62ec)) =
    some (true, .ok) := by decide +kernel
/-- V57: the last bit of the tag flipped. -/
theorem test_gcmDecrypt_tampered :
    nextField (fun t => (text t == g3Cipher, t.err)) (exec .gcmDecrypt (g3Done 0x83de3541e4c2b58177e065a9bf7b62ed)) =
    some (true, .authFail) := by decide +kernel
/-- V56: a one-byte text. -/
theorem test_gcmEncrypt_partial :
    nextField (fun t => (t.tag, text t)) (exec .gcmEncrypt (withText kat iv12 [0x00] 0 1)) =
    some (0xc3e184cff0e22bd6eb640e38314f6c83, [0x55]) := by decide +kernel

/-- V58: the rows around each limit. -/
theorem test_lengths :
    let ok (iv aad txt : Word) := State.lengthsOk { kat with ivLen := iv, aadLen := aad, textLen := txt }
    ok 0 0 0 = false ∧ ok 1 0 0 = true ∧ ok 256 0 16 = true ∧ ok 257 0 16 = false ∧ ok 12 0 4096 = true ∧
    ok 12 0 4097 = false ∧ ok 12 1 4080 = true ∧ ok 12 1 4081 = false ∧ ok 12 4096 0 = true ∧
    ok 12 0xFFFFFFFF 0 = false ∧ ok 12 16 0xFFFFFFF0 = false := by decide

/-! ### The bus and the protocol -/

/-- V60, before InitDone. -/
theorem test_reset_registers :
    (State.reset.valueAt .id, State.reset.valueAt .cap, State.reset.valueAt .ctrl, State.reset.valueAt .status) =
    (0x52464531, 0x01001000, 0x00000020, 0x00000000) ∧ capReg ⟨4096, true, 0⟩ = 0x01001001 := by decide
/-- V60: the first step from reset is InitDone, after which STATUS is READY. -/
theorem test_initDone : nextField State.statusReg (step State.reset) = some 0x00000008 := by decide
/-- V61: reads. -/
theorem test_read_errors :
    nextField (·.resp) (step (hostDoes (.rd 0x0002) idle)) = some (some (.read 0 .slverr)) ∧
    nextField (·.resp) (step (hostDoes (.rd 0x0024) idle)) = some (some (.read 0 .slverr)) ∧
    nextField (·.resp) (step (hostDoes (.rd 0x9000) idle)) = some (some (.read 0 .slverr)) := by decide
/-- V61: writes. -/
theorem test_write_errors :
    nextField (fun t => (t.resp, t.werr)) (step (hostDoes (.wr 0x0000 0) idle)) = some (some (.write .slverr), false) ∧
    nextField (fun t => (t.res, t.werr)) (step (hostDoes (.wr 0x0070 1) idle)) = some (0, false) ∧
    nextField (fun t => (t.resp, t.rk[0])) (step (hostDoes (.wr 0x0100 1) idle)) = some (some (.write .slverr), 0) := by
  decide
/-- V62. -/
theorem test_busy_writes :
    nextField (fun t => (t.opa, t.werr)) (step (hostDoes (.wr 0x0050 5) (running .sub idle))) = some (0, true) ∧
    nextField (fun t => (t.cmd, t.ctl)) (step (hostDoes (.wr 0x0010 0) (running .sub idle))) = some (0x01, .busy) ∧
    nextField (·.werr) (step (hostDoes (.wr 0x000C 0x10) { running .sub idle with werr := true })) = some false ∧
    nextField State.ctrlReg (step (hostDoes (.wr 0x0008 0x31) (running .sub idle))) = some 0x21 := by decide
/-- V63: an illegal word completes with ERR = 1 and stays in CMD. -/
theorem test_illegal_word :
    nextField (fun t => (t.err, t.cmd)) (step { idle.accept 0x00000105 with turns := [.engine] }) =
    some (.illegalCmd, 0x00000105) := by decide
/-- V64: completion with IE = 1 raises irq; a write of 2 to STATUS drops it. -/
theorem test_irq :
    nextField State.irq (step { running .nop idle with ctrlIe := true }) = some true ∧
    nextField State.irq (step (hostDoes (.wr 0x000C 2) { idle with ctrlIe := true, done := true })) = some false := by
  decide
/-- R87: P3's first IVMEM word 34120000 is the bytes 00 00 12 34. -/
theorem test_memory_lanes :
    nextField (·.ivmem) (step (hostDoes (.wr 0x1000 0x34120000) idle)) =
    some [(0, 0x00), (1, 0x00), (2, 0x12), (3, 0x34)] := by decide
/-- R153. -/
theorem test_acceptance :
    nextField (fun t => (t.ctl, t.done, t.pend.bsel)) (step (hostDoes (.wr 0x0010 4) { idle with done := true })) =
    some (.busy, false, .hardwareAccelerated) := by decide
/-- The placed word is the one the very next step runs. -/
theorem test_withFetchWord :
    nextField (fun t => (t.res, t.cmd)) (step (State.reset.withFetchWord 32 0x00000001)) =
    some (0xd6d6d6d6d6d6d6d6d6d6d6d6d6d6d6d6, 0x00000001) := by decide
/-- R9: a platform address outside the window is none of the engine's. -/
theorem test_platformOffset :
    platformOffset ⟨4096, false, 0x40000⟩ 0x40010 = some 0x0010 ∧ platformOffset ⟨4096, false, 0x40000⟩ 0x50000 = none := by
  decide
/-- R351: a running command is aborted. -/
theorem test_reset_aborts :
    nextField (fun t => (t.ctl, t.res, t.done)) (step { running .sub idle with turns := [.assertReset], res := 7 }) =
    some (.init, 0, false) := by decide
/-- R140: a POLL stays while the value does not show. -/
theorem test_poll_stays :
    nextField (·.program.length) (step (hostDoes (.poll 0x000C 3 2) idle)) = some 1 ∧
    nextField (·.program.length) (step (hostDoes (.poll 0x000C 3 2) { idle with done := true })) = some 0 := by decide

/-- R140: the data of a RD line is kept after what the host has read, that of a POLL is not. -/
theorem test_read_is_kept :
    nextField (·.reads) (step (hostDoes (.rd 0x0000) { idle with reads := [7] })) = some [7, 0x52464531] ∧
    nextField (·.reads) (step (hostDoes (.poll 0x0000 0 0) { idle with reads := [7] })) = some [7] := by decide

/-- A host that has read one word of something else and then the four words given. -/
def hasRead (ws : List Word) : State := { idle with reads := 0xffffffff :: ws }

/-- R141: `v = P0 ++ P1 ++ P2 ++ P3`. -/
theorem test_rd128 :
    (hasRead [0x01234567, 0x89abcdef, 0xfedcba98, 0x76543210]).rd128Result = katBlock := by decide
/-- R141, R87: five bytes are kept of two words, eight of the same two. -/
theorem test_rdmem :
    (hasRead [0x34120000, 0x00007856]).rdmemResult 5 = [0x00, 0x00, 0x12, 0x34, 0x56] ∧
    (hasRead [0x34120000, 0x00007856]).rdmemResult 8 = [0x00, 0x00, 0x12, 0x34, 0x56, 0x78, 0x00, 0x00] := by decide
/-- R141: five bytes are written as two words, the missing bytes zero. -/
theorem test_wrmem :
    hostWrmem 0x1000 [0x00, 0x00, 0x12, 0x34, 0x56] = [.wr 0x1000 0x34120000, .wr 0x1004 0x00000056] := by decide

/-! ### Witnesses: each statement's hypotheses can be met together -/

theorem witness_FetchWordIsCompletedByTheNextStep :
    (0x00000011 : Word) = encode .gcmDecrypt ∧ CommandWord.legal 0x0000000B = false := by decide

theorem witness_CompleteStepRunsTheDecodedCommand :
    Completes (running .ctrBlock kat) ∧ decode (running .ctrBlock kat).pend.word = .ok .ctrBlock := by decide

theorem witness_EveryStepAnswersANextState : ∃ t, step State.reset = .next t := ⟨_, rfl⟩

theorem witness_EngineWithNoTurnLaidDown :
    (State.reset.turns = [] ∧ State.reset.resetAsserted = false ∧ State.reset.ctl ≠ .idle) ∧
    ((idle.accept 0x105).turns = [] ∧ (idle.accept 0x105).resetAsserted = false ∧ (idle.accept 0x105).ctl = .busy) := by
  decide

theorem witness_AcceptanceSnapshotsTheCommand :
    (HostIssues (hostDoes (.wr 0x010 0x00000105) kat) (.wr 0x010 0x00000105) ∧
      (hostDoes (.wr 0x010 0x00000105) kat).ctl = .idle) ∧
    ((hostDoes (.wr 0x050 5) (running .encBlock kat)).ctl = .busy ∧
      (hostDoes (.wr 0x050 5) (running .encBlock kat)).nextTurn = .host ∧
      ∃ t, step (hostDoes (.wr 0x050 5) (running .encBlock kat)) = .next t) :=
  ⟨by decide, by decide, by decide, _, step_host (by decide)⟩

/-- An illegal word, written in IDLE and completed at once. -/
def illegalWord : State := { idle with turns := [.host, .engine], program := [.wr 0x010 0x80000000] }

theorem witness_IllegalWordCompletesWithIllegalCmd :
    illegalWord.turns = .host :: .engine :: [] ∧ illegalWord.program = .wr 0x010 0x80000000 :: [] ∧
    illegalWord.resetAsserted = false ∧ illegalWord.ctl = .idle ∧ CommandWord.legal 0x80000000 = false := by decide

theorem witness_NopFromTheHost :
    let s : State := { idle with turns := [.host, .engine], program := [.wr 0x010 0x00000000] }
    s.turns = .host :: .engine :: [] ∧ s.program = .wr 0x010 0x00000000 :: [] ∧ s.resetAsserted = false ∧
    s.ctl = .idle := by decide

theorem witness_IllegalWordCompletes :
    Completes { idle.accept 0x00000105 with turns := [.engine] } ∧
    CommandWord.legal ({ idle.accept 0x00000105 with turns := [.engine] } : State).pend.word = false := by decide

/-- One failing command for each of the codes 2, 3 and 4. -/
theorem witness_FailedCommandWritesNothingElse :
    (∃ t, exec .decBlock idle = .next t ∧ t.err = .noKey) ∧
    (∃ t, exec .gcmEncrypt kat = .next t ∧ t.err = .badLength) ∧
    (∃ t, exec .gcmDecrypt g3 = .next t ∧ t.err = .authFail) :=
  ⟨next_of_field State.err (by decide), next_of_field State.err (by decide +kernel),
    next_of_field State.err (by decide +kernel)⟩

/-- For the rules over every step: one step by each agent. -/
theorem witness_every_agent_steps :
    (∃ t, step (hostDoes (.wr 0x010 4) idle) = .next t ∧ t.ctl = .busy) ∧
    (∃ t, step (running .nop idle) = .next t ∧ t.done = true) ∧
    (∃ t, step { kat with turns := [.assertReset] } = .next t ∧ t.keyValid = false) ∧
    (∃ t, step { kat with turns := [.releaseReset], resetAsserted := true } = .next t ∧ t.resetAsserted = false) :=
  ⟨next_of_field State.ctl (by decide), next_of_field State.done (by decide),
    next_of_field State.keyValid (by decide +kernel), next_of_field State.resetAsserted (by decide +kernel)⟩

theorem witness_KeyValid : NeedsContext .ctrBlock ∧ idle.keyValid = false := by decide

theorem witness_ResIsWritten :
    (∃ t, step (running .sub idle) = .next t ∧ t.res = 0xd6d6d6d6d6d6d6d6d6d6d6d6d6d6d6d6) ∧
    (running .sub idle).res ≠ 0xd6d6d6d6d6d6d6d6d6d6d6d6d6d6d6d6 :=
  ⟨next_of_field State.res (by decide), by decide⟩

theorem witness_RoundKeysAreWritten :
    (∃ t, step (running .keyexp idle) = .next t ∧ t.rk[0] = 0x45603b23) ∧ (running .keyexp idle).rk[0] = 0 :=
  ⟨next_of_field (fun t => t.rk[0]) (by decide +kernel), by decide⟩

theorem witness_WerrIsSet :
    HostIssues (hostDoes (.wr 0x050 5) (running .sub idle)) (.wr 0x050 5) ∧
    RejectedWrite (hostDoes (.wr 0x050 5) (running .sub idle)) 0x050 ∧
    RejectedWrite State.reset 0x10FC ∧ RejectedWrite State.reset 0x8FFC ∧ ¬ RejectedWrite State.reset 0x008 ∧
    ¬ RejectedWrite State.reset 0x9000 := by
  refine ⟨by decide, by decide, by decide, by decide, by decide, by decide⟩

/-- The never-writable offsets at the ends of their ranges, and the writable ones beside them. -/
theorem witness_BusErrors_writes :
    HostIssues (hostDoes (.wr 0x024 1) idle) (.wr 0x024 1) ∧
    (∀ a ∈ [0x001, 0x9003, 0x024, 0x03C, 0x0C0, 0x0FC, 0x180, 0xFFC, 0x1100, 0x7FFC, 0x9000, 0xFFFC, 0x000, 0x004, 0x014,
      0x070, 0x07C, 0x100, 0x17C], NeverWritable Config.referenceParams a) ∧
    (∀ a ∈ [0x008, 0x00C, 0x010, 0x018, 0x020, 0x040, 0x06C, 0x080, 0x0BC, 0x1000, 0x10FC, 0x8000, 0x8FFC],
      ¬ NeverWritable Config.referenceParams a) := by decide

theorem witness_BusErrors_reads :
    HostIssues (hostDoes (.rd 0x024) idle) (.rd 0x024) ∧
    (∀ a ∈ [0x024, 0x03C, 0x0C0, 0x0FC, 0x180, 0xFFC, 0x1100, 0x7FFC, 0x9000, 0xFFFC],
      Reserved Config.referenceParams a) ∧
    (∀ a ∈ [0x000, 0x020, 0x040, 0x0BC, 0x100, 0x17C, 0x1000, 0x10FC, 0x8000, 0x8FFC],
      ¬ Reserved Config.referenceParams a) ∧
    (∀ a, a < 0x10000 → ¬ Reserved ⟨32768, false, 0⟩ (0x8000 + a % 0x8000)) := by
  refine ⟨by decide, by decide, by decide, fun a _ => ?_⟩
  simp only [Reserved]
  omega

/-- Two reads of RES: of the current value outside BUSY, of draws while SUB runs. -/
theorem witness_ReadsHaveNoSideEffects :
    (let s := { idle with turns := [.host, .host], program := [.rd 0x070, .rd 0x070] }
     s.turns = .host :: .host :: [] ∧ s.program = .rd 0x070 :: .rd 0x070 :: [] ∧ s.resetAsserted = false ∧
      ∃ t, step s = .next t ∧ t.drawCount = s.drawCount) ∧
    (let s := { running .sub idle with turns := [.host, .host], program := [.rd 0x070, .rd 0x070] }
     s.turns = .host :: .host :: [] ∧ s.program = .rd 0x070 :: .rd 0x070 :: [] ∧ s.resetAsserted = false ∧
      ∃ t, step s = .next t ∧ t.drawCount = s.drawCount + 1) :=
  ⟨⟨rfl, rfl, rfl, next_of_field State.drawCount (by decide)⟩,
    ⟨rfl, rfl, rfl, next_of_field State.drawCount (by decide)⟩⟩

theorem witness_CtrlWrite :
    HostIssues (hostDoes (.wr 0x008 0x31) (running .sub idle)) (.wr 0x008 0x31) ∧
    (0x31 : Word).extractLsb' 4 2 = 3 ∧ (0x11 : Word).extractLsb' 4 2 = 1 := by decide

theorem witness_StatusWrite : HostIssues (hostDoes (.wr 0x00C 0x12) State.reset) (.wr 0x00C 0x12) := by decide

/-- A host line while the command `i` runs. -/
def whileRunning (i : Instr) (op : HostOp) (s : State) : State := hostDoes op (running i s)

/-- A host line while the illegal word `w` runs. -/
def whileIllegal (w : Word) (op : HostOp) (s : State) : State := hostDoes op (s.accept w)

theorem liveRead_of_not_busy {s : State} (h : s.ctl ≠ .busy) (off : Offset) : LiveRead s off :=
  fun hb => absurd hb h

theorem liveRead_of_illegal {s : State} {e : DecodeError} (h : decode s.pend.word = .error e) (off : Offset) :
    LiveRead s off := by
  intro _ i hi
  rw [h] at hi
  cases hi

theorem liveRead_of_running {s : State} {i : Instr} {off : Offset} (h : decode s.pend.word = .ok i)
    (hw : ¬ InWriteSet s i off.toNat) (hk : ¬ (i = .keyexp ∧ off = 0x00C)) : LiveRead s off := by
  intro _ j hj
  rw [h] at hj
  cases hj
  exact ⟨hw, hk⟩

/-- Reads that are no draws: outside BUSY; while an illegal word runs, of RES and of a misaligned offset; and while SUB
runs, of the registers on either side of RES. -/
theorem witness_LiveRead :
    ((hostDoes (.rd 0x070) idle).ctl ≠ .busy ∧ LiveRead (hostDoes (.rd 0x070) idle) 0x070) ∧
    (let s := whileIllegal 0x00000105 (.rd 0x070) idle
     HostIssues s (.rd 0x070) ∧ s.ctl = .busy ∧ CommandWord.legal s.pend.word = false ∧ LiveRead s 0x070) ∧
    (let s := whileIllegal 0x0000000B (.rd 0x071) idle
     HostIssues s (.rd 0x071) ∧ s.ctl = .busy ∧ CommandWord.legal s.pend.word = false ∧ LiveRead s 0x071 ∧
      Misaligned 0x071) ∧
    (let s := whileRunning .sub (.rd 0x06C) idle
     HostIssues s (.rd 0x06C) ∧ s.ctl = .busy ∧ LiveRead s 0x06C ∧ LiveRead s 0x080) := by
  refine ⟨⟨by decide, liveRead_of_not_busy (by decide) _⟩,
    ⟨by decide, by decide, by decide, liveRead_of_illegal (e := .upperBitsNotZero) (by decide) _⟩,
    ⟨by decide, by decide, by decide, liveRead_of_illegal (e := .unassignedOpcode) (by decide) _, by decide⟩,
    by decide, by decide, liveRead_of_running (i := .sub) (by decide) ?_ (by decide),
    liveRead_of_running (i := .sub) (by decide) ?_ (by decide)⟩
  all_goals simp only [InWriteSet]; decide

/-- A read of each register group at its first and last register, and of the first and last round key. -/
theorem witness_RegisterReads :
    HostIssues (hostDoes (.rd 0x17C) kat) (.rd 0x17C) ∧ LiveRead (hostDoes (.rd 0x17C) kat) 0x17C ∧
    (0x17C : Offset).toNat = 0x100 + 4 * 31 ∧ (0x100 : Offset).toNat = 0x100 + 4 * 0 ∧
    (0x040 : Offset).toNat = 0x040 + 4 * 0 ∧ (0x0BC : Offset).toNat = 0x0B0 + 4 * 3 :=
  ⟨by decide, liveRead_of_not_busy (by decide) _, by decide, by decide, by decide, by decide⟩

theorem witness_RegisterWrites :
    HostIssues (hostDoes (.wr 0x0BC 1) kat) (.wr 0x0BC 1) ∧ (hostDoes (.wr 0x0BC 1) kat).ctl = .idle ∧
    (0x04C : Offset).toNat = 0x040 + 4 * 3 ∧ (0x050 : Offset).toNat = 0x050 + 4 * 0 ∧
    (0x06C : Offset).toNat = 0x060 + 4 * 3 ∧ (0x080 : Offset).toNat = 0x080 + 4 * 0 ∧
    (0x09C : Offset).toNat = 0x090 + 4 * 3 ∧ (0x0A0 : Offset).toNat = 0x0A0 + 4 * 0 ∧
    (0x0BC : Offset).toNat = 0x0B0 + 4 * 3 ∧
    HostIssues (hostDoes (.wr 0x018 1) kat) (.wr 0x018 1) ∧ HostIssues (hostDoes (.wr 0x01C 1) kat) (.wr 0x01C 1) ∧
    HostIssues (hostDoes (.wr 0x020 1) kat) (.wr 0x020 1) := by decide

/-- The first and last word of each memory. -/
theorem witness_MemoryWindows :
    (HostIssues (hostDoes (.rd 0x10FC) idle) (.rd 0x10FC) ∧ 252 % 4 = 0 ∧ (0x10FC : Offset).toNat = 0x1000 + 252) ∧
    (HostIssues (hostDoes (.rd 0x8FFC) idle) (.rd 0x8FFC) ∧ (0x8FFC : Offset).toNat = 0x8000 + 4092 ∧
      4092 < (hostDoes (.rd 0x8FFC) idle).params.bufBytes ∧ LiveRead (hostDoes (.rd 0x8FFC) idle) 0x8FFC) ∧
    (HostIssues (hostDoes (.wr 0x1000 5) idle) (.wr 0x1000 5) ∧ (hostDoes (.wr 0x1000 5) idle).ctl = .idle ∧
      (0x1000 : Offset).toNat = 0x1000 + 0) ∧
    (HostIssues (hostDoes (.wr 0x8000 5) idle) (.wr 0x8000 5) ∧ (0x8000 : Offset).toNat = 0x8000 + 0) :=
  ⟨by decide, ⟨by decide, by decide, by decide, liveRead_of_not_busy (by decide) _⟩, by decide, by decide⟩

/-- A BUF word is read live while a command runs that writes no BUF word. -/
theorem witness_MemoryWindows_busy :
    let s := whileRunning .nop (.rd 0x8000) idle
    HostIssues s (.rd 0x8000) ∧ (0x8000 : Offset).toNat = 0x8000 + 0 ∧ 0 < s.params.bufBytes ∧ LiveRead s 0x8000 :=
  ⟨by decide, by decide, by decide, liveRead_of_running (i := .nop) (by decide) (fun h => h) (by decide)⟩

/-- Reads while BUSY: in the write set (RES under SUB, the words of a text that starts at 16 and is one byte long),
outside it (the word before that text, a reserved offset), and STATUS under KEYEXP. -/
theorem witness_BusyReads :
    (HostIssues (whileRunning .sub (.rd 0x07C) idle) (.rd 0x07C) ∧ (whileRunning .sub (.rd 0x07C) idle).ctl = .busy ∧
      decode (whileRunning .sub (.rd 0x07C) idle).pend.word = .ok .sub ∧ ¬ Misaligned 0x07C ∧
      InWriteSet (whileRunning .sub (.rd 0x07C) idle) .sub 0x07C ∧
      ¬ InWriteSet (whileRunning .sub (.rd 0x07C) idle) .sub 0x080 ∧
      ¬ InWriteSet (whileRunning .sub (.rd 0x07C) idle) .sub 0x024) ∧
    (let s := whileRunning .gcmEncrypt (.rd 0x8010) { kat with ivLen := 12, aadLen := 3, textLen := 1 }
     HostIssues s (.rd 0x8010) ∧ s.ctl = .busy ∧ decode s.pend.word = .ok .gcmEncrypt ∧
      InWriteSet s .gcmEncrypt 0x8010 ∧ ¬ InWriteSet s .gcmEncrypt 0x800C ∧ ¬ InWriteSet s .gcmEncrypt 0x8014) ∧
    (HostIssues (whileRunning .keyexp (.rd 0x00C) idle) (.rd 0x00C) ∧
      (whileRunning .keyexp (.rd 0x00C) idle).ctl = .busy ∧
      decode (whileRunning .keyexp (.rd 0x00C) idle).pend.word = .ok .keyexp) := by
  refine ⟨⟨by decide, by decide, by decide, by decide, by simp only [InWriteSet]; decide,
    by simp only [InWriteSet]; decide, by simp only [InWriteSet]; decide⟩, ⟨by decide, by decide, by decide, ?_, ?_, ?_⟩,
    by decide, by decide, by decide⟩
  · exact .inr ⟨by decide, by decide, 0, by decide, by decide, by decide⟩
  · rintro (h | ⟨-, -, k, hk, h, -⟩)
    · revert h; decide
    · revert k; decide
  · rintro (h | ⟨-, -, k, hk, -, h⟩)
    · revert h; decide
    · revert k; decide

theorem witness_Poll :
    let s := hostDoes (.poll 0x00C 0x3 0x2) idle
    s.nextTurn = .host ∧ s.resetAsserted = false ∧ s.program = .poll 0x00C 0x3 0x2 :: [] := by decide

theorem witness_ResetStateParams : Params.legal ⟨32768, true, 0x10000⟩ = true := by decide

theorem witness_ResetPuts :
    ({ running .gcmEncrypt kat with turns := [.assertReset] } : State).nextTurn = .assertReset ∧
    (State.reset.assertReset.resetAsserted = true ∧ State.reset.assertReset.nextTurn = .host) ∧
    ({ State.reset.assertReset with turns := [.engine] } : State).nextTurn = .engine ∧
    ({ State.reset.assertReset with turns := [.releaseReset] } : State).nextTurn = .releaseReset := by decide

theorem witness_InitDone :
    (EngineMoves State.reset ∧ State.reset.ctl = .init) ∧
    (HostIssues (hostDoes (.wr 0x010 4) State.reset) (.wr 0x010 4) ∧ (hostDoes (.wr 0x010 4) State.reset).ctl = .init) := by
  decide

theorem witness_TableDrivenRound : idle.tt = .built := rfl

theorem witness_DiffusionLaws : (31 < 32 ∧ 0 < 32) ∧ (1 ≤ 1 ∧ 1 ≤ 3) ∧ (1 ≤ 3 ∧ 3 ≤ 3) := by decide

theorem witness_BlockCommands : kat.keyValid = true ∧ idle.keyValid = false := ⟨rfl, rfl⟩

theorem witness_CipherRoundTrip : kat.keyValid = true ∧ ∃ t, exec .encBlock kat = .next t ∧ t.err = .ok :=
  ⟨rfl, next_of_field State.err (by decide +kernel)⟩

theorem witness_Ghash :
    ([] : List Byte).length % 16 = 0 ∧ (int2blk 5).length % 16 = 0 ∧ (int2blk katBlock).length = 16 := by decide

theorem witness_GhashBlockZero : idle.h = 0 ∧ idle.y = idle.opa := ⟨rfl, rfl⟩

theorem witness_GcmStrings :
    (1 ≤ iv12.length ∧ iv12.length ≤ 256 ∧ iv12.length = 12) ∧
    (1 ≤ [0xab].length ∧ [0xab].length ≤ 256 ∧ [0xab].length ≠ 12) ∧ (zeros 256).length ≤ 256 ∧
    (zeros 20).length < 2 ^ 32 := by
  simp [iv12]

/-- The two GCM commands with a context, with lengths at and past each limit. -/
theorem witness_GcmLengths :
    IsGcm .gcmEncrypt ∧ IsGcm .gcmDecrypt ∧ kat.keyValid = true ∧
    LengthsGood { kat with ivLen := 1, textLen := 4096 } ∧ LengthsGood { kat with ivLen := 256, aadLen := 4096 } ∧
    ¬ LengthsGood { kat with ivLen := 257 } ∧ ¬ LengthsGood { kat with ivLen := 12, aadLen := 1, textLen := 4081 } ∧
    ¬ LengthsGood kat ∧
    ({ kat with ivLen := 12, aadLen := 0xFFFFFFFF } : State).params.legal = true := by decide +kernel

theorem witness_GcmEncrypt : g3.keyValid = true ∧ LengthsGood g3 := by decide +kernel

theorem witness_GcmDecryptVerified :
    let s := g3Done 0x83de3541e4c2b58177e065a9bf7b62ec
    s.keyValid = true ∧ LengthsGood s ∧ s.tag = tagOver s := by decide +kernel

theorem witness_GcmDecryptWrongTag :
    let s := g3Done 0x83de3541e4c2b58177e065a9bf7b62ed
    s.keyValid = true ∧ LengthsGood s ∧ s.tag ≠ tagOver s := by decide +kernel

theorem witness_GcmRoundTrip : g3.keyValid = true ∧ LengthsGood g3 ∧ ∃ t, exec .gcmEncrypt g3 = .next t ∧ t.err = .ok :=
  ⟨rfl, by decide +kernel, next_of_field State.err (by decide +kernel)⟩

/-- Two states with equal inputs that differ in an operand the command does not read. -/
theorem witness_GcmDeterminism :
    let s' : State := { g3 with opa := 1 }
    s'.keyValid = true ∧ LengthsGood s' ∧ s'.rk = g3.rk ∧ ivOf s' = ivOf g3 ∧ aadOf s' = aadOf g3 ∧
    textOf s' = textOf g3 ∧
    (∃ t, exec .gcmEncrypt g3 = .next t ∧ t.err = .ok) ∧ ∃ t, exec .gcmEncrypt s' = .next t ∧ t.err = .ok :=
  ⟨rfl, by decide +kernel, rfl, rfl, rfl, rfl, next_of_field State.err (by decide +kernel),
    next_of_field State.err (by decide +kernel)⟩

theorem witness_ChangedTag :
    g3.keyValid = true ∧ LengthsGood g3 ∧
    ∃ t, exec .gcmEncrypt g3 = .next t ∧ (0x83de3541e4c2b58177e065a9bf7b62ed : Block) ≠ t.tag := by
  obtain ⟨t, h, ht⟩ := next_of_field (o := exec .gcmEncrypt g3) State.tag
    (x := 0x83de3541e4c2b58177e065a9bf7b62ec) (by decide +kernel)
  exact ⟨rfl, by decide +kernel, t, h, by rw [ht]; decide⟩

/-- Two states that differ in a padding byte, BUF[5], with AAD_LEN = 3 and TEXT_LEN = 1. -/
theorem witness_GcmReadsOnlyTheListedBytes :
    let s : State := { kat with ivLen := 12, aadLen := 3, textLen := 1 }
    let s' : State := s.bufWrite 5 [0xff]
    s' = { s with ivmem := s'.ivmem, buf := s'.buf, epoch := s'.epoch } ∧ s' ≠ s ∧
    (∀ a, a < s.ivLen.toNat → s'.ivByte a = s.ivByte a) ∧
    (∀ a, a < s.aadLen.toNat ∨ (textStart s ≤ a ∧ a < textStart s + s.textLen.toNat) → s'.bufByte a = s.bufByte a) := by
  refine ⟨rfl, ?_, fun a _ => rfl, fun a ha => ?_⟩
  · intro h
    have := congrArg State.buf h
    revert this
    decide
  · refine bufByte_bufWrite_outside _ _ _ _ ?_
    have h1 : textStart { kat with ivLen := 12, aadLen := 3, textLen := 1 } = 16 := by decide
    have h2 : ({ kat with ivLen := 12, aadLen := 3, textLen := 1 } : State).aadLen.toNat = 3 := by decide
    rw [h1, h2] at ha
    simp only [List.length_singleton]
    omega

/-- What a host has read: four words for RD128; two words for five bytes of RDMEM, those WRMEM writes for the string. -/
theorem witness_HostAbbreviations :
    (hasRead [1, 2, 3, 4]).reads = [0xffffffff] ++ [1, 2, 3, 4] ∧
    (let bs : List Byte := [0x00, 0x00, 0x12, 0x34, 0x56]
     let ds : List Word := [0x34120000, 0x00000056]
     (hasRead ds).reads = [0xffffffff] ++ ds ∧ ds.length = (bs.length + 3) / 4 ∧
      ∀ i, i < ds.length →
        (hostWrmem 0x1000 bs)[i]? = some (.wr ((0x1000 : Offset) + BitVec.ofNat 16 (4 * i)) (ds.getD i 0))) ∧
    (0 < 1 ∧ 4 * 1 < 5) := by
  refine ⟨rfl, ⟨rfl, rfl, ?_⟩, by decide⟩
  decide

/-- A state with the invariant in each control state: after reset, IDLE, and BUSY with a completion next. -/
theorem witness_Inv : State.reset.Inv ∧ idle.Inv ∧ (running .nop { idle with ctrlIe := true }).Inv := by
  refine ⟨?_, ?_, ?_⟩ <;> constructor <;> decide

theorem witness_CompletionNeverMeetsDone :
    Completes (running .nop { idle with ctrlIe := true }) ∧ (running .nop { idle with ctrlIe := true }).irq = false ∧
    ∃ t, step (running .nop { idle with ctrlIe := true }) = .next t ∧ t.irq = true :=
  ⟨by decide, by decide, next_of_field State.irq (by decide)⟩

end Sys2Proof.Tests
end

