-- ==== Sys2Proof/Proofs/DefaultTurn.lean ====
section
/-! PROOFS. The engine's own steps read forwards, and the default turn (spec/00_scope.md R8, log entry 1). -/

namespace Sys2Proof.Machine

/-! ### The engine's turn, read forwards -/

/-- InitDone (R352). -/
theorem engineTurn_init {s : State} (hr : s.resetAsserted = false) (hc : s.ctl = .init) :
    engineTurn exec s = .next s.initDone := by
  simp [engineTurn, hr, hc]

/-- Complete (R155): whatever the accepted word, a legal command or not, the turn ends in `finish`. -/
theorem engineTurn_busy_shape {s : State} (hr : s.resetAsserted = false) (hc : s.ctl = .busy) :
    ∃ (u : State) (c : ErrCode), engineTurn exec s = .next (u.finish c) := by
  cases hd : decode s.pend.word with
  | ok i =>
    obtain ⟨u, c, hx⟩ := exec_shape i s
    exact ⟨u, c, by simp [engineTurn, hr, hc, hd, hx]⟩
  | error e => exact ⟨s, .illegalCmd, by simp [engineTurn, hr, hc, hd, execIllegal, raiseError]⟩

/-! ### The default turn -/

theorem engineEnabled_iff (s : State) : s.engineEnabled = true ↔ s.resetAsserted = false ∧ s.ctl ≠ .idle := by
  cases hc : s.ctl <;> simp [State.engineEnabled, hc]

/-- With no turn laid down, the engine moves whenever a step of it is enabled. -/
theorem nextTurn_engine_of_enabled {s : State} (ht : s.turns = []) (he : s.engineEnabled = true) :
    s.nextTurn = .engine := by
  simp [State.nextTurn, ht, he]

/-- Settles O7: the default turn is the engine's, and each of its two steps, InitDone and Complete, ends in IDLE. -/
theorem engineWithNoTurnLaidDownBecomesIdleInOneStep :
    Obligations.EngineWithNoTurnLaidDownBecomesIdleInOneStep := by
  intro s ht hr hidle
  have hn : s.nextTurn = .engine := nextTurn_engine_of_enabled ht ((engineEnabled_iff s).2 ⟨hr, hidle⟩)
  rw [step_engine hn]
  cases hc : s.ctl with
  | idle => exact absurd hc hidle
  | init => exact ⟨_, engineTurn_init (s := s.startTurn) hr hc, rfl, nofun⟩
  | busy =>
    obtain ⟨u, c, hx⟩ := engineTurn_busy_shape (s := s.startTurn) hr hc
    exact ⟨_, hx, finish_ctl u c, fun _ => finish_done u c⟩

end Sys2Proof.Machine
end

