-- ==== Sys2Proof/Proofs/CommandEffect.lean ====
section
/-! PROOFS. Which word selects which command (spec/30_encoding.md R121, R122), and what the completion of a command
does to the flags, the round keys and RES (spec/10_state.md R38 to R51, spec/40_command_protocol.md R155). -/

namespace Sys2Proof

/-- Each row of the opcode map matches one whole word, the encoding of its command (R122). -/
theorem opcodeTable_row : ∀ r ∈ opcodeTable, r.mask = BitVec.allOnes 32 ∧ r.value = encode r.instr := by
  decide

theorem eq_encode_of_decode {w : Word} {i : Instr} (h : decode w = .ok i) : w = encode i := by
  unfold decode at h
  split at h
  · next r hr =>
    cases h
    obtain ⟨hmask, hvalue⟩ := opcodeTable_row r (List.mem_of_find?_eq_some hr)
    have hm := List.find?_some hr
    simp only [OpcodeRow.matches, hmask, BitVec.and_allOnes, beq_iff_eq] at hm
    rw [hm, hvalue]
  · cases h

theorem decode_encode (i : Instr) : decode (encode i) = .ok i := by
  cases i <;> rfl

theorem decode_ok_iff {w : Word} {i : Instr} : decode w = .ok i ↔ w = encode i :=
  ⟨eq_encode_of_decode, fun h => h ▸ decode_encode i⟩

namespace Machine

/-- The part of a command's completion from `s` to `t` that the rules for DONE, KEY_VALID, WERR, `ctl`, the round
keys and RES speak of. -/
structure CommandEffect (i : Instr) (s t : State) : Prop where
  done : t.done = true
  ctl : t.ctl = .idle
  werr : t.werr = s.werr
  keyValid : t.keyValid = true ↔ i = .keyexp ∨ s.keyValid = true
  rk : t.rk = if i = .keyexp then keyExpand s.key else s.rk
  res : t.res = s.res ∨ (t.err = .ok ∧ Instr.writesGroup i .res = true)

/-- What every command does, in the three shapes commands have: without a check, after the context check, after the
checks of the GCM commands. -/
theorem commandEffect_of_exec {i : Instr} {s t : State} (h : exec i s = .next t) : CommandEffect i s t := by
  cases i
  case nop | sub | roundT | roundTp | keyexp | gfmul | ghashBlock =>
    obtain rfl := complete_next.1 h
    constructor <;> simp [Instr.writesGroup]
  case encBlock | decBlock | ghashInit | ctrBlock =>
    simp only [exec, execEncBlock, execDecBlock, execGhashInit, execCtrBlock] at h
    obtain ⟨-, h⟩ | ⟨-, rfl⟩ := withContext_next.1 h
    · obtain rfl := complete_next.1 h
      constructor <;> simp [Instr.writesGroup]
    · constructor <;> simp
  case gcmEncrypt =>
    simp only [exec, execGcmEncrypt] at h
    obtain ⟨-, -, h⟩ | ⟨-, rfl⟩ | ⟨-, -, rfl⟩ := withGcmChecks_next.1 h
    · obtain rfl := complete_next.1 h
      constructor <;> simp
    all_goals constructor <;> simp
  case gcmDecrypt =>
    simp only [exec, execGcmDecrypt] at h
    obtain ⟨-, -, h⟩ | ⟨-, rfl⟩ | ⟨-, -, rfl⟩ := withGcmChecks_next.1 h
    · split at h
      · obtain rfl := complete_next.1 h
        constructor <;> simp
      · obtain rfl := raiseError_next.1 h
        constructor <;> simp
    all_goals constructor <;> simp

/-- The commands that write RES have the eight words R48 lists. -/
theorem encode_of_writes_res {i : Instr} (h : Instr.writesGroup i .res = true) :
    encode i = 0x01 ∨ encode i = 0x02 ∨ encode i = 0x03 ∨ encode i = 0x05 ∨ encode i = 0x06 ∨ encode i = 0x07 ∨
      encode i = 0x09 ∨ encode i = 0x0A := by
  revert h
  cases i <;> decide

/-- Without a context each of the six commands that need one ends with NO_KEY (R157 step 2, R39). -/
theorem exec_noKey {i : Instr} {s : State} (hi : Statement.NeedsContext i) (hk : s.keyValid = false) :
    ∃ t, exec i s = .next t ∧ t.err = .noKey := by
  obtain rfl | rfl | rfl | rfl | rfl | rfl := hi
  case inl | inr.inl | inr.inr.inl | inr.inr.inr.inl =>
    simp [exec, execEncBlock, execDecBlock, execGhashInit, execCtrBlock, withContext_next, hk]
  all_goals simp [exec, execGcmEncrypt, execGcmDecrypt, withGcmChecks_next, hk]

end Machine
end Sys2Proof
end

