-- ==== Sys2Proof/Proofs/ControlWrites.lean ====
section
/-! PROOFS. What a host write does to the flags: the writes to CTRL, STATUS and CMD, and all others (spec/10_state.md
R34 to R41, spec/20_memory.md R89), and the layouts of CTRL and STATUS. -/

namespace Sys2Proof.Machine

open Sys2Proof.Statement

/-! ### Where STATUS and CMD are, and which writes are rejected -/

theorem locate_eq_status_iff (p : Params) (off : Offset) : locate p off = .status ↔ off = 0x00C :=
  ⟨fun h => (locate_register (.inr (.inl rfl)) h).2.1 rfl, fun h => h ▸ rfl⟩

theorem locate_eq_cmd_iff (p : Params) (off : Offset) : locate p off = .cmd ↔ off = 0x010 :=
  ⟨fun h => (locate_register (.inr (.inr rfl)) h).2.2 rfl, fun h => h ▸ rfl⟩

/-- The writes the port rejects, by their location (R325, condition 3). -/
theorem rejectedWrite_iff (s : State) (off : Offset) :
    RejectedWrite s off ↔ (locate s.params off).refusesWrites = false ∧
      (locate s.params off).alwaysWritable = false ∧ s.ctl ≠ .idle := by
  have hw : NeverWritable s.params off.toNat ↔ _ := (refusesWrites_iff s.params off).symm
  have ha : CtrlOrStatus off.toNat ↔ _ := (alwaysWritable_iff s.params off).symm
  rw [RejectedWrite, hw, ha, Bool.not_eq_true, Bool.not_eq_true]

/-! ### The writes to CTRL, STATUS and CMD -/

theorem busWrite_ctrl (s : State) (d : Word) :
    s.busWrite 0x008 d = { s.writeCtrl d with resp := some (.write .okay) } :=
  busWrite_performed d rfl (.inr rfl)

theorem busWrite_status (s : State) (d : Word) :
    s.busWrite 0x00C d = { s.writeStatus d with resp := some (.write .okay) } :=
  busWrite_performed d rfl (.inr rfl)

theorem busWrite_cmd {s : State} (d : Word) (hc : s.ctl = .idle) :
    s.busWrite 0x010 d = { s.accept d with resp := some (.write .okay) } :=
  busWrite_performed d rfl (.inl hc)

/-- W1C: a data bit 1 clears, a data bit 0 keeps (R36). -/
theorem writeStatus_eq_ite (s : State) (d : Word) :
    s.writeStatus d = { s with
      done := if d.getLsbD 1 then false else s.done, werr := if d.getLsbD 4 then false else s.werr } := by
  unfold State.writeStatus
  cases d.getLsbD 1 <;> cases d.getLsbD 4 <;> simp

/-! ### What the other writes leave alone -/

/-- `t` has the flags, the control state, the round keys and RES of `s`. -/
structure SameFlags (s t : State) : Prop where
  done : t.done = s.done
  keyValid : t.keyValid = s.keyValid
  werr : t.werr = s.werr
  ctl : t.ctl = s.ctl
  rk : t.rk = s.rk
  res : t.res = s.res

/-- A store anywhere but in STATUS and CMD; RES refuses writes, so its own group is no case. -/
theorem store_sameFlags {s : State} {l : Loc} (d : Word) (hl : l.refusesWrites = false) (hs : l ≠ .status)
    (hc : l ≠ .cmd) : SameFlags s (s.store l d) := by
  cases l with
  | status => exact absurd rfl hs
  | cmd => exact absurd rfl hc
  | group g k =>
    cases g with
    | res => simp [Loc.refusesWrites] at hl
    | _ => constructor <;> rfl
  | _ => constructor <;> rfl

/-- A write that is not rejected, is none to STATUS and is not the acceptance of a command leaves the flags alone. -/
theorem busWrite_sameFlags {s : State} {off : Offset} (d : Word) (hr : ¬ RejectedWrite s off) (hs : off ≠ 0x00C)
    (hc : ¬ (off = 0x010 ∧ s.ctl = .idle)) : SameFlags s (s.busWrite off d) := by
  rw [← locate_eq_cmd_iff s.params] at hc
  rw [Ne, ← locate_eq_status_iff s.params] at hs
  obtain ⟨-, e⟩ | ⟨hw, hi, ha, -⟩ | ⟨hw, hi, e⟩ := busWrite_cases s off d
  · rw [e]
    constructor <;> rfl
  · exact absurd ((rejectedWrite_iff s off).2 ⟨hw, ha, hi⟩) hr
  · have hcmd : locate s.params off ≠ .cmd := fun hl =>
      hc ⟨hl, hi.resolve_right (by simp [hl, Loc.alwaysWritable])⟩
    have h := store_sameFlags (s := s) d hw hs hcmd
    rw [e]
    exact ⟨h.done, h.keyValid, h.werr, h.ctl, h.rk, h.res⟩

/-! ### The layouts of CTRL and STATUS -/

/-- A concatenation is the sum of its parts, each at its place. -/
theorem toNat_append_eq_add {m n : Nat} (x : BitVec m) (y : BitVec n) :
    (x ++ y).toNat = x.toNat * 2 ^ n + y.toNat := by
  rw [BitVec.toNat_append, ← Nat.shiftLeft_add_eq_or_of_lt y.isLt, Nat.shiftLeft_eq]

@[simp] theorem flagBit_toNat (b : Bool) : (flagBit b).toNat = b.toNat := by
  cases b <;> rfl

/-- The fields of CTRL at their places (R34). -/
theorem ctrlReg_toNat (s : State) : s.ctrlReg.toNat = s.ctrlIe.toNat + 16 * s.ctrlBackend.bits.toNat := by
  simp only [State.ctrlReg, toNat_append_eq_add, flagBit_toNat, BitVec.toNat_zero, BitVec.ofNat_eq_ofNat]
  omega

/-- The fields of STATUS at their places (R36). -/
theorem statusReg_toNat (s : State) :
    s.statusReg.toNat = s.busyFlag.toNat + 2 * s.done.toNat + 4 * s.keyValid.toNat + 8 * s.readyFlag.toNat +
      16 * s.werr.toNat + 256 * s.activeBackend.bits.toNat := by
  simp only [State.statusReg, State.statusWith, toNat_append_eq_add, flagBit_toNat, BitVec.toNat_zero,
    BitVec.ofNat_eq_ofNat]
  omega

/-- BUSY and READY are views of the control state (R37, R40). -/
theorem busyFlag_eq_decide (s : State) : s.busyFlag = decide (s.ctl = .busy) := rfl

theorem readyFlag_eq_decide (s : State) : s.readyFlag = decide (s.ctl ≠ .init) := by
  cases hc : s.ctl <;> simp [State.readyFlag, hc]

/-- The backend two bits select keeps the old one exactly for 3, which is not legal (R35). -/
theorem bits_ofBits?_getD (b : BitVec 2) (old : Backend) :
    ((Backend.ofBits? b).getD old).bits = if b = 3 then old.bits else b := by
  revert b
  cases old <;> decide

/-! ### The two obligations about writes -/

/-- Settles O21: CTRL is written in every control state, and its layout is the sum of its fields. -/
theorem ctrlWriteStoresIeAndLegalBackends : Obligations.CtrlWriteStoresIeAndLegalBackends := by
  intro s d ⟨hn, hr, hp⟩
  refine ⟨_, step_write hn hr hp, ?_, ?_, ?_⟩
  · rw [busWrite_ctrl]
    rfl
  · rw [busWrite_ctrl]
    exact bits_ofBits?_getD _ _
  · rw [ctrlReg_toNat, busWrite_ctrl]
    rfl

/-- Settles O22: STATUS is written in every control state, and its layout is the sum of its fields. -/
theorem statusWriteClearsOnlyW1C : Obligations.StatusWriteClearsOnlyW1C := by
  refine ⟨fun s d ⟨hn, hr, hp⟩ => ?_, fun s => ?_, rfl⟩
  · rw [step_write hn hr hp, busWrite_status]
    simp only [writeStatus_eq_ite]
    rfl
  · rw [statusReg_toNat, busyFlag_eq_decide, readyFlag_eq_decide]

end Sys2Proof.Machine
end

