-- ==== Sys2Proof/Proofs/StepEvents.lean ====
section
/-! PROOFS. What a step can do to the flags, the control state, the round keys and RES, said once: the events of
spec/10_state.md R38 to R51 and what the host or the engine does in each. -/

namespace Sys2Proof.Machine

open Sys2Proof.Statement

/-- The events that touch the flags, the control state, the round keys or RES, and all other steps together. -/
inductive StepEvent (s : State) : State → Prop where
  /-- reset is asserted (R350) -/
  | reset (hn : s.nextTurn = .assertReset) : StepEvent s s.startTurn.assertReset
  /-- InitDone (R352) -/
  | initDone (he : EngineMoves s) (hc : s.ctl = .init) : StepEvent s s.startTurn.initDone
  /-- a legal command completes (R155) -/
  | complete {i : Instr} {t : State} (hc : Completes s) (hw : s.pend.word = encode i)
      (h : CommandEffect i s.startTurn t) : StepEvent s t
  /-- an illegal word completes (R161) -/
  | illegal (hc : Completes s) (hw : ∀ i, s.pend.word ≠ encode i) : StepEvent s (s.startTurn.finish .illegalCmd)
  /-- a command is accepted (R153) -/
  | accept {w : Word} (hw : HostIssues s (.wr 0x010 w)) (hc : s.ctl = .idle) :
      StepEvent s { s.startTurn.accept w with resp := some (.write .okay), program := s.program.tail }
  /-- STATUS is written (R36) -/
  | statusWrite {d : Word} (hw : HostIssues s (.wr 0x00C d)) :
      StepEvent s { s.startTurn.writeStatus d with resp := some (.write .okay), program := s.program.tail }
  /-- a write is rejected (R89) -/
  | rejected {off : Offset} {d : Word} (hw : HostIssues s (.wr off d)) (hr : RejectedWrite s off) :
      StepEvent s { s.startTurn with werr := true, resp := some (.write .slverr), program := s.program.tail }
  /-- none of these -/
  | other {t : State} (hn : s.nextTurn ≠ .assertReset) (he : EngineMoves s → s.ctl = .idle)
      (hacc : ¬ (s.ctl = .idle ∧ ∃ w, HostIssues s (.wr 0x010 w))) (hstat : ∀ d, ¬ HostIssues s (.wr 0x00C d))
      (hrej : ¬ ∃ off d, HostIssues s (.wr off d) ∧ RejectedWrite s off) (h : SameFlags s t) : StepEvent s t

/-- A step with no write and no engine step that leaves the flags alone. -/
theorem StepEvent.quiet {s t : State} (hn : s.nextTurn ≠ .assertReset) (he : EngineMoves s → s.ctl = .idle)
    (hw : ∀ off d, ¬ HostIssues s (.wr off d)) (h : SameFlags s t) : StepEvent s t :=
  .other hn he (fun ⟨_, _, hi⟩ => hw _ _ hi) (hw _) (fun ⟨_, _, hi, _⟩ => hw _ _ hi) h

/-- The host's next line is one line. -/
theorem hostIssues_iff_eq {s : State} {op : HostOp} (h : HostIssues s op) (op' : HostOp) :
    HostIssues s op' ↔ op' = op := by
  obtain ⟨hn, hr, hp⟩ := h
  simp [HostIssues, hn, hr, hp, eq_comm]

/-- A host's write, by what the port makes of it. -/
theorem stepEvent_write {s t : State} {off : Offset} {d : Word} (hw : HostIssues s (.wr off d))
    (ht : t = { s.startTurn.busWrite off d with program := s.program.tail }) : StepEvent s t := by
  subst ht
  by_cases hr : RejectedWrite s off
  · obtain ⟨hwritable, hnotAlways, hidle⟩ := (rejectedWrite_iff s off).1 hr
    rw [busWrite_rejected (s := s.startTurn) d hwritable hidle hnotAlways]
    exact .rejected hw hr
  by_cases hs : off = 0x00C
  · subst hs
    rw [busWrite_status]
    exact .statusWrite hw
  by_cases hc : off = 0x010 ∧ s.ctl = .idle
  · obtain ⟨rfl, hc⟩ := hc
    rw [busWrite_cmd (s := s.startTurn) d hc]
    exact .accept hw hc
  have h := busWrite_sameFlags (s := s.startTurn) d hr hs hc
  refine .other (by simp [hw.1]) (by simp [EngineMoves, hw.1]) (fun ⟨hi, _, hw'⟩ => ?_) (fun _ hw' => ?_)
    (fun ⟨_, _, hw', hr'⟩ => ?_) ⟨h.done, h.keyValid, h.werr, h.ctl, h.rk, h.res⟩
  all_goals obtain ⟨rfl, rfl⟩ := HostOp.wr.inj ((hostIssues_iff_eq hw _).1 hw')
  · exact hc ⟨rfl, hi⟩
  · exact hs rfl
  · exact hr hr'

/-- A host's turn: a write, or something that leaves the flags alone. -/
theorem stepEvent_host {s : State} (hn : s.nextTurn = .host) : StepEvent s s.startTurn.hostTurn := by
  have quiet {t : State} (hw : ∀ off d, ¬ HostIssues s (.wr off d)) (h : SameFlags s t) : StepEvent s t :=
    .quiet (by simp [hn]) (by simp [EngineMoves, hn]) hw h
  obtain ⟨hno, e⟩ | ⟨hr, off, d, rest, hp, e⟩ | ⟨hr, off, rest, hp, e⟩ | ⟨hr, off, m, v, rest, hp, e⟩ :=
    hostTurn_cases s.startTurn
  case inr.inl =>
    refine stepEvent_write ⟨hn, hr, congrArg List.head? hp⟩ ?_
    rw [e, ← startTurn_program, hp, List.tail_cons]
  case inl =>
    rw [e]
    refine quiet (fun off d ⟨_, hr, hp⟩ => ?_) (by constructor <;> rfl)
    obtain hnil | hra := hno
    · rw [startTurn_program] at hnil
      simp [hnil] at hp
    · simp [hr] at hra
  all_goals
    obtain ⟨data, resp, n, hread⟩ := busRead_frame s.startTurn off
    rw [e, hread]
    rw [startTurn_program] at hp
    exact quiet (by simp [HostIssues, hp]) (by constructor <;> rfl)

/-- The engine's turn: one of its two steps, or nothing. -/
theorem stepEvent_engine {s t : State} (hn : s.nextTurn = .engine) (h : engineTurn exec s.startTurn = .next t) :
    StepEvent s t := by
  obtain ⟨hno, rfl⟩ | ⟨hr, hc, rfl⟩ | ⟨hr, hc, i, hd, hx⟩ | ⟨hr, hc, ⟨e, hd⟩, rfl⟩ := engineTurn_cases h
  · exact .quiet (by simp [hn]) (fun he => hno.resolve_left (by simp [he.2])) (by simp [HostIssues, hn])
      (by constructor <;> rfl)
  · exact .initDone ⟨hn, hr⟩ hc
  · exact .complete ⟨⟨hn, hr⟩, hc⟩ (decode_ok_iff.1 hd) (commandEffect_of_exec hx)
  · refine .illegal ⟨⟨hn, hr⟩, hc⟩ fun i hi => ?_
    rw [startTurn_pend, decode_ok_iff.2 hi] at hd
    cases hd

/-- Every step is one of the events. -/
theorem stepEvent_of_step {s t : State} (h : step s = .next t) : StepEvent s t := by
  obtain ⟨hn, rfl⟩ | ⟨hn, h⟩ | ⟨hn, rfl⟩ | ⟨hn, rfl⟩ := step_cases h
  · exact stepEvent_host hn
  · exact stepEvent_engine hn h
  · exact .reset hn
  · exact .quiet (by simp [hn]) (by simp [EngineMoves, hn]) (by simp [HostIssues, hn]) (by constructor <;> rfl)

end Sys2Proof.Machine
end

