-- ==== Sys2Proof/Proofs/StateRules.lean ====
section
/-! PROOFS. The rules of spec/10_state.md for `ctl`, DONE, KEY_VALID, WERR, the round keys and RES, each a walk
through the events of a step. -/

namespace Sys2Proof.Machine

open Sys2Proof.Statement

/-- KEYEXP is the word 0x00000004 (R122). -/
theorem encode_eq_keyexp_iff (i : Instr) : encode i = 4#32 ↔ i = .keyexp := by
  cases i <;> decide

/-- A step in which the engine does not move, or is IDLE, is no completion. -/
theorem not_completes {s : State} (he : EngineMoves s → s.ctl = .idle) : ¬ Completes s :=
  fun ⟨hm, hc⟩ => by simp [he hm] at hc

/-- Settles O15: of the events, only the completion of KEYEXP sets KEY_VALID and only reset clears it. -/
theorem keyValidIsSetByKeyexpAndClearedByReset : Obligations.KeyValidIsSetByKeyexpAndClearedByReset := by
  refine ⟨fun s t h => ?_, fun s i hi hk => exec_noKey hi hk, rfl⟩
  cases stepEvent_of_step h with
  | reset hn => simp [hn]
  | initDone he hc => simp [he.1, hc]
  | complete hc hw h => simp [h.keyValid, hc.1.1, hc.1.2, hc.2, hw, encode_eq_keyexp_iff, Completes, EngineMoves]
  | illegal hc hw => simp [hc.1.1, show s.pend.word ≠ 4#32 from hw .keyexp]
  | accept hw hc => simp [hw.1]
  | statusWrite hw => simp [hw.1]
  | rejected hw hr => simp [hw.1]
  | other hn he hacc hstat hrej h =>
    simp only [not_completes he, hn, false_and, not_false_eq_true, ne_eq, and_true, false_or, h.keyValid]

/-- Settles O13: the control state through the events of a step. -/
theorem controlStateHasOnlyTheListedTransitions : Obligations.ControlStateHasOnlyTheListedTransitions := by
  refine ⟨rfl, fun s t h => ?_⟩
  cases stepEvent_of_step h with
  | reset hn => simp [hn]
  | initDone he hc => simp [EngineMoves, he.1, he.2, hc]
  | complete hc hw h => simp [EngineMoves, h.ctl, hc.1.1, hc.1.2, hc.2]
  | illegal hc hw => simp [EngineMoves, hc.1.1, hc.1.2, hc.2]
  | accept hw hc => simp [hw.1, hw.2.1, hw.2.2, hc]
  | statusWrite hw => simp [hw.1, hw.2.2]
  | rejected hw hr => simp [hw.1, hr.2.2]
  | other hn he hacc hstat hrej h =>
    rw [h.ctl]
    cases hc : s.ctl with
    | idle =>
      rw [hc] at hacc
      simpa [-not_exists, hn] using hacc
    | init | busy =>
      have hm : ¬ EngineMoves s := mt he (by simp [hc])
      simp [-not_and, hn, hm]

/-- Settles O14: DONE through the events of a step; `irq` is IE and DONE by definition. -/
theorem doneIsSetByCompletionAndClearedAsListed : Obligations.DoneIsSetByCompletionAndClearedAsListed := by
  refine ⟨rfl, rfl, fun s t h => ⟨?_, Bool.and_eq_true_iff⟩⟩
  cases stepEvent_of_step h with
  | reset hn => simp [hn]
  | initDone he hc => simp [he.1, hc]
  | complete hc hw h => exact iff_of_true h.done (.inl hc)
  | illegal hc hw => exact iff_of_true rfl (.inl hc)
  | accept hw hc => simp [hw.1, hw.2.1, hw.2.2, hc]
  | statusWrite hw => simp [hw.1, hw.2.1, hw.2.2]
  | @rejected off d hw hr =>
    have hne : 0x00C#16 ≠ off := fun e => hr.2.1 (.inr (congrArg BitVec.toNat e.symm))
    simp [Completes, EngineMoves, hw.1, hr.2.2, hostIssues_iff_eq hw, hne]
  | other hn he hacc hstat hrej h =>
    simp only [not_completes he, hacc, hstat, hn, false_and, exists_false, not_false_eq_true, ne_eq, and_true, false_or,
      h.done]

/-- Settles O18: WERR through the events of a step. -/
theorem werrIsSetByRejectedWritesAndSticky : Obligations.WerrIsSetByRejectedWritesAndSticky := by
  refine ⟨fun s t h => ?_, rfl⟩
  cases stepEvent_of_step h with
  | reset hn => simp [hn]
  | initDone he hc => simp [he.1]
  | complete hc hw h => simp [h.werr, hc.1.1]
  | illegal hc hw => simp [hc.1.1]
  | accept hw hc => simp [hw.1, hw.2.1, hw.2.2, hc]
  | statusWrite hw => simp [hw.1, hw.2.1, hw.2.2]
  | rejected hw hr => exact iff_of_true rfl (.inl ⟨_, _, hw, hr⟩)
  | other hn he hacc hstat hrej h =>
    simp only [hrej, hstat, hn, false_and, exists_false, not_false_eq_true, ne_eq, and_true, false_or, h.werr]

/-- Settles O17: of the events, only reset and the completion of KEYEXP write the round keys. -/
theorem roundKeysAreWrittenOnlyByKeyexp : Obligations.RoundKeysAreWrittenOnlyByKeyexp := by
  intro s t h hne
  cases stepEvent_of_step h with
  | reset hn => exact .inl ⟨hn, fun i hi => by simp⟩
  | @complete i _ hc hw h =>
    by_cases hi : i = .keyexp
    · exact .inr ⟨hc, by rw [hw, hi]; rfl, by simpa [hi] using h.rk⟩
    · exact absurd (by simpa [hi] using h.rk) hne
  | other hn he hacc hstat hrej h => exact absurd h.rk hne
  | _ => exact absurd rfl hne

/-- Settles O16: of the events, only reset and the completions of the eight commands write RES. -/
theorem resIsWrittenOnlyByTheEightCommands : Obligations.ResIsWrittenOnlyByTheEightCommands := by
  refine ⟨fun s t h hne => ?_, rfl⟩
  cases stepEvent_of_step h with
  | reset hn => exact .inl ⟨hn, rfl⟩
  | complete hc hw h =>
    obtain ⟨herr, hres⟩ := h.res.resolve_left hne
    exact .inr ⟨hc, herr, hw ▸ encode_of_writes_res hres⟩
  | other hn he hacc hstat hrej h => exact absurd h.res hne
  | _ => exact absurd rfl hne

end Sys2Proof.Machine
end

