-- ==== Sys2Proof/Proofs/AddressMap.lean ====
section
/-! PROOFS. The address map read in both directions (spec/20_memory.md R80, R84, spec/10_state.md R30): which offsets
lead to the register groups, the round keys and the two memories, and which platform address leads to an offset. -/

namespace Sys2Proof.Machine

open Sys2Proof.Statement

/-! ### The register groups and the round keys -/

/-- A register with the one offset `c` among the aligned register offsets has no other offset in the window. -/
theorem locate_eq_iff_of_register {l : Loc} {c : Nat} (hmem : (∀ a, l ≠ .ivmem a) ∧ ∀ a, l ≠ .buf a)
    (hval : l ≠ .misaligned ∧ l ≠ .reserved) (hc : c % 4 = 0 ∧ c < 0x180)
    (table : ∀ m, m < 96 → (locateRegister (4 * m) = l ↔ 4 * m = c)) (p : Params) (off : Offset) :
    locate p off = l ↔ off.toNat = c := by
  unfold locate
  dsimp only
  split
  · next h => exact iff_of_false (fun e => hval.1 e.symm) (by omega)
  split
  · next h4 h =>
    obtain ⟨m, hm⟩ : ∃ m, off.toNat = 4 * m := ⟨off.toNat / 4, by omega⟩
    rw [hm]
    exact table m (by omega)
  · next h =>
    refine iff_of_false (fun e => ?_) (by omega)
    repeat' split at e
    all_goals subst e; simp at hmem hval

theorem locateRegister_group_iff (g : Group) : ∀ m, m < 96 → ∀ k : Fin 4,
    locateRegister (4 * m) = .group g k ↔ 4 * m = g.offset.toNat + 4 * k := by
  cases g <;> decide

theorem locateRegister_rk_iff : ∀ m, m < 96 → ∀ i : Fin 32,
    locateRegister (4 * m) = .rk i ↔ 4 * m = 0x100 + 4 * i := by
  decide

/-- The groups stand at multiples of 16 below 0x0C0. -/
theorem groupOffset_range (g : Group) : g.offset.toNat % 16 = 0 ∧ g.offset.toNat < 0x0C0 := by
  cases g <;> decide

/-- Register `k` of a group stands at the group's offset plus `4k`, and nowhere else. -/
theorem locate_group_iff (p : Params) (off : Offset) (g : Group) (k : Fin 4) :
    locate p off = .group g k ↔ off.toNat = g.offset.toNat + 4 * k := by
  have hg := groupOffset_range g
  exact locate_eq_iff_of_register (by simp) (by simp) (by omega)
    (fun m hm => locateRegister_group_iff g m hm k) p off

/-- The aligned offsets of a group's 16 bytes are those of its registers. -/
theorem exists_locate_group_iff (p : Params) (off : Offset) (g : Group) :
    (∃ k, locate p off = .group g k) ↔ off.toNat % 4 = 0 ∧ InGroup g.offset.toNat off.toNat := by
  have hg := groupOffset_range g
  simp only [locate_group_iff]
  constructor
  · rintro ⟨k, h⟩
    omega
  · rintro ⟨h4, hlo, hhi⟩
    exact ⟨⟨(off.toNat - g.offset.toNat) / 4, by omega⟩, by simp only; omega⟩

/-- Round key `i` stands at 0x100 plus `4i`, and nowhere else. -/
theorem locate_rk_iff (p : Params) (off : Offset) (i : Fin 32) :
    locate p off = .rk i ↔ off.toNat = 0x100 + 4 * i :=
  locate_eq_iff_of_register (by simp) (by simp) (by omega) (fun m hm => locateRegister_rk_iff m hm i) p off

theorem exists_locate_rk_iff (p : Params) (off : Offset) :
    (∃ i, locate p off = .rk i) ↔ off.toNat % 4 = 0 ∧ 0x100 ≤ off.toNat ∧ off.toNat < 0x180 := by
  simp only [locate_rk_iff]
  constructor
  · rintro ⟨i, h⟩
    omega
  · rintro ⟨h4, hlo, hhi⟩
    exact ⟨⟨(off.toNat - 0x100) / 4, by omega⟩, by simp only; omega⟩

/-! ### The memories -/

/-- The IVMEM words stand at 0x1000 on, 256 bytes of them. -/
theorem locate_ivmem_iff (p : Params) (off : Offset) (a : Nat) :
    locate p off = .ivmem a ↔ off.toNat = 0x1000 + a ∧ a < 256 ∧ a % 4 = 0 := by
  constructor
  · intro h
    obtain ⟨ho, ha, h4⟩ := locate_ivmem h
    omega
  · rintro ⟨ho, ha, h4⟩
    simp only [locate, ho]
    rw [if_neg (by omega), if_neg (by omega), if_neg (by omega), if_pos (by omega), Nat.add_sub_cancel_left]

/-- The BUF words stand at 0x8000 on, `BUF_BYTES` bytes of them. -/
theorem locate_buf_iff (p : Params) (off : Offset) (a : Nat) :
    locate p off = .buf a ↔ off.toNat = 0x8000 + a ∧ a < p.bufBytes ∧ a % 4 = 0 := by
  refine ⟨locate_buf, ?_⟩
  rintro ⟨ho, ha, h4⟩
  simp only [locate, ho]
  rw [if_neg (by omega), if_neg (by omega), if_neg (by omega), if_neg (by omega), if_neg (by omega),
    if_pos (by omega), Nat.add_sub_cancel_left]

/-- The text's base in numbers (R286). -/
theorem textBase_eq_textStart (s : State) : s.textBase = textStart s := Nat.mul_comm _ _

/-! ### Platform addresses -/

/-- Settles O28: inside the window an offset is the distance from the base, which fits in 16 bits. -/
theorem platformAddressIsBasePlusOffset : Obligations.PlatformAddressIsBasePlusOffset := by
  intro p addr off
  have hoff := off.isLt
  unfold platformOffset
  split
  · next h =>
    rw [Option.some_inj, ← BitVec.toNat_inj, BitVec.toNat_ofNat, Nat.mod_eq_of_lt (by omega)]
    omega
  · next h => simp only [reduceCtorEq, false_iff]; omega

end Sys2Proof.Machine
end

