-- ==== Sys2Proof/Proofs/BusReads.lean ====
section
/-! PROOFS. The write set of a running command in offsets (spec/40_command_protocol.md R156), and the two kinds of
read: of a current value, and of a draw (spec/20_memory.md R90, R91). -/

namespace Sys2Proof.Machine

open Sys2Proof.Statement

/-! ### The write set -/

/-- The BUF words a GCM command may write are those with a byte of the text (R156). -/
theorem overlapsText_iff (s : State) (a : Nat) :
    s.overlapsText a = true ↔
      ∃ k, k < 4 ∧ textStart s ≤ a + k ∧ a + k < textStart s + s.textLen.toNat := by
  have hlen : s.textBytes = s.textLen.toNat := rfl
  simp only [State.overlapsText, Bool.and_eq_true, decide_eq_true_eq, textBase_eq_textStart,
    hlen]
  constructor
  · rintro ⟨⟨hlen, hlo⟩, hhi⟩
    exact ⟨textStart s - a, by omega, by omega, by omega⟩
  · rintro ⟨k, hk, hlo, hhi⟩
    omega

/-- The table of R156, by kind of location. -/
theorem inWriteSet_loc_iff (s : State) (i : Instr) (l : Loc) :
    s.inWriteSet i l = true ↔
      (∃ g, Instr.writesGroup i g = true ∧ ∃ k, l = .group g k) ∨ (i = .keyexp ∧ ∃ j, l = .rk j) ∨
      (IsGcm i ∧ ∃ a, l = .buf a ∧ s.overlapsText a = true) := by
  cases l <;> simp [State.inWriteSet]

/-- The table of R156, by kind of offset. -/
theorem inWriteSet_offset_iff (s : State) (i : Instr) (a : Nat) :
    InWriteSet s i a ↔
      (∃ g : Group, Instr.writesGroup i g = true ∧ InGroup g.offset.toNat a) ∨
      (i = .keyexp ∧ 0x100 ≤ a ∧ a < 0x180) ∨ (IsGcm i ∧ InText s a) := by
  cases i <;> simp [InWriteSet, Instr.writesGroup, InGroup, Group.offset, or_and_right, exists_or]

/-- The aligned offsets of the text's words. -/
theorem exists_locate_text_iff (s : State) (off : Offset) :
    (∃ a, locate s.params off = .buf a ∧ s.overlapsText a = true) ↔ off.toNat % 4 = 0 ∧ InText s off.toNat := by
  simp only [locate_buf_iff, overlapsText_iff, InText]
  constructor
  · rintro ⟨a, ⟨ho, ha, h4⟩, k, hk⟩
    exact ⟨by omega, by omega, by omega, k, by rwa [ho, Nat.add_sub_cancel_left]⟩
  · rintro ⟨h4, hlo, hhi, k, hk⟩
    exact ⟨off.toNat - 0x8000, by omega, k, hk⟩

/-- The table of R156 for the location an offset leads to: of the offsets, the aligned ones. -/
theorem inWriteSet_locate_iff (s : State) (i : Instr) (off : Offset) :
    s.inWriteSet i (locate s.params off) = true ↔ off.toNat % 4 = 0 ∧ InWriteSet s i off.toNat := by
  rw [inWriteSet_loc_iff, inWriteSet_offset_iff, exists_locate_text_iff, exists_locate_rk_iff]
  simp only [exists_locate_group_iff, and_left_comm (b := off.toNat % 4 = 0), exists_and_left, ← and_or_left]

/-! ### Which reads are draws -/

/-- Outside BUSY, and while an illegal word runs, no command runs. -/
theorem running_eq_some_iff (s : State) (i : Instr) :
    s.running = some i ↔ s.ctl = .busy ∧ decode s.pend.word = .ok i := by
  unfold State.running
  cases decode s.pend.word <;> simp [Except.toOption]

/-- A location the running command does not write, STATUS under KEYEXP apart, is read live (R90). -/
theorem busyRead_eq_none_of_running {s : State} {l : Loc}
    (h : ∀ i, s.running = some i → s.inWriteSet i l = false ∧ ¬ (l = .status ∧ i = .keyexp)) :
    s.busyRead l = none := by
  unfold State.busyRead
  cases hr : s.running with
  | none => rfl
  | some i =>
    obtain ⟨hw, hk⟩ := h i hr
    simp [hw, hk]

/-- The reads that are no draws find a live location. -/
theorem busyRead_eq_none_of_liveRead {s : State} {off : Offset} (h : LiveRead s off) :
    s.busyRead (locate s.params off) = none := by
  refine busyRead_eq_none_of_running fun i hi => ?_
  obtain ⟨hc, hd⟩ := (running_eq_some_iff s i).1 hi
  obtain ⟨hw, hk⟩ := h hc i hd
  refine ⟨Bool.eq_false_iff.2 fun e => hw ((inWriteSet_locate_iff s i off).1 e).2, fun ⟨hl, he⟩ => ?_⟩
  exact hk ⟨he, (locate_eq_status_iff _ _).1 hl⟩

/-- No command writes IVMEM. -/
theorem busyRead_ivmem (s : State) (a : Nat) : s.busyRead (.ivmem a) = none :=
  busyRead_eq_none_of_running fun i _ => ⟨rfl, by simp⟩

/-- An aligned read in the write set is a draw of the whole word. -/
theorem busyRead_of_inWriteSet {s : State} {i : Instr} {l : Loc} (hi : s.running = some i)
    (hw : s.inWriteSet i l = true) : s.busyRead l = some (Config.busDraw s.drawCount) := by
  have hs : l ≠ .status := by rintro rfl; simp [State.inWriteSet] at hw
  simp [State.busyRead, hi, hw, hs]

/-- STATUS under KEYEXP: the two context fields are drawn (R156). -/
theorem busyRead_status_keyexp {s : State} (hi : s.running = some .keyexp) :
    s.busyRead .status = some (s.statusWith ((Config.busDraw s.drawCount).extractLsb' 2 1)
      ((Config.busDraw s.drawCount).extractLsb' 8 2)) := by
  simp [State.busyRead, hi]

/-- A draw is answered only while BUSY. -/
theorem busy_of_busyRead {s : State} {l : Loc} {d : Word} (h : s.busyRead l = some d) : s.ctl = .busy := by
  by_contra hc
  rw [busyRead_of_not_busy hc] at h
  cases h

/-! ### The two kinds of read as a step -/

theorem step_rd_live {s : State} {off : Offset} (hi : HostIssues s (.rd off))
    (hb : s.busyRead (locate s.params off) = none) :
    step s = .next (answered s (s.valueAt (locate s.params off)) (locate s.params off).readResp) := by
  obtain ⟨hn, hr, hp⟩ := hi
  exact step_read_live hn hr hp hb

theorem step_rd_draw {s : State} {off : Offset} {d : Word} (hi : HostIssues s (.rd off))
    (hb : s.busyRead (locate s.params off) = some d) :
    step s = .next { answered s d .okay with drawCount := s.drawCount + 1 } := by
  obtain ⟨hn, hr, hp⟩ := hi
  exact step_read_draw hn hr hp hb

theorem valueAt_answered (s : State) (v : Word) (r : Resp) (l : Loc) : (answered s v r).valueAt l = s.valueAt l := by
  cases l <;> rfl

/-- Settles O20: a live read leaves the value and what runs as they are, so the next read finds both again. -/
theorem readsHaveNoSideEffects : Obligations.ReadsHaveNoSideEffects := by
  intro s off rest more ht hp hr
  have hi : HostIssues s (.rd off) := ⟨by simp [State.nextTurn, ht], hr, by simp [hp]⟩
  cases hb : s.busyRead (locate s.params off) with
  | none =>
    have hi' (v r) : HostIssues (answered s v r) (.rd off) :=
      ⟨by simp [State.nextTurn, answered, afterLine, ht], hr, by simp [answered, afterLine, hp]⟩
    refine ⟨_, _, _, _, step_rd_live hi hb, step_rd_live (hi' _ _) hb, rfl, fun _ => ?_, fun h => absurd rfl h⟩
    rw [valueAt_answered]
    rfl
  | some d =>
    have hn : State.nextTurn { answered s d .okay with drawCount := s.drawCount + 1 } = .host := by
      simp [State.nextTurn, answered, afterLine, ht]
    exact ⟨_, _, d, .okay, step_rd_draw hi hb, step_host hn, rfl, fun h => absurd h (Nat.succ_ne_self _),
      fun _ => ⟨rfl, busy_of_busyRead hb⟩⟩

/-! ### Reads while BUSY -/

/-- KEY_VALID and ACTIVE_BACKEND stand in bits 2, 8 and 9 of STATUS and in no other (R36). -/
theorem getLsbD_statusWith_eq (s : State) (kv kv' : BitVec 1) (ab ab' : BitVec 2) {n : Nat} (h2 : n ≠ 2) (h8 : n ≠ 8)
    (h9 : n ≠ 9) : (s.statusWith kv ab).getLsbD n = (s.statusWith kv' ab').getLsbD n := by
  simp only [State.statusWith, BitVec.getLsbD_append]
  grind

/-- BUSY is bit 0 of STATUS (R36). -/
theorem getLsbD_statusWith_zero (s : State) (kv : BitVec 1) (ab : BitVec 2) :
    (s.statusWith kv ab).getLsbD 0 = decide (s.ctl = .busy) := by
  simp only [State.statusWith, BitVec.getLsbD_append, ← busyFlag_eq_decide]
  cases s.busyFlag <;> simp [flagBit]

theorem legal_encode (i : Instr) : CommandWord.legal (encode i) = true := by cases i <;> decide

/-- An illegal word has no write set (R156). -/
theorem liveRead_of_not_legal {s : State} (h : CommandWord.legal s.pend.word = false) (off : Offset) :
    LiveRead s off := by
  intro _ i hi
  rw [eq_encode_of_decode hi, legal_encode] at h
  cases h

/-- Settles O26: the write set decides between the two kinds of read. -/
theorem busyReadsOfTheWriteSetAreDraws : Obligations.BusyReadsOfTheWriteSetAreDraws := by
  refine ⟨fun s off i hi hc hd hm => ?_, fun s off hi _ hlive => ?_, fun s off h => liveRead_of_not_legal h off⟩
  · have hrun : s.running = some i := (running_eq_some_iff s i).2 ⟨hc, hd⟩
    refine ⟨fun hw => ?_, fun hk hoff => ?_⟩
    · exact step_rd_draw hi (busyRead_of_inWriteSet hrun ((inWriteSet_locate_iff s i off).2 ⟨not_not.1 hm, hw⟩))
    · subst hk hoff
      refine ⟨_, step_rd_draw hi (busyRead_status_keyexp hrun), fun n => ?_, ?_⟩
      · exact getLsbD_statusWith_eq s _ _ _ _
      · simp [getLsbD_statusWith_zero, hc]
  · rw [step_rd_live hi (busyRead_eq_none_of_liveRead hlive)]
    have hresp := readResp_iff s.params off
    split
    · next h => rw [hresp.2 h]
    · next h =>
      cases hr : (locate s.params off).readResp with
      | okay => rfl
      | slverr => exact absurd (hresp.1 hr) h

/-! ### Reads of registers -/

/-- CAP in numbers (R33). -/
theorem capReg_eq (p : Params) :
    capReg p = BitVec.ofNat 32 (p.bufBytes / 16 % 65536 * 65536 + 0x1000 + p.hasHwsub.toNat) := by
  refine BitVec.eq_of_toNat_eq ?_
  have hb : p.hasHwsub.toNat ≤ 1 := Bool.toNat_le _
  simp only [capReg, toNat_append_eq_add, flagBit_toNat, BitVec.ofNat_eq_ofNat, BitVec.toNat_ofNat]
  omega

/-- CTRL in numbers (R34). -/
theorem ctrlReg_eq (s : State) : s.ctrlReg = BitVec.ofNat 32 (s.ctrlIe.toNat + 16 * s.ctrlBackend.bits.toNat) := by
  rw [← ctrlReg_toNat, BitVec.ofNat_toNat, BitVec.setWidth_eq]

/-- ERR in numbers (R44). -/
theorem errReg_eq (s : State) : s.errReg = BitVec.ofNat 32 s.err.bits.toNat := by
  unfold State.errReg
  cases s.err <;> rfl

/-- A live read of a location that has a value. -/
theorem step_rd_value {s : State} {off : Offset} {l : Loc} {v : Word} (hi : HostIssues s (.rd off))
    (hlive : LiveRead s off) (hl : locate s.params off = l) (hr : l.readResp = .okay) (hv : v = s.valueAt l) :
    step s = .next (answered s v .okay) := by
  rw [step_rd_live hi (busyRead_eq_none_of_liveRead hlive), hl, hr, hv]

/-- Settles O23: each register at its offset, by the address map. -/
theorem registerReadsReturnCurrentValues : Obligations.RegisterReadsReturnCurrentValues := by
  intro s off v hi hlive h
  obtain ⟨rfl, hv⟩ | ⟨rfl, hv⟩ | ⟨rfl, hv⟩ | ⟨rfl, hv⟩ | ⟨rfl, hv⟩ | ⟨rfl, hv⟩ | ⟨rfl, hv⟩ | ⟨rfl, hv⟩ | ⟨rfl, hv⟩ |
    ⟨w, b, k, hmem, hk, hoff, hv⟩ | ⟨i, hlt, hoff, hv⟩ := h
  · exact step_rd_value (l := .id) hi hlive rfl rfl hv
  · exact step_rd_value (l := .cap) hi hlive rfl rfl (hv.trans (capReg_eq _).symm)
  · exact step_rd_value (l := .ctrl) hi hlive rfl rfl (hv.trans (ctrlReg_eq s).symm)
  · exact step_rd_value (l := .status) hi hlive rfl rfl hv
  · exact step_rd_value (l := .cmd) hi hlive rfl rfl hv
  · exact step_rd_value (l := .err) hi hlive rfl rfl (hv.trans (errReg_eq s).symm)
  · exact step_rd_value (l := .ivLen) hi hlive rfl rfl hv
  · exact step_rd_value (l := .aadLen) hi hlive rfl rfl hv
  · exact step_rd_value (l := .textLen) hi hlive rfl rfl hv
  · have hgroup : (w, b) ∈ [Group.key, .opa, .opb, .res, .h, .y, .ctr, .tag].map
        fun g => (s.group g, g.offset.toNat) := hmem
    obtain ⟨g, -, e⟩ := List.mem_map.1 hgroup
    cases e
    exact step_rd_value hi hlive ((locate_group_iff s.params off g ⟨k, hk⟩).2 hoff) rfl hv
  · refine step_rd_value hi hlive ((locate_rk_iff s.params off ⟨i, hlt⟩).2 hoff) rfl (hv.trans ?_)
    simp [keyAt, State.valueAt, hlt]

end Sys2Proof.Machine
end

