-- ==== Sys2Proof/Proofs/BusWrites.lean ====
section
/-! PROOFS. What a write in IDLE stores in a register (spec/20_memory.md R85), and the byte lanes of the two memory
windows (spec/20_memory.md R87). -/

namespace Sys2Proof.Machine

open Sys2Proof.Statement

/-! ### Writes in IDLE -/

/-- In IDLE every write is performed that is not refused. -/
theorem step_wr_idle {s : State} {off : Offset} {d : Word} {l : Loc} (hi : HostIssues s (.wr off d))
    (hc : s.ctl = .idle) (hl : locate s.params off = l) (hw : l.refusesWrites = false) :
    step s = .next { s.startTurn.store l d with resp := some (.write .okay), program := s.program.tail } := by
  obtain ⟨hn, hr, hp⟩ := hi
  subst hl
  rw [step_write hn hr hp, busWrite_performed (s := s.startTurn) d hw (.inl hc)]
  rfl

/-! ### Writes to registers -/

/-- Only the group RES is read-only (R48). -/
theorem refusesWrites_group {g : Group} (hg : g ≠ .res) (k : Fin 4) : (Loc.group g k).refusesWrites = false := by
  cases g
  case res => exact absurd rfl hg
  all_goals rfl

theorem wordReplaced_blockSetWord (v : Block) (k : Fin 4) (d : Word) : WordReplaced v (blockSetWord v k d) k d := by
  intro j hj
  split
  · next h => subst h; exact blockWord_setWord_self v k d
  · next h => exact blockWord_setWord_ne v k ⟨j, hj⟩ d fun e => h (congrArg Fin.val e)

/-- A write to register `k` of a group replaces that word of the group. -/
theorem step_wr_group {s : State} {off : Offset} {d : Word} (hi : HostIssues s (.wr off d)) (hc : s.ctl = .idle)
    {k : Nat} (hk : k < 4) (g : Group) (hg : g ≠ .res) (hoff : off.toNat = g.offset.toNat + 4 * k) :
    ∃ v, WordReplaced (s.group g) v k d ∧
      step s = .next { (afterLine s).setGroup g v with resp := some (.write .okay) } := by
  refine ⟨_, wordReplaced_blockSetWord _ ⟨k, hk⟩ d, ?_⟩
  rw [step_wr_idle hi hc ((locate_group_iff s.params off g ⟨k, hk⟩).2 hoff) (refusesWrites_group hg _)]
  cases g <;> rfl

/-- Settles O24: each read-write register at its offset, by the address map. -/
theorem registerWritesStoreTheWord : Obligations.RegisterWritesStoreTheWord := by
  intro s off d hi hc
  refine ⟨fun h => ?_, fun h => ?_, fun h => ?_, fun k hk => ?_⟩
  · subst h
    exact step_wr_idle (l := .ivLen) hi hc rfl rfl
  · subst h
    exact step_wr_idle (l := .aadLen) hi hc rfl rfl
  · subst h
    exact step_wr_idle (l := .textLen) hi hc rfl rfl
  · exact ⟨step_wr_group hi hc hk .key nofun, step_wr_group hi hc hk .opa nofun, step_wr_group hi hc hk .opb nofun,
      step_wr_group hi hc hk .h nofun, step_wr_group hi hc hk .y nofun, step_wr_group hi hc hk .ctr nofun,
      step_wr_group hi hc hk .tag nofun⟩

/-! ### The memory windows -/

/-- The lanes as sums of shifted bytes (R87). -/
theorem wordOfLanes_eq_laneWord (b0 b1 b2 b3 : Byte) : wordOfLanes b0 b1 b2 b3 = laneWord b0 b1 b2 b3 := by
  refine BitVec.eq_of_getLsbD_eq fun i hi => ?_
  simp only [getLsbD_wordOfLanes, laneWord, BitVec.getLsbD_or, BitVec.getLsbD_shiftLeft, BitVec.getLsbD_setWidth]
  have hbyte (b : Byte) (j : Nat) (hj : 8 ≤ j) : b.getLsbD j = false := BitVec.getLsbD_of_ge b j hj
  grind

theorem lanesOfWord_getElem (d : Word) (k : Nat) (hk : k < (lanesOfWord d).length) :
    (lanesOfWord d)[k] = d.extractLsb' (8 * k) 8 := by
  simp [lanesOfWord]

/-- A data word written from `a` on is read back lane by lane, and no other byte changes. -/
theorem get?_putBytes_lanes (m : Memory) (a : Nat) (d : Word) (x : Nat) :
    Memory.get? (Memory.putBytes m a (lanesOfWord d)) x =
      if a ≤ x ∧ x < a + 4 then some (d.extractLsb' (8 * (x - a)) 8) else Memory.get? m x := by
  split
  · next h =>
    obtain ⟨k, rfl⟩ := Nat.exists_eq_add_of_le h.1
    rw [get?_putBytes_inside _ _ _ _ (by rw [lanesOfWord_length]; omega), lanesOfWord_getElem, Nat.add_sub_cancel_left]
  · next h => exact get?_putBytes_outside _ _ _ _ (by rw [lanesOfWord_length]; omega)

theorem bufByte_bufWrite_lanes (s : State) (a : Nat) (d : Word) (x : Nat) :
    (s.bufWrite a (lanesOfWord d)).bufByte x =
      if a ≤ x ∧ x < a + 4 then d.extractLsb' (8 * (x - a)) 8 else s.bufByte x := by
  rw [State.bufByte, bufWrite_buf, get?_putBytes_lanes]
  split <;> rfl

theorem ivByte_ivWrite_lanes (s : State) (a : Nat) (d : Word) (x : Nat) :
    (s.ivWrite a (lanesOfWord d)).ivByte x =
      if a ≤ x ∧ x < a + 4 then d.extractLsb' (8 * (x - a)) 8 else s.ivByte x := by
  rw [State.ivByte, ivWrite_ivmem, get?_putBytes_lanes]
  split <;> rfl

/-- Settles O25: both windows, by the address map and the lanes of a word. -/
theorem memoryWindowsHaveLittleEndianLanes : Obligations.MemoryWindowsHaveLittleEndianLanes := by
  refine ⟨fun s off a hi h4 => ⟨fun ho ha => ?_, fun ho ha hlive => ?_⟩,
    fun s off a d hi h4 hc => ⟨fun ho ha => ?_, fun ho ha => ?_⟩⟩
  · have hl := (locate_ivmem_iff s.params off a).2 ⟨ho, ha, h4⟩
    rw [step_rd_live hi (hl ▸ busyRead_ivmem s a), hl, ← wordOfLanes_eq_laneWord]
    rfl
  · have hl := (locate_buf_iff s.params off a).2 ⟨ho, ha, h4⟩
    exact step_rd_value hi hlive hl rfl (wordOfLanes_eq_laneWord _ _ _ _).symm
  · have hl := (locate_ivmem_iff s.params off a).2 ⟨ho, ha, h4⟩
    exact ⟨_, step_wr_idle hi hc hl rfl, rfl, ivByte_ivWrite_lanes s a d⟩
  · have hl := (locate_buf_iff s.params off a).2 ⟨ho, ha, h4⟩
    exact ⟨_, step_wr_idle hi hc hl rfl, rfl, bufByte_bufWrite_lanes s a d⟩

end Sys2Proof.Machine
end

