-- ==== Sys2Proof/Proofs/GcmOperands.lean ====
section
/-! PROOFS. The GCM commands are functions of the registers and of the bytes of the IV, the AAD and the text
(spec/20_memory.md R99, spec/45_ctr_gcm.md R286): states with the same inputs give the same outputs. -/

namespace Sys2Proof.Machine

open Sys2Proof.Statement

/-! ### Reads of agreeing memories -/

theorem bufRead_eq_iff (s s' : State) (off n : Nat) :
    s'.bufRead off n = s.bufRead off n ↔ ∀ k, k < n → s'.bufByte (off + k) = s.bufByte (off + k) := by
  simp [State.bufRead]

theorem ivRead_eq_iff (s s' : State) (off n : Nat) :
    s'.ivRead off n = s.ivRead off n ↔ ∀ k, k < n → s'.ivByte (off + k) = s.ivByte (off + k) := by
  simp [State.ivRead]

/-! ### Inputs and outputs of a GCM command -/

/-- All that a GCM command reads is the same in both states. -/
structure SameGcmInputs (s s' : State) : Prop where
  keyValid : s'.keyValid = s.keyValid
  lengthsOk : s'.lengthsOk = s.lengthsOk
  rk : s'.rk = s.rk
  tag : s'.tag = s.tag
  textBase : s'.textBase = s.textBase
  iv : s'.ivOperand = s.ivOperand
  aad : s'.aadOperand = s.aadOperand
  text : s'.textOperand = s.textOperand

/-- The code, the tag and the text, `n` bytes from `base` on, are the same in both states. -/
def SameGcmOutputs (base n : Nat) (t t' : State) : Prop :=
  t'.err = t.err ∧ t'.tag = t.tag ∧ t'.bufRead base n = t.bufRead base n

variable {s s' : State}

theorem SameGcmInputs.clearGs (h : SameGcmInputs s s') : SameGcmInputs s.clearGs s'.clearGs := { h with }

theorem SameGcmInputs.gcmJ0 (h : SameGcmInputs s s') : s'.gcmJ0 = s.gcmJ0 := by
  rw [State.gcmJ0, State.gcmJ0, h.rk, h.iv]

theorem SameGcmInputs.textBytes (h : SameGcmInputs s s') : s'.textBytes = s.textBytes := by
  simpa [State.textOperand] using congrArg List.length h.text

/-- A failure writes no tag and no text. -/
theorem SameGcmInputs.finish (h : SameGcmInputs s s') (c : ErrCode) :
    SameGcmOutputs s.textBase s.textBytes (s.finish c) (s'.finish c) := by
  refine ⟨rfl, h.tag, ?_⟩
  have htext := h.text
  rwa [State.textOperand, h.textBase, h.textBytes] at htext

/-- The checks decide alike, so the outputs are the same when they are after the checks. -/
theorem SameGcmInputs.withGcmChecks (h : SameGcmInputs s s') {go : State → Host.Outcome State Fault Refusal}
    (hgo : ∃ t t', go s.clearGs = .next t ∧ go s'.clearGs = .next t' ∧ SameGcmOutputs s.textBase s.textBytes t t') :
    ∃ t t', Machine.withGcmChecks s go = .next t ∧ Machine.withGcmChecks s' go = .next t' ∧
      SameGcmOutputs s.textBase s.textBytes t t' := by
  simp only [withGcmChecks_next, h.keyValid, h.lengthsOk]
  cases s.keyValid with
  | false => exact ⟨_, _, .inr (.inl ⟨rfl, rfl⟩), .inr (.inl ⟨rfl, rfl⟩), h.clearGs.finish _⟩
  | true =>
    cases s.lengthsOk with
    | false => exact ⟨_, _, .inr (.inr ⟨rfl, rfl, rfl⟩), .inr (.inr ⟨rfl, rfl, rfl⟩), h.clearGs.finish _⟩
    | true => simpa using hgo

/-- A string that replaces the text is the text of both states. -/
theorem SameGcmInputs.bufRead_replaceText (h : SameGcmInputs s s') {c : List Byte} (hc : c.length = s.textBytes) :
    (s'.bufWrite s'.textBase c).bufRead s.textBase s.textBytes =
      (s.bufWrite s.textBase c).bufRead s.textBase s.textBytes := by
  rw [h.textBase, ← hc, bufRead_bufWrite_same, bufRead_bufWrite_same]

theorem ctrText_textOperand_length (s : State) (rk : Vector Word 32) (j0 : Block) :
    (ctrText rk j0 s.textOperand).length = s.textBytes := by
  rw [ctrText_length, State.textOperand, bufRead_length]

theorem SameGcmInputs.gcmEncrypt (h : SameGcmInputs s s') :
    ∃ t t', exec .gcmEncrypt s = .next t ∧ exec .gcmEncrypt s' = .next t' ∧
      SameGcmOutputs s.textBase s.textBytes t t' := by
  simp only [exec, execGcmEncrypt]
  refine h.withGcmChecks ?_
  simp only [h.clearGs.rk, h.clearGs.gcmJ0, h.clearGs.text, h.clearGs.aad]
  exact ⟨_, _, rfl, rfl, rfl, rfl, h.clearGs.bufRead_replaceText (ctrText_textOperand_length _ _ _)⟩

theorem SameGcmInputs.gcmDecrypt (h : SameGcmInputs s s') :
    ∃ t t', exec .gcmDecrypt s = .next t ∧ exec .gcmDecrypt s' = .next t' ∧
      SameGcmOutputs s.textBase s.textBytes t t' := by
  simp only [exec, execGcmDecrypt]
  refine h.withGcmChecks ?_
  simp only [h.clearGs.rk, h.clearGs.gcmJ0, h.clearGs.text, h.clearGs.aad, h.clearGs.tag]
  split
  · exact ⟨_, _, rfl, rfl, rfl, h.tag, h.clearGs.bufRead_replaceText (ctrText_textOperand_length _ _ _)⟩
  · exact ⟨_, _, rfl, rfl, h.clearGs.finish _⟩

/-- States of equal registers that agree on the bytes of the IV, the AAD and the text (R286). -/
theorem sameGcmInputs_of_bytes (hs : s' = { s with ivmem := s'.ivmem, buf := s'.buf, epoch := s'.epoch })
    (hiv : ∀ a, a < s.ivLen.toNat → s'.ivByte a = s.ivByte a)
    (hbuf : ∀ a, a < s.aadLen.toNat ∨ (textStart s ≤ a ∧ a < textStart s + s.textLen.toNat) →
      s'.bufByte a = s.bufByte a) : SameGcmInputs s s' := by
  have hivBytes : s'.ivBytes = s.ivBytes := (congrArg State.ivBytes hs :)
  have haadBytes : s'.aadBytes = s.aadBytes := (congrArg State.aadBytes hs :)
  have htextBytes : s'.textBytes = s.textBytes := (congrArg State.textBytes hs :)
  have htextBase : s'.textBase = s.textBase := (congrArg State.textBase hs :)
  exact
    { keyValid := (congrArg State.keyValid hs :)
      lengthsOk := (congrArg State.lengthsOk hs :)
      rk := (congrArg State.rk hs :)
      tag := (congrArg State.tag hs :)
      textBase := htextBase
      iv := by
        rw [State.ivOperand, hivBytes]
        exact (ivRead_eq_iff _ _ _ _).2 fun k hk => hiv _ (by rwa [Nat.zero_add])
      aad := by
        rw [State.aadOperand, haadBytes]
        exact (bufRead_eq_iff _ _ _ _).2 fun k hk => hbuf _ (.inl (by rwa [Nat.zero_add]))
      text := by
        rw [State.textOperand, State.textOperand, htextBase, htextBytes, textBase_eq_textStart]
        exact (bufRead_eq_iff _ _ _ _).2 fun k hk =>
          hbuf _ (.inr ⟨Nat.le_add_right _ _, Nat.add_lt_add_left hk _⟩) }

/-- Settles O55: the listed bytes are the inputs, and the same inputs give the same outputs. -/
theorem gcmReadsOnlyTheListedBytes : Obligations.GcmReadsOnlyTheListedBytes := by
  intro s s' i hi hs hiv hbuf
  have h : SameGcmInputs s s' := sameGcmInputs_of_bytes hs hiv hbuf
  have hout : ∃ t t', exec i s = .next t ∧ exec i s' = .next t' ∧ SameGcmOutputs s.textBase s.textBytes t t' := by
    obtain rfl | rfl := hi
    · exact h.gcmEncrypt
    · exact h.gcmDecrypt
  obtain ⟨t, t', hx, hx', herr, htag, htext⟩ := hout
  refine ⟨t, t', hx, hx', herr, htag, fun a hlo hhi => ?_⟩
  obtain ⟨k, rfl⟩ := Nat.exists_eq_add_of_le hlo
  rw [textBase_eq_textStart, bufRead_eq_iff] at htext
  exact htext k (Nat.lt_of_add_lt_add_left hhi)

end Sys2Proof.Machine
end

