-- ==== Sys2Proof/Proofs/Invariant.lean ====
section
/-! PROOFS. Every step keeps the invariant of log entry 4 (spec/10_state.md R50 to R58, spec/70_reset_and_hazards.md
R350 to R352): one lemma per operation on the state, then the turns. An operation's lemma names only the parts of the
invariant the operation touches; the rest is the invariant before it. -/

namespace Sys2Proof.Machine

variable {s t : State}

/-! ### The end of a command -/

/-- A completion from BUSY: the table stays built, and what the invariant says of BUSY and INIT no longer applies. -/
theorem State.Inv.finish (h : s.Inv) (hr : s.resetAsserted = false) (hc : s.ctl = .busy) (c : ErrCode) :
    (s.finish c).Inv :=
  have hbuilt : s.tt = .built := h.tableBuilt.2 (by simp [hc])
  { h with
    tableBuilt := by simp [hbuilt]
    busyLive := nofun
    initQuiet := nofun
    heldInReset := by simp [hr] }

theorem State.Inv.clearGs (h : s.Inv) : s.clearGs.Inv := { h with gsClear := rfl }

/-- A byte string that ends within BUF keeps it canonical. -/
theorem State.Inv.bufWrite (h : s.Inv) {a : Nat} {bs : List Byte} (hb : a + bs.length ≤ s.params.bufBytes) :
    (s.bufWrite a bs).Inv :=
  { h with bufWf := wf_putBytes bs h.bufWf hb }

theorem State.Inv.ivWrite (h : s.Inv) {a : Nat} {bs : List Byte} (hb : a + bs.length ≤ 256) :
    (s.ivWrite a bs).Inv :=
  { h with ivmemWf := wf_putBytes bs h.ivmemWf hb }

theorem State.Inv.setGroup (h : s.Inv) (g : Group) (v : Block) : (s.setGroup g v).Inv := by
  cases g <;> exact { h with }

/-- HardwareAccelerated is never the backend of a context without the primitive (R210). -/
theorem effectiveBackend_ne_hardware {p : Params} (hp : p.hasHwsub = false) (b : Backend) :
    effectiveBackend p b ≠ .hardwareAccelerated := by
  cases b <;> simp [effectiveBackend, hp]

/-! ### The commands -/

/-- KEYEXP's effect: there is a context, of a backend the engine has. -/
theorem State.Inv.newContext (h : s.Inv) (hc : s.ctl = .busy) (rk : Vector Word 32) (b : Backend) :
    State.Inv { s with rk := rk, keyValid := true, activeBackend := effectiveBackend s.params b } :=
  { h with
    initQuiet := by simp [hc]
    noContext := nofun
    noHwsub := fun hp => effectiveBackend_ne_hardware hp b }

/-- The text of a GCM command with good lengths is replaced inside BUF (R285). -/
theorem State.Inv.replaceText (h : s.Inv) (hl : s.lengthsOk = true) (rk : Vector Word 32) (j0 : Block) :
    (s.bufWrite s.textBase (ctrText rk j0 s.textOperand)).Inv := by
  simp only [State.lengthsOk, Bool.and_eq_true, decide_eq_true_eq] at hl
  obtain ⟨-, hfit⟩ := hl
  exact h.bufWrite (by rwa [ctrText_textOperand_length])

/-- A command that has applied its effect, the state `u` before its completion. -/
theorem State.Inv.of_complete {u : State} (hx : complete u = .next t) (h : u.Inv) (hr : u.resetAsserted = false)
    (hc : u.ctl = .busy) : t.Inv :=
  complete_next.1 hx ▸ h.finish hr hc .ok

/-- The completion of a legal command. -/
theorem State.Inv.exec (h : s.Inv) (hr : s.resetAsserted = false) (hc : s.ctl = .busy) {i : Instr}
    (hx : Machine.exec i s = .next t) : t.Inv := by
  cases i
  case nop | sub | roundT | roundTp | gfmul | ghashBlock => exact .of_complete hx { h with } hr hc
  case keyexp => exact .of_complete hx (h.newContext hc _ _) hr hc
  case encBlock | decBlock | ghashInit | ctrBlock =>
    simp only [Machine.exec, execEncBlock, execDecBlock, execGhashInit, execCtrBlock] at hx
    obtain ⟨-, hx⟩ | ⟨-, rfl⟩ := withContext_next.1 hx
    · exact .of_complete hx { h with } hr hc
    · exact h.finish hr hc .noKey
  case gcmEncrypt =>
    simp only [Machine.exec, execGcmEncrypt] at hx
    obtain ⟨-, hl, hx⟩ | ⟨-, rfl⟩ | ⟨-, -, rfl⟩ := withGcmChecks_next.1 hx
    · exact .of_complete hx { h.clearGs.replaceText hl _ _ with } hr hc
    · exact h.clearGs.finish hr hc .noKey
    · exact h.clearGs.finish hr hc .badLength
  case gcmDecrypt =>
    simp only [Machine.exec, execGcmDecrypt] at hx
    obtain ⟨-, hl, hx⟩ | ⟨-, rfl⟩ | ⟨-, -, rfl⟩ := withGcmChecks_next.1 hx
    · split at hx
      · exact .of_complete hx (h.clearGs.replaceText hl _ _) hr hc
      · exact raiseError_next.1 hx ▸ h.clearGs.finish hr hc .authFail
    · exact h.clearGs.finish hr hc .noKey
    · exact h.clearGs.finish hr hc .badLength

/-! ### The turns -/

theorem State.Inv.startTurn (h : s.Inv) : s.startTurn.Inv := { h with }

theorem State.Inv.initDone (h : s.Inv) (hr : s.resetAsserted = false) : s.initDone.Inv :=
  { h with
    tableBuilt := by simp
    busyLive := nofun
    initQuiet := nofun
    heldInReset := by simp [hr] }

theorem State.Inv.engineTurn (h : s.Inv) (hx : Machine.engineTurn Machine.exec s = .next t) : t.Inv := by
  obtain ⟨-, rfl⟩ | ⟨hr, -, rfl⟩ | ⟨hr, hc, i, -, hx⟩ | ⟨hr, hc, -, rfl⟩ := engineTurn_cases hx
  · exact h
  · exact h.initDone hr
  · exact h.exec hr hc hx
  · exact h.finish hr hc .illegalCmd

/-- Reset values have the invariant, with the engine held in INIT (R350). -/
theorem State.Inv.assertReset (h : s.Inv) : s.assertReset.Inv where
  paramsLegal := h.paramsLegal
  ivmemWf := by simp [Memory.wf]
  bufWf := by simp [Memory.wf]
  gsClear := rfl
  tableBuilt := by simp
  busyLive := nofun
  initQuiet _ := ⟨rfl, rfl, rfl⟩
  noContext _ := ⟨rfl, rfl⟩
  noHwsub _ := nofun
  heldInReset _ := rfl

theorem State.Inv.releaseReset (h : s.Inv) : s.releaseReset.Inv := { h with heldInReset := nofun }

/-! ### The slave port -/

/-- Acceptance clears DONE and ERR and takes CMD and the running word from one write (R153). -/
theorem State.Inv.accept (h : s.Inv) (hc : s.ctl = .idle) (w : Word) : (s.accept w).Inv :=
  have hbuilt : s.tt = .built := h.tableBuilt.2 (by simp [hc])
  { h with
    tableBuilt := by simp [hbuilt]
    busyLive := fun _ => ⟨rfl, rfl, rfl⟩
    initQuiet := nofun
    heldInReset := fun hr => absurd (h.heldInReset hr) (by simp [hc]) }

/-- A write to STATUS sets no flag, so DONE stays 0 where it was (R36). -/
theorem State.Inv.writeStatus (h : s.Inv) (d : Word) : (s.writeStatus d).Inv :=
  { h with
    busyLive := fun hb => by
      obtain ⟨hdone, hrest⟩ := h.busyLive hb
      exact ⟨by simp [hdone], hrest⟩
    initQuiet := fun hi => by
      obtain ⟨hdone, hrest⟩ := h.initQuiet hi
      exact ⟨by simp [hdone], hrest⟩ }

/-- A performed write: to any location in IDLE, else to CTRL or STATUS. -/
theorem State.Inv.store (h : s.Inv) {off : Offset}
    (hc : s.ctl = .idle ∨ (locate s.params off).alwaysWritable = true) (d : Word) :
    (s.store (locate s.params off) d).Inv := by
  cases hl : locate s.params off with
  | status => exact h.writeStatus d
  | cmd => exact h.accept (hc.resolve_right (by simp [hl, Loc.alwaysWritable])) d
  | group g k => exact h.setGroup g _
  | ivmem a =>
    obtain ⟨-, ha, -⟩ := locate_ivmem hl
    exact h.ivWrite ha
  | buf a => exact h.bufWrite (locate_buf_word h.paramsLegal hl)
  | _ => exact { h with }

theorem State.Inv.busWrite (h : s.Inv) (off : Offset) (d : Word) : (s.busWrite off d).Inv := by
  obtain ⟨-, e⟩ | ⟨-, -, -, e⟩ | ⟨-, hc, e⟩ := busWrite_cases s off d <;> rw [e]
  · exact { h with }
  · exact { h with }
  · exact { h.store hc d with }

theorem State.Inv.hostTurn (h : s.Inv) : s.hostTurn.Inv := by
  obtain ⟨-, e⟩ | ⟨-, off, d, rest, -, e⟩ | ⟨-, off, rest, -, e⟩ | ⟨-, off, m, v, rest, -, e⟩ := hostTurn_cases s <;>
    rw [e]
  · exact h
  · exact { h.busWrite off d with }
  all_goals
    obtain ⟨data, resp, n, hread⟩ := busRead_frame s off
    rw [hread]
    exact { h with }

/-- Settles O57: each agent's turn keeps the invariant. -/
theorem everyStepKeepsTheInvariant : Obligations.EveryStepKeepsTheInvariant := by
  intro s t h hstep
  obtain ⟨-, rfl⟩ | ⟨-, hx⟩ | ⟨-, rfl⟩ | ⟨-, rfl⟩ := step_cases hstep
  · exact h.startTurn.hostTurn
  · exact h.startTurn.engineTurn hx
  · exact h.startTurn.assertReset
  · exact h.startTurn.releaseReset

end Sys2Proof.Machine
end

