-- ==== Sys2Proof/Proofs/Encoding.lean ====
section
/-! PROOFS. Decoding and encoding of command words (spec/30_encoding.md R120 to R124): which words are legal, and for
which reason the others are rejected. -/

namespace Sys2Proof

/-! ### The fields of a word, in numbers (R120) -/

theorem mbzZero_iff (w : Word) : CommandWord.mbzZero w = true ↔ w.toNat / 256 = 0 := by
  have hw : w.toNat < 2 ^ 32 := w.isLt
  rw [CommandWord.mbzZero, beq_iff_eq, ← BitVec.toNat_inj, BitVec.extractLsb'_toNat, Nat.shiftRight_eq_div_pow]
  simp only [BitVec.toNat_ofNat, BitVec.ofNat_eq_ofNat]
  omega

/-- The assigned opcodes are 0x00 to 0x0A, 0x10 and 0x11 (R122). -/
theorem mem_assignedOpcodes_iff (b : Byte) :
    b ∈ CommandWord.assignedOpcodes ↔ b.toNat ≤ 0x0A ∨ b.toNat = 0x10 ∨ b.toNat = 0x11 := by
  simp only [CommandWord.assignedOpcodes, List.mem_cons, List.not_mem_nil, or_false, ← BitVec.toNat_inj,
    BitVec.ofNat_eq_ofNat, BitVec.toNat_ofNat, Nat.reducePow, Nat.reduceMod]
  omega

theorem opcodeAssigned_iff (w : Word) :
    CommandWord.opcodeAssigned w = true ↔
      w.toNat % 256 ≤ 0x0A ∨ w.toNat % 256 = 0x10 ∨ w.toNat % 256 = 0x11 := by
  rw [CommandWord.opcodeAssigned, List.contains_iff_mem, mem_assignedOpcodes_iff, BitVec.extractLsb'_toNat,
    Nat.shiftRight_zero]

theorem legal_iff (w : Word) :
    CommandWord.legal w = true ↔ CommandWord.mbzZero w = true ∧ CommandWord.opcodeAssigned w = true :=
  Bool.and_eq_true_iff

/-! ### Legal words are the encodings -/

theorem exists_opcode_of_assigned : ∀ b ∈ CommandWord.assignedOpcodes, ∃ i : Instr, i.opcode = b := by
  intro b hb
  simp only [CommandWord.assignedOpcodes, List.mem_cons, List.not_mem_nil, or_false] at hb
  obtain rfl | rfl | rfl | rfl | rfl | rfl | rfl | rfl | rfl | rfl | rfl | rfl | rfl := hb
  exacts [⟨.nop, rfl⟩, ⟨.sub, rfl⟩, ⟨.roundT, rfl⟩, ⟨.roundTp, rfl⟩, ⟨.keyexp, rfl⟩, ⟨.encBlock, rfl⟩,
    ⟨.decBlock, rfl⟩, ⟨.gfmul, rfl⟩, ⟨.ghashInit, rfl⟩, ⟨.ghashBlock, rfl⟩, ⟨.ctrBlock, rfl⟩, ⟨.gcmEncrypt, rfl⟩,
    ⟨.gcmDecrypt, rfl⟩]

/-- A word is its two fields, MBZ above the opcode (R120). -/
theorem eq_append_fields (w : Word) : w = w.extractLsb' 8 24 ++ w.extractLsb' 0 8 :=
  BitVec.extractLsb'_eq_self.symm.trans
    (BitVec.extractLsb'_append_extractLsb'_eq_extractLsb' (show 8 = 0 + 8 from rfl)).symm

theorem exists_encode_of_legal {w : Word} (h : CommandWord.legal w = true) : ∃ i, w = encode i := by
  obtain ⟨hmbz, hop⟩ := (legal_iff w).1 h
  obtain ⟨i, hi⟩ := exists_opcode_of_assigned _ (List.contains_iff_mem.1 hop)
  refine ⟨i, ?_⟩
  rw [encode, hi, ← eq_of_beq hmbz]
  exact eq_append_fields w

theorem legal_iff_exists_decode (w : Word) : CommandWord.legal w = true ↔ ∃ i, decode w = .ok i := by
  constructor
  · intro h
    obtain ⟨i, rfl⟩ := exists_encode_of_legal h
    exact ⟨i, decode_encode i⟩
  · rintro ⟨i, hi⟩
    rw [eq_encode_of_decode hi, Machine.legal_encode]

/-! ### The reason an illegal word is rejected for (R124) -/

theorem decode_error_iff (w : Word) (e : DecodeError) :
    decode w = .error e ↔ CommandWord.legal w = false ∧
      e = if CommandWord.mbzZero w then .unassignedOpcode else .upperBitsNotZero := by
  have hlegal := legal_iff_exists_decode w
  cases hf : opcodeTable.find? (·.matches w) with
  | some r =>
    have hd : decode w = .ok r.instr := by rw [decode, hf]
    simp [hd, hlegal.2 ⟨_, hd⟩]
  | none =>
    have hd : decode w = .error (if CommandWord.mbzZero w then .unassignedOpcode else .upperBitsNotZero) := by
      rw [decode, hf]
    have hl : CommandWord.legal w = false := by simpa [hd] using hlegal
    rw [hd, Except.error.injEq, hl, eq_comm, and_iff_right rfl]

theorem decode_upperBitsNotZero_iff (w : Word) :
    decode w = .error .upperBitsNotZero ↔ CommandWord.mbzZero w = false := by
  rw [decode_error_iff, CommandWord.legal]
  cases CommandWord.mbzZero w <;> simp

theorem decode_unassignedOpcode_iff (w : Word) :
    decode w = .error .unassignedOpcode ↔
      CommandWord.mbzZero w = true ∧ CommandWord.opcodeAssigned w = false := by
  rw [decode_error_iff, CommandWord.legal]
  cases CommandWord.mbzZero w <;> simp

/-! ### The obligations about encoding -/

theorem wellFormed_eq_true (i : Instr) : i.wellFormed = true := by
  cases i <;> rfl

/-- Settles O1: each row of the opcode map is one whole word, the encoding of its command. -/
theorem decodeAnswersExactlyTheEncodedCommand : Obligations.DecodeAnswersExactlyTheEncodedCommand :=
  fun _ i => ⟨wellFormed_eq_true i, decode_ok_iff⟩

/-- Settles O2: the two reasons are the two fields of the word, read as numbers. -/
theorem undecodedWordsAreExactlyTheIllegalOnes : Obligations.UndecodedWordsAreExactlyTheIllegalOnes := by
  refine fun w => ⟨?_, ?_, legal_iff_exists_decode w⟩
  · rw [decode_upperBitsNotZero_iff, ← Bool.not_eq_true, mbzZero_iff]
  · rw [decode_unassignedOpcode_iff, ← Bool.not_eq_true (CommandWord.opcodeAssigned w), mbzZero_iff,
      opcodeAssigned_iff]
    omega

/-- Settles O3: the listed words are the encodings of the commands beside them. -/
theorem opcodeMapWordsDecodeAsListed : Obligations.OpcodeMapWordsDecodeAsListed :=
  ⟨decode_encode .nop, decode_encode .sub, decode_encode .roundT, decode_encode .roundTp, decode_encode .keyexp,
    decode_encode .encBlock, decode_encode .decBlock, decode_encode .gfmul, decode_encode .ghashInit,
    decode_encode .ghashBlock, decode_encode .ctrBlock, decode_encode .gcmEncrypt, decode_encode .gcmDecrypt⟩

end Sys2Proof
end

