-- ==== Sys2Proof/Proofs/HostLines.lean ====
section
/-! PROOFS. The lines of a host program (spec/30_encoding.md R140): a POLL beside a RD of the same offset. The
abbreviations (R141): what they expand to, and what the reading ones give. -/

namespace Sys2Proof.Machine

/-! ### POLL and RD -/

/-- What a read answers does not depend on the lines that are left. -/
theorem busRead_withProgram (s : State) (off : Offset) (p : List HostOp) :
    State.busRead { s with program := p } off = { s.busRead off with program := p } := by
  have hvalue (l : Loc) : State.valueAt { s with program := p } l = s.valueAt l := by cases l <;> rfl
  have hbusy (l : Loc) : State.busyRead { s with program := p } l = s.busyRead l := by cases l <;> rfl
  cases hb : s.busyRead (locate s.params off) with
  | none => rw [busRead_live hb, busRead_live ((hbusy _).trans hb), hvalue]
  | some d => rw [busRead_draw hb, busRead_draw ((hbusy _).trans hb)]

theorem pollDone_iff {s : State} {d : Word} {r : Resp} (h : s.resp = some (.read d r)) (mask value : Word) :
    s.pollDone mask value = true ↔ d &&& mask = value := by
  simp [State.pollDone, h, BusResult.readData]

/-- The host's turn when its next line is a POLL. -/
theorem step_poll {s : State} {off : Offset} {mask value : Word} {rest : List HostOp} (hn : s.nextTurn = .host)
    (hr : s.resetAsserted = false) (hp : s.program = .poll off mask value :: rest) :
    step s = .next { s.startTurn.busRead off with
      program := if (s.startTurn.busRead off).pollDone mask value then rest else s.program } := by
  rw [step_host hn]
  obtain ⟨hno, -⟩ | ⟨-, _, _, _, hp', -⟩ | ⟨-, _, _, hp', -⟩ | ⟨-, _, _, _, _, hp', e⟩ := hostTurn_cases s.startTurn
  · simp [hp, hr] at hno
  · cases hp.symm.trans hp'
  · cases hp.symm.trans hp'
  · cases hp.symm.trans hp'
    rw [e, startTurn_program]

/-- Settles O27: a POLL and a RD of the same offset do the same read. -/
theorem pollRepeatsItsReadUntilTheValueShows : Obligations.PollRepeatsItsReadUntilTheValueShows := by
  intro s off mask value rest hn hr hp
  obtain ⟨data, r, n, hread⟩ := busRead_frame s.startTurn off
  have hresp : (s.startTurn.busRead off).resp = some (.read data r) := by rw [hread]
  refine ⟨_, data, r, step_poll hn hr hp, hresp, ?_, by rw [hread]; rfl, ?_⟩
  · simp only [pollDone_iff hresp]
  · have hrd : State.busRead (State.startTurn { s with program := .rd off :: rest }) off =
        { s.startTurn with resp := some (.read data r), drawCount := n, program := .rd off :: rest } :=
      (busRead_withProgram s.startTurn off _).trans (by rw [hread])
    rw [hread]
    refine (step_read (s := { s with program := .rd off :: rest }) hn hr rfl).trans ?_
    rw [hrd, recordRead_read rfl]
    rfl

/-! ### What the abbreviations expand to (R141) -/

/-- `WR128`: the four registers of the group take the four words of the block. -/
theorem hostWr128_eq (g : Group) (v : Block) :
    hostWr128 g v = [.wr g.offset (v.extractLsb' 96 32), .wr (g.offset + 4) (v.extractLsb' 64 32),
      .wr (g.offset + 8) (v.extractLsb' 32 32), .wr (g.offset + 12) (v.extractLsb' 0 32)] := by
  cases g <;> rfl

theorem hostRd128_eq (g : Group) :
    hostRd128 g = [.rd g.offset, .rd (g.offset + 4), .rd (g.offset + 8), .rd (g.offset + 12)] := by
  cases g <;> rfl

theorem hostWrmem_length (base : Offset) (bs : List Byte) : (hostWrmem base bs).length = (bs.length + 3) / 4 := by
  simp [hostWrmem]

/-- Line `i` of `WRMEM` writes the bytes `4i` to `4i + 3`, zero where the string has ended. -/
theorem hostWrmem_getElem? (base : Offset) (bs : List Byte) {i : Nat} (hi : 4 * i < bs.length) :
    (hostWrmem base bs)[i]? = some (.wr (base + BitVec.ofNat 16 (4 * i))
      (wordOfLanes (bs.getD (4 * i) 0) (bs.getD (4 * i + 1) 0) (bs.getD (4 * i + 2) 0) (bs.getD (4 * i + 3) 0))) := by
  rw [hostWrmem, List.getElem?_map, List.getElem?_range (by omega), Option.map_some]

theorem hostRdmem_length (base : Offset) (n : Nat) : (hostRdmem base n).length = (n + 3) / 4 := by
  simp [hostRdmem]

theorem hostRdmem_getElem? (base : Offset) {n i : Nat} (hi : 4 * i < n) :
    (hostRdmem base n)[i]? = some (.rd (base + BitVec.ofNat 16 (4 * i))) := by
  rw [hostRdmem, List.getElem?_map, List.getElem?_range (by omega), Option.map_some]

/-! ### What the reading abbreviations give (R141) -/

theorem rd128Result_of_append {s : State} {before : List Word} {p0 p1 p2 p3 : Word}
    (h : s.reads = before ++ [p0, p1, p2, p3]) : s.rd128Result = p0 ++ p1 ++ p2 ++ p3 := by
  rw [State.rd128Result, show s.lastReads 4 = [p0, p1, p2, p3] from lastReads_of_append h]
  rfl

theorem rdmemResult_of_append {s : State} {before ds : List Word} {n : Nat} (h : s.reads = before ++ ds)
    (hl : ds.length = (n + 3) / 4) : s.rdmemResult n = rdmemBytes n ds := by
  rw [State.rdmemResult, ← hl, lastReads_of_append h]

/-- Byte `k` of what `RDMEM` keeps is lane `k mod 4` of word `k / 4`. -/
theorem rdmemBytes_getElem? {n k : Nat} {ds : List Word} (hl : ds.length = (n + 3) / 4) (hk : k < n) :
    (rdmemBytes n ds)[k]? = some ((ds.getD (k / 4) 0).extractLsb' (8 * (k % 4)) 8) := by
  have hw : k / 4 < ds.length := by omega
  rw [rdmemBytes, List.getElem?_take_of_lt hk, flatMap_lanes_getElem?, List.getD_eq_getElem?_getD,
    List.getElem?_eq_getElem hw]
  rfl

/-- Lane `j` of the word made of four bytes is byte `j`. -/
theorem extractLsb'_wordOfLanes (b : Nat → Byte) {j : Nat} (hj : j < 4) :
    (wordOfLanes (b 0) (b 1) (b 2) (b 3)).extractLsb' (8 * j) 8 = b j := by
  refine BitVec.eq_of_getLsbD_eq fun i hi => ?_
  rw [BitVec.getLsbD_extractLsb', getLsbD_wordOfLanes]
  obtain rfl | rfl | rfl | rfl : j = 0 ∨ j = 1 ∨ j = 2 ∨ j = 3 := by omega
  all_goals grind

/-- `RDMEM` of the words that `WRMEM` writes gives back the string. -/
theorem rdmemBytes_of_hostWrmem {base : Offset} {ds : List Word} {bs : List Byte}
    (hl : ds.length = (bs.length + 3) / 4)
    (hw : ∀ i, i < ds.length →
      (hostWrmem base bs)[i]? = some (.wr (base + BitVec.ofNat 16 (4 * i)) (ds.getD i 0))) :
    rdmemBytes bs.length ds = bs := by
  refine List.ext_getElem? fun k => ?_
  by_cases hk : k < bs.length
  · have hline := hw (k / 4) (by omega)
    rw [hostWrmem_getElem? base bs (by omega), Option.some_inj] at hline
    have hword := (HostOp.wr.inj hline).2
    have hlane := extractLsb'_wordOfLanes (fun j => bs.getD (4 * (k / 4) + j) 0) (Nat.mod_lt k (by decide))
    rw [rdmemBytes_getElem? hl hk, ← hword, List.getElem?_eq_getElem hk, Option.some_inj]
    calc
      _ = bs.getD (4 * (k / 4) + k % 4) 0 := hlane
      _ = bs[k] := by rw [Nat.div_add_mod, List.getD_eq_getElem _ _ hk]
  · rw [List.getElem?_eq_none (by rw [rdmemBytes_length hl]; omega), List.getElem?_eq_none (by omega)]

/-- Settles O59: the expansions line by line; the reads give the words they left, and the lanes of the words written
are the bytes of the string. -/
theorem hostAbbreviationsExpandAsListed : Obligations.HostAbbreviationsExpandAsListed := by
  refine ⟨fun _ => rfl, rfl, fun _ => rfl, fun g => ⟨g.offset, ?_, hostWr128_eq g, hostRd128_eq g⟩,
    fun _ _ _ _ _ _ h => rd128Result_of_append h, fun base bs => ⟨hostWrmem_length base bs, fun i hi => ?_⟩,
    fun base n => ⟨hostRdmem_length base n, fun _ hi => hostRdmem_getElem? base hi⟩, fun s before ds n h hl => ?_,
    fun s base before ds bs h hl hw => ?_⟩
  · cases g <;> decide
  · rw [hostWrmem_getElem? base bs hi, wordOfLanes_eq_laneWord]
  · rw [rdmemResult_of_append h hl]
    exact ⟨rdmemBytes_length hl, fun k hk => rdmemBytes_getElem? hl hk⟩
  · rw [rdmemResult_of_append h hl, rdmemBytes_of_hostWrmem hl hw]

end Sys2Proof.Machine
end

