-- ==== Sys2Proof/Proofs/CommandProtocol.lean ====
section
/-! PROOFS. Acceptance and completion as steps (spec/40_command_protocol.md R153 to R161): what a write to CMD in IDLE
leaves, what the host can change while the engine is not IDLE, and the Complete step of a legal and of an illegal
word. -/

namespace Sys2Proof.Machine

open Sys2Proof.Statement

/-! ### Completion -/

/-- The engine's turn in BUSY with the word of a command (R155, R159). -/
theorem engineTurn_of_decode {s : State} {i : Instr} (hr : s.resetAsserted = false) (hc : s.ctl = .busy)
    (hd : decode s.pend.word = .ok i) : engineTurn exec s = exec i s := by
  simp [engineTurn, hr, hc, hd]

/-- The engine's turn in BUSY with an illegal word (R161). -/
theorem engineTurn_of_not_legal {s : State} (hr : s.resetAsserted = false) (hc : s.ctl = .busy)
    (hl : CommandWord.legal s.pend.word = false) : engineTurn exec s = .next (s.finish .illegalCmd) := by
  have hd := (decode_error_iff s.pend.word _).2 ⟨hl, rfl⟩
  simp [engineTurn, hr, hc, hd, execIllegal, raiseError]

theorem step_of_decode {s : State} {i : Instr} (h : Completes s) (hd : decode s.pend.word = .ok i) :
    step s = exec i s.startTurn := by
  obtain ⟨⟨hn, hr⟩, hc⟩ := h
  exact (step_engine hn).trans (engineTurn_of_decode (s := s.startTurn) hr hc hd)

theorem step_of_not_legal {s : State} (h : Completes s) (hl : CommandWord.legal s.pend.word = false) :
    step s = .next (s.startTurn.finish .illegalCmd) := by
  obtain ⟨⟨hn, hr⟩, hc⟩ := h
  exact (step_engine hn).trans (engineTurn_of_not_legal (s := s.startTurn) hr hc hl)

/-- Settles O4: the Complete step, the turn used up. -/
theorem completeStepRunsTheDecodedCommand : Obligations.CompleteStepRunsTheDecodedCommand :=
  fun _ _ h hd => step_of_decode h hd

/-! ### The placed word (log entry 2) -/

/-- A word's number placed through 32 bits is the word. -/
theorem withFetchWord_toNat (s : State) (w : Word) : s.withFetchWord 32 w.toNat = s.loadCommand w := by
  rw [State.withFetchWord, Nat.mod_eq_of_lt w.isLt, BitVec.ofNat_toNat, BitVec.setWidth_eq]

/-- The placed word is completed by the next step. -/
theorem completes_loadCommand (s : State) (w : Word) : Completes (s.loadCommand w) :=
  ⟨⟨rfl, rfl⟩, rfl⟩

/-- Settles O5: the placed word is at its Complete step, which runs its command or completes the illegal word. -/
theorem fetchWordIsCompletedByTheNextStep : Obligations.FetchWordIsCompletedByTheNextStep := by
  intro s w placed
  rw [withFetchWord_toNat]
  exact ⟨fun i hw => step_of_decode (completes_loadCommand s w) (decode_ok_iff.2 hw),
    fun hl => step_of_not_legal (completes_loadCommand s w) hl⟩

/-! ### Acceptance -/

/-- A write to CMD in IDLE is the acceptance of its word (R153). -/
theorem step_accept {s : State} {w : Word} (hi : HostIssues s (.wr 0x010 w)) (hc : s.ctl = .idle) :
    step s = .next { (afterLine s).accept w with resp := some (.write .okay) } :=
  step_wr_idle (l := .cmd) hi hc rfl rfl

/-- The states a host turn may leave while the engine is not IDLE: what it can write is CTRL, DONE and WERR, and the
fields outside the engine. -/
inductive HostMayLeave (s : State) : State → Prop where
  | mk (ctrlIe : Bool) (ctrlBackend : Backend) (done werr : Bool) (drawCount : Nat) (resp : Option BusResult)
      (program : List HostOp) (reads : List Word) (turns : List Turn) :
      HostMayLeave s { s with
        ctrlIe := ctrlIe, ctrlBackend := ctrlBackend, done := done, werr := werr, drawCount := drawCount, resp := resp,
        program := program, reads := reads, turns := turns }

/-- Outside IDLE only CTRL and STATUS are written, all other writes are refused or rejected (R89). -/
theorem busWrite_hostMayLeave {s : State} (hc : s.ctl ≠ .idle) (off : Offset) (d : Word) (p : List HostOp) :
    HostMayLeave s { s.busWrite off d with program := p } := by
  obtain ⟨-, e⟩ | ⟨-, -, -, e⟩ | ⟨-, ha, e⟩ := busWrite_cases s off d <;> rw [e]
  · exact .mk ..
  · exact .mk ..
  · replace ha := ha.resolve_left hc
    cases hl : locate s.params off with
    | ctrl => exact .mk ..
    | status => rw [State.store, writeStatus_eq_ite]; exact .mk ..
    | _ => simp [hl, Loc.alwaysWritable] at ha

theorem hostTurn_hostMayLeave {s : State} (hc : s.ctl ≠ .idle) : HostMayLeave s s.hostTurn := by
  obtain ⟨-, e⟩ | ⟨-, off, d, rest, -, e⟩ | ⟨-, off, rest, -, e⟩ | ⟨-, off, m, v, rest, -, e⟩ := hostTurn_cases s <;>
    rw [e]
  · exact .mk ..
  · exact busWrite_hostMayLeave hc off d rest
  all_goals
    obtain ⟨data, resp, n, hread⟩ := busRead_frame s off
    rw [hread]
    exact .mk ..

/-- Settles O8: acceptance is a write to CMD in IDLE; what a host turn can write while
BUSY is no operand. -/
theorem acceptanceSnapshotsTheCommand : Obligations.AcceptanceSnapshotsTheCommand := by
  refine ⟨fun s w hi hc => step_accept hi hc, fun s t hc hn h => ?_⟩
  obtain rfl : s.startTurn.hostTurn = t := Host.Outcome.next.inj ((step_host hn).symm.trans h)
  have hleft : HostMayLeave s.startTurn s.startTurn.hostTurn := hostTurn_hostMayLeave (by simp [hc])
  generalize s.startTurn.hostTurn = t at hleft ⊢
  cases hleft
  simp [hc, State.ivByte, State.bufByte]

/-! ### A word written in IDLE and completed at once -/

/-- Acceptance, and the engine's turn next. -/
theorem step_accept_then_engine {s : State} {w : Word} {rest : List HostOp} {more : List Turn}
    (ht : s.turns = .host :: .engine :: more) (hp : s.program = .wr 0x010 w :: rest) (hr : s.resetAsserted = false)
    (hc : s.ctl = .idle) :
    step s = .next { s.accept w with
      turns := .engine :: more, program := rest, resp := some (.write .okay) } := by
  rw [step_accept (w := w) ⟨by simp [State.nextTurn, ht], hr, by simp [hp]⟩ hc]
  simp [afterLine, State.accept, ht, hp]

/-- Settles O9: acceptance, then the Complete step of an illegal word. -/
theorem illegalWordCompletesWithIllegalCmd : Obligations.IllegalWordCompletesWithIllegalCmd :=
  fun _ _ _ _ ht hp hr hc hl => ⟨_, step_accept_then_engine ht hp hr hc, step_of_not_legal ⟨⟨rfl, hr⟩, rfl⟩ hl⟩

theorem exec_nop (s : State) : exec .nop s = .next (s.finish .ok) := rfl

/-- Settles O32: acceptance, then the Complete step of NOP, which is only the completion; `irq` is IE and the DONE it
sets. -/
theorem nopWritesOnlyItsCompletion : Obligations.NopWritesOnlyItsCompletion := by
  refine ⟨exec_nop, fun s rest more ht hp hr hc => ?_⟩
  have hsecond := step_of_decode (i := .nop)
    (s := { s.accept 0 with turns := .engine :: more, program := rest, resp := some (.write .okay) })
    ⟨⟨rfl, hr⟩, rfl⟩ (decode_encode .nop)
  exact ⟨_, _, step_accept_then_engine ht hp hr hc, hsecond.trans (exec_nop _), Bool.and_true _, rfl⟩

end Sys2Proof.Machine
end

