-- ==== Sys2Proof/Proofs/CommandOutcome.lean ====
section
/-! PROOFS. What the completion of each command is (spec/40_command_protocol.md R155 to R158): the code the checks
decide, nothing written after a failed check, and after passed checks only the command's own results. -/

namespace Sys2Proof.Machine

open Sys2Proof.Statement

/-! ### The operands of a GCM command, as the model reads them -/

theorem gcmTag_eq_tagOver (s : State) : gcmTag s.rk s.gcmJ0 s.aadOperand s.textOperand = tagOver s := by
  have htext : s.textOperand = textOf s := by
    rw [State.textOperand, textBase_eq_textStart]
    rfl
  rw [htext]
  rfl

/-! ### The checks, and what they leave -/

/-- The code of the first check that fails, in the order of R157, or 0. -/
def checkCode (i : Instr) (s : State) : ErrCode :=
  if NeedsContext i ∧ s.keyValid = false then .noKey
  else if IsGcm i ∧ ¬ LengthsGood s then .badLength
  else if i = .gcmDecrypt ∧ tagOver s ≠ s.tag then .authFail
  else .ok

/-- The state with GS as the completion of `i` leaves it (R290). -/
def gsDone (i : Instr) (s : State) : State := { s with gs := if IsGcm i then GcmState.zero else s.gs }

theorem needsContext_of_gcm {i : Instr} (hi : IsGcm i) : NeedsContext i := by
  obtain rfl | rfl := hi <;> decide

theorem checkCode_of_not_needsContext {i : Instr} (hi : ¬ NeedsContext i) (s : State) : checkCode i s = .ok := by
  have hg : ¬ IsGcm i := mt needsContext_of_gcm hi
  have hd : i ≠ .gcmDecrypt := fun h => hg (.inr h)
  simp only [checkCode, hi, hg, hd, false_and, if_false]

theorem checkCode_eq_noKey {i : Instr} {s : State} (hi : NeedsContext i) (hk : s.keyValid = false) :
    checkCode i s = .noKey :=
  if_pos ⟨hi, hk⟩

theorem checkCode_of_keyValid {i : Instr} {s : State} (hi : ¬ IsGcm i) (hk : s.keyValid = true) :
    checkCode i s = .ok := by
  have hd : i ≠ .gcmDecrypt := fun h => hi (.inr h)
  simp only [checkCode, hi, hd, hk, reduceCtorEq, and_false, false_and, if_false]

theorem checkCode_eq_badLength {i : Instr} {s : State} (hi : IsGcm i) (hk : s.keyValid = true)
    (hl : s.lengthsOk = false) : checkCode i s = .badLength := by
  have hbad : ¬ LengthsGood s := fun h => by simp [(lengthsOk_iff s).2 h] at hl
  simp only [checkCode, hk, hi, hbad, reduceCtorEq, and_false, not_false_eq_true, and_true, if_false, if_true]

theorem checkCode_gcmEncrypt {s : State} (hk : s.keyValid = true) (hl : s.lengthsOk = true) :
    checkCode .gcmEncrypt s = .ok := by
  simp [checkCode, hk, (lengthsOk_iff s).1 hl]

theorem checkCode_gcmDecrypt {s : State} (hk : s.keyValid = true) (hl : s.lengthsOk = true) :
    checkCode .gcmDecrypt s = if tagOver s = s.tag then .ok else .authFail := by
  simp [checkCode, hk, (lengthsOk_iff s).1 hl]

/-! ### What a command may write -/

/-- The states a completion may leave, whatever the command: beside ERR, DONE and `ctl` it can write the results of the
commands and GS, but no register only the host writes and no byte of IVMEM. -/
inductive CommandMayLeave (s : State) : State → Prop where
  | mk (err : ErrCode) (keyValid : Bool) (activeBackend : Backend) (rk : Vector Word 32) (res h y ctr tag : Block)
      (gs : GcmState) (buf : Memory) :
      CommandMayLeave s { s with
        done := true, ctl := .idle, err := err, keyValid := keyValid, activeBackend := activeBackend, rk := rk,
        res := res, h := h, y := y, ctr := ctr, tag := tag, gs := gs, buf := buf }

/-- The completion of `i` from `s` to `t` writes no more than the table of R156 lists, and GS. -/
structure WritesOwnResults (i : Instr) (s t : State) : Prop where
  mayLeave : CommandMayLeave s t
  context : i ≠ .keyexp → t.rk = s.rk ∧ t.keyValid = s.keyValid ∧ t.activeBackend = s.activeBackend
  groups : ∀ g, Instr.writesGroup i g = false → t.group g = s.group g
  gs : ¬ IsGcm i → t.gs = s.gs
  buf : ∀ a, ¬ IsGcm i ∨ a < textStart s ∨ textStart s + s.textLen.toNat ≤ a → t.bufByte a = s.bufByte a

/-- The completion of `i` from `s` to `t` has the code of the checks; a failed check leaves all but GS unwritten. -/
structure EndsAsChecked (i : Instr) (s t : State) : Prop where
  err : t.err = checkCode i s
  failed : checkCode i s ≠ .ok → t = (gsDone i s).finish (checkCode i s)
  writes : WritesOwnResults i s t

variable {i : Instr} {s u t : State}

/-- A failed check. -/
theorem EndsAsChecked.of_failed {c : ErrCode} (hc : checkCode i s = c) :
    EndsAsChecked i s ((gsDone i s).finish c) where
  err := hc.symm
  failed _ := by rw [hc]
  writes :=
    { mayLeave := .mk ..
      context := fun _ => ⟨rfl, rfl, rfl⟩
      groups := fun g _ => by cases g <;> rfl
      gs := fun hi => if_neg hi
      buf := fun _ _ => rfl }

/-- Passed checks. -/
theorem EndsAsChecked.of_complete (hx : complete u = .next t) (hc : checkCode i s = .ok)
    (hw : WritesOwnResults i s (u.finish .ok)) : EndsAsChecked i s t := by
  obtain rfl := complete_next.1 hx
  exact ⟨hc.symm, fun h => absurd hc h, hw⟩

/-- The checks of a GCM command; what is left is the case that they pass. -/
theorem EndsAsChecked.of_withGcmChecks {go : State → Host.Outcome State Fault Refusal} (hi : IsGcm i)
    (h : withGcmChecks s go = .next t)
    (hgo : s.keyValid = true → s.lengthsOk = true → go s.clearGs = .next t → EndsAsChecked i s t) :
    EndsAsChecked i s t := by
  have hgs : s.clearGs = gsDone i s := by rw [gsDone, if_pos hi, State.clearGs]
  obtain ⟨hk, hl, hx⟩ | ⟨hk, rfl⟩ | ⟨hk, hl, rfl⟩ := withGcmChecks_next.1 h
  · exact hgo hk hl hx
  · exact hgs ▸ .of_failed (checkCode_eq_noKey (needsContext_of_gcm hi) hk)
  · exact hgs ▸ .of_failed (checkCode_eq_badLength hi hk hl)

/-- The text of a GCM command is all of BUF that its replacement writes. -/
theorem bufByte_replaceText (s : State) (rk : Vector Word 32) (j0 : Block) {a : Nat}
    (ha : a < textStart s ∨ textStart s + s.textLen.toNat ≤ a) :
    (s.bufWrite s.textBase (ctrText rk j0 s.textOperand)).bufByte a = s.bufByte a := by
  refine bufByte_bufWrite_outside _ _ _ _ ?_
  rwa [ctrText_textOperand_length, textBase_eq_textStart]

/-- Every command ends as its checks decide: those without a check, those with the context check, the GCM commands. -/
theorem endsAsChecked_of_exec (h : exec i s = .next t) : EndsAsChecked i s t := by
  cases i
  case nop | sub | roundT | roundTp | keyexp | gfmul | ghashBlock =>
    refine .of_complete h (checkCode_of_not_needsContext (by decide) s)
      ⟨.mk .., ?_, fun g => ?_, fun _ => rfl, fun _ _ => rfl⟩
    · simp
    · cases g <;> simp [Instr.writesGroup, State.group]
  case encBlock | decBlock | ghashInit | ctrBlock =>
    simp only [exec, execEncBlock, execDecBlock, execGhashInit, execCtrBlock] at h
    obtain ⟨hk, h⟩ | ⟨hk, rfl⟩ := withContext_next.1 h
    · refine .of_complete h (checkCode_of_keyValid (by decide) hk)
        ⟨.mk .., fun _ => ⟨rfl, rfl, rfl⟩, fun g => ?_, fun _ => rfl, fun _ _ => rfl⟩
      cases g <;> simp [Instr.writesGroup, State.group]
    · exact .of_failed (checkCode_eq_noKey (by decide) hk)
  case gcmEncrypt =>
    simp only [exec, execGcmEncrypt] at h
    refine .of_withGcmChecks (.inl rfl) h fun hk hl hx => ?_
    refine .of_complete hx (checkCode_gcmEncrypt hk hl)
      ⟨.mk .., fun _ => ⟨rfl, rfl, rfl⟩, fun g => ?_, fun hi => absurd (.inl rfl) hi, fun a ha => ?_⟩
    · cases g <;> simp [Instr.writesGroup, State.group]
    · exact bufByte_replaceText s.clearGs _ _ (ha.resolve_left (not_not.2 (.inl rfl)))
  case gcmDecrypt =>
    simp only [exec, execGcmDecrypt] at h
    refine .of_withGcmChecks (.inr rfl) h fun hk hl hx => ?_
    have hcode := checkCode_gcmDecrypt hk hl
    have htag : gcmTag s.clearGs.rk s.clearGs.gcmJ0 s.clearGs.aadOperand s.clearGs.textOperand = tagOver s :=
      gcmTag_eq_tagOver s
    simp only [htag, clearGs_tag] at hx
    split at hx
    · next heq =>
      refine .of_complete hx (hcode.trans (if_pos heq))
        ⟨.mk .., fun _ => ⟨rfl, rfl, rfl⟩, fun g _ => ?_, fun hi => absurd (.inr rfl) hi, fun a ha => ?_⟩
      · cases g <;> rfl
      · exact bufByte_replaceText s.clearGs _ _ (ha.resolve_left (not_not.2 (.inr rfl)))
    · next hne =>
      obtain rfl := raiseError_next.1 hx
      exact .of_failed (hcode.trans (if_neg hne))

/-! ### The obligations about completions -/

/-- Settles O10: an illegal word is completed with code 1, a command with the code of its checks. -/
theorem checksDecideTheCodeInFixedOrder : Obligations.ChecksDecideTheCodeInFixedOrder := by
  refine ⟨fun s h hl => ⟨_, step_of_not_legal h hl, rfl⟩, fun s i => ?_⟩
  obtain ⟨t, hx, -⟩ := exec_completes i s
  exact ⟨t, hx, (endsAsChecked_of_exec hx).err⟩

/-- Settles O11: a code other than 0 is that of a failed check, after which only the completion is written. -/
theorem failedCommandWritesNothingElse : Obligations.FailedCommandWritesNothingElse := by
  refine ⟨fun s h hl => step_of_not_legal h hl, fun s t i hx herr => ?_⟩
  have hends := endsAsChecked_of_exec hx
  rw [hends.err] at herr ⊢
  exact hends.failed herr

/-- The commands that do not write RES. -/
theorem writesGroup_res_eq_false {i : Instr} (h : i = .nop ∨ i = .keyexp ∨ i = .ghashInit ∨ IsGcm i) :
    Instr.writesGroup i .res = false := by
  obtain rfl | rfl | rfl | rfl | rfl := h <;> rfl

/-- The one command, or the two for Y, that write H, Y, CTR and TAG. -/
theorem writesGroup_context_iff (i : Instr) :
    (Instr.writesGroup i .h = false ↔ i ≠ .ghashInit) ∧
    (Instr.writesGroup i .y = false ↔ i ≠ .ghashInit ∧ i ≠ .ghashBlock) ∧
    (Instr.writesGroup i .ctr = false ↔ i ≠ .ctrBlock) ∧ (Instr.writesGroup i .tag = false ↔ i ≠ .gcmEncrypt) := by
  cases i <;> decide

/-- Settles O12: the fields no command writes, then the command's own results by the table of R156. -/
theorem completionFrame : Obligations.CompletionFrame := by
  intro s i
  obtain ⟨t, hx, -⟩ := exec_completes i s
  obtain ⟨hleft, hcontext, hgroups, hgs, hbuf⟩ := (endsAsChecked_of_exec hx).writes
  obtain ⟨hh, hy, hctr, htag⟩ := writesGroup_context_iff i
  cases hleft
  exact ⟨_, hx, rfl, rfl, rfl, rfl, rfl, rfl, rfl, rfl, rfl, rfl, rfl, rfl, rfl, rfl, rfl, rfl, rfl, rfl, rfl, rfl,
    rfl, rfl, hcontext, fun hi => hgroups .res (writesGroup_res_eq_false hi), fun hi => hgroups .h (hh.2 hi),
    fun hi => hgroups .y (hy.2 hi), fun hi => hgroups .ctr (hctr.2 hi), fun hi => hgroups .tag (htag.2 hi), hgs,
    fun _ => rfl, hbuf⟩

end Sys2Proof.Machine
end

