-- ==== Sys2Proof/Proofs/RoundFunctions.lean ====
section
/-! PROOFS. The substitution table, tau and the diffusion layers (spec/41_substitution_round.md R180 to R193): tau
works on lanes, the layers are XORs of rotations, and the commands SUB, ROUND_T and ROUND_TP follow word by word. -/

namespace Sys2Proof.Machine

open Sys2Proof.Statement

/-! ### The substitution table (R181) -/

/-- Where a byte stands in the table of R180. It is compared in numbers, which the kernel does fast. -/
def sboxPlace (c : Byte) : Byte := BitVec.ofNat 8 ((sboxRows.flatMap int2blk).findIdx (·.toNat.beq c.toNat))

/-- Every entry of the table stands in one place only: looked up, it leads back to its index. -/
theorem sboxPlace_sbox : Function.LeftInverse sboxPlace sbox := by
  unfold Function.LeftInverse
  decide +kernel

theorem sbox_bijective : Function.Bijective sbox :=
  Finite.injective_iff_bijective.1 sboxPlace_sbox.injective

/-! ### Lanes -/

theorem lanes_wordOfLanes (b0 b1 b2 b3 : Byte) :
    (wordOfLanes b0 b1 b2 b3).extractLsb' 0 8 = b0 ∧ (wordOfLanes b0 b1 b2 b3).extractLsb' 8 8 = b1 ∧
    (wordOfLanes b0 b1 b2 b3).extractLsb' 16 8 = b2 ∧ (wordOfLanes b0 b1 b2 b3).extractLsb' 24 8 = b3 := by
  have hlane (j : Nat) (hj : j < 4) := extractLsb'_wordOfLanes ([b0, b1, b2, b3].getD · 0) hj
  exact ⟨hlane 0 (by decide), hlane 1 (by decide), hlane 2 (by decide), hlane 3 (by decide)⟩

/-- The lanes do not overlap, so a word is the XOR of its lanes (R189). -/
theorem wordOfLanes_eq_xor (b0 b1 b2 b3 : Byte) :
    wordOfLanes b0 b1 b2 b3 =
      b3.setWidth 32 <<< 24 ^^^ b2.setWidth 32 <<< 16 ^^^ b1.setWidth 32 <<< 8 ^^^ b0.setWidth 32 := by
  refine BitVec.eq_of_getLsbD_eq fun i hi => ?_
  simp only [getLsbD_wordOfLanes, BitVec.getLsbD_xor, BitVec.getLsbD_shiftLeft, BitVec.getLsbD_setWidth]
  have hbyte (b : Byte) (j : Nat) (hj : 8 ≤ j) : b.getLsbD j = false := BitVec.getLsbD_of_ge b j hj
  grind

theorem rotl32_wordOfLanes_eight (b0 b1 b2 b3 : Byte) :
    rotl32 (wordOfLanes b0 b1 b2 b3) 8 = wordOfLanes b3 b0 b1 b2 := by
  refine BitVec.eq_of_getLsbD_eq fun i hi => ?_
  simp only [rotl32_eq_rotateLeft _ 8 (by decide), BitVec.getLsbD_rotateLeft, getLsbD_wordOfLanes]
  grind

/-! ### tau (R182) -/

theorem tau_eq_wordOfLanes (x : Word) :
    tau x = wordOfLanes (sbox (x.extractLsb' 0 8)) (sbox (x.extractLsb' 8 8)) (sbox (x.extractLsb' 16 8))
      (sbox (x.extractLsb' 24 8)) := rfl

theorem tau_wordOfLanes (b0 b1 b2 b3 : Byte) :
    tau (wordOfLanes b0 b1 b2 b3) = wordOfLanes (sbox b0) (sbox b1) (sbox b2) (sbox b3) := by
  obtain ⟨h0, h1, h2, h3⟩ := lanes_wordOfLanes b0 b1 b2 b3
  rw [tau_eq_wordOfLanes, h0, h1, h2, h3]

theorem extractLsb'_tau (x : Word) {k : Nat} (hk : k < 4) :
    (tau x).extractLsb' (8 * k) 8 = sbox (x.extractLsb' (8 * k) 8) :=
  extractLsb'_wordOfLanes (fun k => sbox (x.extractLsb' (8 * k) 8)) hk

theorem tau_rotl32_eight (x : Word) : tau (rotl32 x 8) = rotl32 (tau x) 8 := by
  rw [← wordOfLanes_lanes x, rotl32_wordOfLanes_eight, tau_wordOfLanes, tau_wordOfLanes, rotl32_wordOfLanes_eight]

theorem subLane_eq (x : Word) (n : Nat) : subLane x n = (sbox (x.extractLsb' n 8)).setWidth 32 <<< n := by
  rw [subLane, BitVec.setWidth_ushiftRight_eq_extractLsb]

theorem or_reverse (a b c d : Word) : a ||| b ||| c ||| d = d ||| c ||| b ||| a := by
  ac_rfl

theorem tau_eq_tauOf (x : Word) : tau x = tauOf x := by
  rw [tau_eq_wordOfLanes, wordOfLanes_eq_laneWord, laneWord, or_reverse, tauOf, subLane_eq, subLane_eq, subLane_eq,
    subLane_eq, BitVec.shiftLeft_zero]

/-! ### Rotations and the diffusion layers (R10, R183) -/

/-- Each bit moves up by `n`, around the end of the word. -/
theorem getLsbD_rotl32 (x : Word) {n i : Nat} (hn : n < 32) (hi : i < 32) :
    (rotl32 x n).getLsbD i = x.getLsbD ((i + 32 - n) % 32) := by
  rw [rotl32_eq_rotateLeft x n hn, BitVec.getLsbD_rotateLeft_of_le hn]
  grind

theorem rotl32_xor (a b : Word) (n : Nat) (hn : n < 32) : rotl32 (a ^^^ b) n = rotl32 a n ^^^ rotl32 b n := by
  refine BitVec.eq_of_getLsbD_eq fun i hi => ?_
  simp only [BitVec.getLsbD_xor, getLsbD_rotl32 _ hn hi]

theorem rotl32_comm (x : Word) {m n : Nat} (hm : m < 32) (hn : n < 32) :
    rotl32 (rotl32 x m) n = rotl32 (rotl32 x n) m := by
  refine BitVec.eq_of_getLsbD_eq fun i hi => ?_
  rw [getLsbD_rotl32 _ hn hi, getLsbD_rotl32 _ hm (Nat.mod_lt _ (by decide)), getLsbD_rotl32 _ hm hi,
    getLsbD_rotl32 _ hn (Nat.mod_lt _ (by decide))]
  congr 1
  omega

theorem diffuse_eq_layer (v : Word) : diffuse v = layer v := by
  simp only [diffuse, layer, rotl32_eq_rotateLeft, Nat.reduceLT]

theorem diffuseKey_eq_layerKey (v : Word) : diffuseKey v = layerKey v := by
  simp only [diffuseKey, layerKey, rotl32_eq_rotateLeft, Nat.reduceLT]

theorem diffuse_xor (a b : Word) : diffuse (a ^^^ b) = diffuse a ^^^ diffuse b := by
  simp only [diffuse, rotl32_xor, Nat.reduceLT]
  ac_rfl

theorem diffuseKey_xor (a b : Word) : diffuseKey (a ^^^ b) = diffuseKey a ^^^ diffuseKey b := by
  simp only [diffuseKey, rotl32_xor, Nat.reduceLT]
  ac_rfl

theorem diffuse_rotl32 (x : Word) {n : Nat} (hn : n < 32) : diffuse (rotl32 x n) = rotl32 (diffuse x) n := by
  simp only [diffuse, rotl32_xor _ _ n hn, rotl32_comm x hn, Nat.reduceLT]

theorem diffuseKey_rotl32 (x : Word) {n : Nat} (hn : n < 32) : diffuseKey (rotl32 x n) = rotl32 (diffuseKey x) n := by
  simp only [diffuseKey, rotl32_xor _ _ n hn, rotl32_comm x hn, Nat.reduceLT]

/-! ### The T-table (R188, R189) -/

/-- A byte in the top lane, shifted right into lane `k` counted from the top. -/
theorem topLane_ushiftRight (b : Byte) {k : Nat} (hk : k ≤ 3) :
    (b.setWidth 32 <<< 24) >>> (8 * k) = b.setWidth 32 <<< (24 - 8 * k) := by
  refine BitVec.eq_of_getLsbD_eq fun i hi => ?_
  have hplace : i - (24 - 8 * k) = 8 * k + i - 24 := by omega
  have hlow : 8 * k + i < 24 ↔ i < 24 - 8 * k := by omega
  simp only [BitVec.getLsbD_ushiftRight, BitVec.getLsbD_shiftLeft, BitVec.getLsbD_setWidth, hplace, hlow, hi]
  by_cases h : 8 * k + i < 32
  · simp [h]
  · have hout : b.getLsbD (8 * k + i - 24) = false := BitVec.getLsbD_of_ge _ _ (by omega)
    simp [hout]

/-- In the rotation that takes the top lane to lane `k`, the left shift takes it out of the word. -/
theorem rotl32_topLane (b : Byte) {k : Nat} (h1 : 1 ≤ k) (h3 : k ≤ 3) :
    rotl32 (b.setWidth 32 <<< 24) (32 - 8 * k) = b.setWidth 32 <<< (24 - 8 * k) := by
  rw [rotl32, ← BitVec.shiftLeft_add, BitVec.shiftLeft_eq_zero (by omega), BitVec.zero_or,
    show 32 - (32 - 8 * k) = 8 * k by omega, topLane_ushiftRight b h3]

theorem tableWord_eq_rotl32 {k : Nat} (b : Byte) (h1 : 1 ≤ k) (h3 : k ≤ 3) :
    tableWord k b = rotl32 (tableWord 0 b) (32 - 8 * k) := by
  rw [tableWord, ← rotl32_topLane _ h1 h3, diffuse_rotl32 _ (by omega)]
  rfl

theorem tableEntry_of_built {s : State} (h : s.tt = .built) (k : Nat) (b : Byte) :
    s.tableEntry k b = tableWord k b := by
  rw [State.tableEntry, h]

theorem roundT_eq (x : Word) : roundT x = layer (tauOf x) := by
  rw [roundT, tau_eq_tauOf, diffuse_eq_layer]

theorem roundTp_eq (x : Word) : roundTp x = layerKey (tauOf x) := by
  rw [roundTp, tau_eq_tauOf, diffuseKey_eq_layerKey]

/-- tau is the XOR of its lanes, and `L` goes through the XOR (R189). -/
theorem tableRoundT_eq_roundT {s : State} (h : s.tt = .built) (x : Word) : s.tableRoundT x = roundT x := by
  rw [roundT, tau_eq_wordOfLanes, wordOfLanes_eq_xor, diffuse_xor, diffuse_xor, diffuse_xor, State.tableRoundT]
  simp only [tableEntry_of_built h, tableWord, Nat.reduceMul, Nat.reduceSub, BitVec.shiftLeft_zero]

/-! ### Words and bytes of a block, counted from the right -/

theorem extractLsb'_eq_blockWord (v : Block) {k : Nat} (hk : k < 4) :
    v.extractLsb' (32 * k) 32 = blockWord v (3 - k) := by
  rw [blockWord, show 96 - 32 * (3 - k) = 32 * k by omega]

theorem extractLsb'_blockMapWords (f : Word → Word) (v : Block) {k : Nat} (hk : k < 4) :
    (blockMapWords f v).extractLsb' (32 * k) 32 = f (v.extractLsb' (32 * k) 32) := by
  rw [extractLsb'_eq_blockWord _ hk, blockWord_mapWords _ _ _ (by omega), extractLsb'_eq_blockWord _ hk]

/-- Byte `j` of a block is byte `j mod 4` of word `j / 4`. -/
theorem extractLsb'_byte_of_word (v : Block) (j : Nat) :
    v.extractLsb' (8 * j) 8 = (v.extractLsb' (32 * (j / 4)) 32).extractLsb' (8 * (j % 4)) 8 := by
  refine BitVec.eq_of_getLsbD_eq fun i hi => ?_
  have hj : 32 * (j / 4) + (8 * (j % 4) + i) = 8 * j + i := by omega
  have hlane : 8 * (j % 4) + i < 32 := by omega
  simp only [BitVec.getLsbD_extractLsb', hlane, hj, decide_true, Bool.true_and]

theorem extractLsb'_blockMapWords_tau (v : Block) {j : Nat} (hj : j < 16) :
    (blockMapWords tau v).extractLsb' (8 * j) 8 = sbox (v.extractLsb' (8 * j) 8) := by
  rw [extractLsb'_byte_of_word, extractLsb'_blockMapWords _ _ (by omega), extractLsb'_tau _ (by omega),
    ← extractLsb'_byte_of_word]

/-! ### The obligations about substitution and round functions -/

/-- Settles O33: byte by byte, through the word of the byte. -/
theorem subSubstitutesTheSixteenBytes : Obligations.SubSubstitutesTheSixteenBytes := by
  refine fun s => ⟨blockMapWords tau s.opa, fun j hj => extractLsb'_blockMapWords_tau s.opa hj, rfl, ?_⟩
  constructor <;> intro h <;> rw [h] <;> decide

/-- Settles O34: word by word; the corner values are evaluated. -/
theorem roundCommandsApplyTheRoundFunctionsToFourWords :
    Obligations.RoundCommandsApplyTheRoundFunctionsToFourWords := by
  refine fun s => ⟨⟨blockMapWords roundT s.opa, fun k hk => ?_, rfl⟩,
    ⟨blockMapWords roundTp s.opa, fun k hk => ?_, rfl⟩, by decide⟩
  · rw [extractLsb'_blockMapWords _ _ hk, roundT_eq]
  · rw [extractLsb'_blockMapWords _ _ hk, roundTp_eq]

/-- Settles O35: the table-driven T is T, and T is `L(tau(·))` spelled out. -/
theorem tableDrivenRoundEqualsT : Obligations.TableDrivenRoundEqualsT := by
  intro s x h
  have ht : s.tableRoundT x = layer (tauOf x) := (tableRoundT_eq_roundT h x).trans (roundT_eq x)
  exact ⟨ht, ht, roundT_eq x⟩

/-- Settles O36: the laws, each by its lemma; T and T′ are not linear already at 0, since T(0) and T′(0) are not 0. -/
theorem substitutionAndDiffusionLaws : Obligations.SubstitutionAndDiffusionLaws :=
  ⟨sbox_bijective, fun a b => ⟨diffuse_xor a b, diffuseKey_xor a b⟩,
    fun x _ hn => ⟨diffuse_rotl32 x hn, diffuseKey_rotl32 x hn⟩, tau_rotl32_eight,
    fun _ b h1 h3 => tableWord_eq_rotl32 b h1 h3, by decide, by decide, by decide, by decide,
    ⟨0, 0, by decide⟩, ⟨0, 0, by decide⟩⟩

end Sys2Proof.Machine
end

