-- ==== Sys2Proof/Proofs/BackendIndependence.lean ====
section
/-! PROOFS. Every command computes one function and ignores the backend (spec/41_substitution_round.md R187): what
commands are built of keeps two runs that differ in the backend fields alike. -/

namespace Sys2Proof.Machine

/-- The state with other values in the fields that hold a backend: CTRL.BACKEND, ACTIVE_BACKEND, the snapshot. -/
def State.withBackends (s : State) (b1 b2 : Backend) (p : Pend) : State :=
  { s with ctrlBackend := b1, activeBackend := b2, pend := p }

/-- The second run ends like the first, but for CTRL.BACKEND and the snapshot, which it leaves as it had them, and
some ACTIVE_BACKEND. -/
def SameButBackends (b1 : Backend) (p : Pend) (o o' : Host.Outcome State Fault Refusal) : Prop :=
  ∃ t b, o = .next t ∧ o' = .next (t.withBackends b1 b p)

section
variable {b1 b2 : Backend} {p : Pend} {s : State} {go : State → Host.Outcome State Fault Refusal}

/-- Stated for any two values, so that no comparison of the runs unfolds the multiplier. -/
theorem SameButBackends.complete_y_res (y res : Block) :
    SameButBackends b1 p (complete { s with y := y, res := res })
      (complete { s.withBackends b1 b2 p with y := y, res := res }) :=
  ⟨_, b2, rfl, rfl⟩

theorem SameButBackends.ite {c : Prop} [Decidable c] {x x' y y' : Host.Outcome State Fault Refusal}
    (hx : SameButBackends b1 p x x') (hy : SameButBackends b1 p y y') :
    SameButBackends b1 p (if c then x else y) (if c then x' else y') := by
  split
  · exact hx
  · exact hy

/-- The context check reads KEY_VALID, which is the same in both runs. -/
theorem SameButBackends.withContext (h : SameButBackends b1 p (go s) (go (s.withBackends b1 b2 p))) :
    SameButBackends b1 p (Machine.withContext s go) (Machine.withContext (s.withBackends b1 b2 p) go) :=
  .ite h ⟨_, b2, rfl, rfl⟩

/-- The checks of the GCM commands read KEY_VALID and the lengths. -/
theorem SameButBackends.withGcmChecks
    (h : SameButBackends b1 p (go s.clearGs) (go (s.clearGs.withBackends b1 b2 p))) :
    SameButBackends b1 p (Machine.withGcmChecks s go) (Machine.withGcmChecks (s.withBackends b1 b2 p) go) :=
  .withContext (s := s.clearGs) (b2 := b2) (.ite h ⟨_, b2, rfl, rfl⟩)

end

/-- Only KEYEXP looks at the backend asked for, and only to set ACTIVE_BACKEND (R210). -/
theorem sameButBackends_exec (i : Instr) (s : State) (b1 b2 : Backend) (p : Pend) :
    SameButBackends b1 p (exec i s) (exec i (s.withBackends b1 b2 p)) := by
  cases i with
  | nop | sub | roundT | roundTp => exact ⟨_, b2, rfl, rfl⟩
  | gfmul | ghashBlock =>
    simp only [exec, execGfmul, execGhashBlock]
    exact .complete_y_res _ _
  | keyexp => exact ⟨_, effectiveBackend s.params p.bsel, rfl, rfl⟩
  | encBlock | decBlock | ghashInit | ctrBlock =>
    simp only [exec, execEncBlock, execDecBlock, execGhashInit, execCtrBlock]
    exact .withContext ⟨_, b2, rfl, rfl⟩
  | gcmEncrypt =>
    simp only [exec, execGcmEncrypt]
    exact .withGcmChecks ⟨_, b2, rfl, rfl⟩
  | gcmDecrypt =>
    simp only [exec, execGcmDecrypt]
    exact .withGcmChecks (b2 := b2) (.ite ⟨_, b2, rfl, rfl⟩ ⟨_, b2, rfl, rfl⟩)

/-- Settles O37: the two runs are alike but for the backend fields. -/
theorem noResultDependsOnTheBackend : Obligations.NoResultDependsOnTheBackend := by
  intro s i b1 b2 b3
  obtain ⟨t, b, ht, hu⟩ := sameButBackends_exec i s b1 b2 { s.pend with bsel := b3 }
  exact ⟨t, _, ht, hu, rfl⟩

end Sys2Proof.Machine
end

