-- ==== Sys2Proof/Proofs/KeySchedule.lean ====
section
/-! PROOFS. The key schedule (spec/42_key_schedule.md R210 to R212): the rounds of the model, which carry a window of
four words, give one sequence that follows the recurrence of R212, and KEYEXP stores its words from the fifth on. -/

namespace Sys2Proof.Machine

open Sys2Proof.Statement

/-! ### The sequence of the rounds (R212) -/

/-- The window the rounds begin with, followed by the words they give. -/
def keyStates (cs : List Word) (a b x y : Word) : List Word := a :: b :: x :: y :: keyRounds cs a b x y

/-- After the first word stands the sequence of the remaining rounds, from the window moved on by one. -/
theorem keyStates_cons (c : Word) (cs : List Word) (a b x y : Word) :
    keyStates (c :: cs) a b x y = a :: keyStates cs b x y (a ^^^ roundTp (b ^^^ x ^^^ y ^^^ c)) := rfl

/-- Every word is made of the four before it and the constant of its round. -/
theorem keyStates_recurrence (cs : List Word) (a b x y : Word) (i : Nat) (hi : i < cs.length) :
    (keyStates cs a b x y).getD (i + 4) 0 =
      (keyStates cs a b x y).getD i 0 ^^^ roundTp ((keyStates cs a b x y).getD (i + 1) 0 ^^^
        (keyStates cs a b x y).getD (i + 2) 0 ^^^ (keyStates cs a b x y).getD (i + 3) 0 ^^^ cs.getD i 0) := by
  induction cs generalizing a b x y i with
  | nil => exact absurd hi (Nat.not_lt_zero i)
  | cons c cs ih =>
    cases i with
    | zero => rfl
    | succ i =>
      simp only [keyStates_cons, List.getD_cons_succ]
      exact ih b x y _ i (Nat.lt_of_succ_lt_succ hi)

/-! ### The sequence of a key (R211, R212) -/

/-- The formula of R211 gives the constants of its table. -/
theorem ck_getD (i : Nat) (hi : i < 32) : ck.getD i 0 = ckAt i := by
  revert i
  decide

/-- `state[i]` of R212 for a key: the words of the key under FK, then the round keys. -/
def keyState (k : Block) (i : Nat) : Word :=
  (keyStates ck (blockWord k 0 ^^^ fk.getD 0 0) (blockWord k 1 ^^^ fk.getD 1 0) (blockWord k 2 ^^^ fk.getD 2 0)
    (blockWord k 3 ^^^ fk.getD 3 0)).getD i 0

theorem keyState_recurrence (k : Block) (i : Nat) (hi : i < 32) :
    keyState k (i + 4) =
      keyState k i ^^^
        layerKey (tauOf (keyState k (i + 1) ^^^ keyState k (i + 2) ^^^ keyState k (i + 3) ^^^ ckAt i)) := by
  rw [← ck_getD i hi, ← roundTp_eq]
  exact keyStates_recurrence ck _ _ _ _ i hi

/-- Round key `i` is `state[i+4]`. -/
theorem keyExpand_getElem (k : Block) (i : Nat) (hi : i < 32) : (keyExpand k)[i] = keyState k (i + 4) :=
  (List.getD_eq_getElem (keyWords k) 0 ((keyWords_length k).symm ▸ hi)).symm

/-! ### The obligation about KEYEXP -/

/-- Settles O38: the sequence is that of KEY, and the command stores its round keys and the effective backend. -/
theorem keyexpCreatesTheContext : Obligations.KeyexpCreatesTheContext :=
  fun s => ⟨keyState s.key, keyExpand s.key, rfl, rfl, rfl, rfl, keyState_recurrence s.key,
    keyExpand_getElem s.key, rfl⟩

end Sys2Proof.Machine
end

