-- ==== Sys2Proof/Proofs/BlockCipher.lean ====
section
/-! PROOFS. The block cipher (spec/43_block_cipher.md R230 to R235): the rounds of the model, which carry a window of
four words, run along the sequence of R230; run again with the keys in reverse order they undo themselves; and
ENC_BLOCK and DEC_BLOCK store what they give. -/

namespace Sys2Proof.Machine

open Sys2Proof.Statement

/-! ### The sequence of the rounds (R230) -/

/-- `X[i]` of R230 for a block and its round keys. -/
def cryptState (b : Block) (keys : Nat → Word) : Nat → Word
  | 0 => blockWord b 0
  | 1 => blockWord b 1
  | 2 => blockWord b 2
  | 3 => blockWord b 3
  | i + 4 =>
    cryptState b keys i ^^^ roundT (cryptState b keys (i + 1) ^^^ cryptState b keys (i + 2) ^^^
      cryptState b keys (i + 3) ^^^ keys i)

/-- The rounds end at the last window of any sequence that begins with their window and follows the recurrence. The
induction moves the sequence on by one word. -/
theorem cryptRounds_of_recurrence (ks : List Word) (x : Nat → Word)
    (hx : ∀ i, i < ks.length → x (i + 4) = x i ^^^ roundT (x (i + 1) ^^^ x (i + 2) ^^^ x (i + 3) ^^^ ks.getD i 0)) :
    cryptRounds ks (x 0) (x 1) (x 2) (x 3) =
      blockOfWords (x (ks.length + 3)) (x (ks.length + 2)) (x (ks.length + 1)) (x ks.length) := by
  induction ks generalizing x with
  | nil => rfl
  | cons k ks ih =>
    have hfirst : x 4 = x 0 ^^^ roundT (x 1 ^^^ x 2 ^^^ x 3 ^^^ k) := hx 0 (Nat.succ_pos _)
    rw [cryptRounds, ← hfirst]
    exact ih (fun i => x (i + 1)) fun i hi => hx (i + 1) (Nat.succ_lt_succ hi)

theorem wordsOf_blockOfWords (x : Nat → Word) : WordsOf (blockOfWords (x 0) (x 1) (x 2) (x 3)) x :=
  ⟨(blockWord_ofWords_zero ..).symm, (blockWord_ofWords_one ..).symm, (blockWord_ofWords_two ..).symm,
    (blockWord_ofWords_three ..).symm⟩

/-- `Crypt` under 32 round keys, given as a list, follows the recurrence. -/
theorem cryptGives_crypt (b : Block) {ks : List Word} {keys : Nat → Word} (hlen : ks.length = 32)
    (hkeys : ∀ i, i < 32 → ks.getD i 0 = keys i) : CryptGives b keys (crypt b ks) := by
  have hlast : crypt b ks = blockOfWords (cryptState b keys 35) (cryptState b keys 34) (cryptState b keys 33)
      (cryptState b keys 32) := by
    have h := cryptRounds_of_recurrence ks (cryptState b keys) fun i hi => by
      rw [hkeys i (hlen ▸ hi), cryptState]
    rwa [hlen] at h
  refine ⟨cryptState b keys, ⟨rfl, rfl, rfl, rfl⟩, fun i _ => ?_, ?_⟩
  · rw [cryptState, roundT_eq]
  · rw [hlast]
    exact wordsOf_blockOfWords fun k => cryptState b keys (35 - k)

/-! ### Encryption and decryption (R231, R232) -/

theorem cryptGives_encryptWith (rk : Vector Word 32) (b : Block) : CryptGives b (keyAt rk) (encryptWith rk b) :=
  cryptGives_crypt b rk.length_toList fun _ _ => rfl

/-- Key `i` of the reversed list is key `31 - i` of the file. -/
theorem reverse_getD_eq_keyAt (rk : Vector Word 32) (i : Nat) (hi : i < 32) :
    rk.toList.reverse.getD i 0 = keyAt rk (31 - i) := by
  have hi' : 31 - i < 32 := by omega
  simp [keyAt, hi, hi']

theorem cryptGives_decryptWith (rk : Vector Word 32) (b : Block) :
    CryptGives b (fun i => keyAt rk (31 - i)) (decryptWith rk b) :=
  cryptGives_crypt b (by simp) (reverse_getD_eq_keyAt rk)

/-! ### The round trip (R235) -/

/-- A round on the reversed window with the same key gives back the word the round used up. -/
theorem round_reversed (a b c d k : Word) : a ^^^ roundT (b ^^^ c ^^^ d ^^^ k) ^^^ roundT (d ^^^ c ^^^ b ^^^ k) = a := by
  have hargs : d ^^^ c ^^^ b = b ^^^ c ^^^ d := by ac_rfl
  rw [hargs, BitVec.xor_assoc, BitVec.xor_self, BitVec.xor_zero]

/-- The rounds over the keys in reverse order, begun with what the rounds gave, lead back to the first window,
reversed; further keys `ls` go on from there. -/
theorem crypt_cryptRounds_reverse (ks ls : List Word) (a b c d : Word) :
    crypt (cryptRounds ks a b c d) (ks.reverse ++ ls) = cryptRounds ls d c b a := by
  induction ks generalizing ls a b c d with
  | nil => simp [cryptRounds, crypt]
  | cons k ks ih =>
    rw [List.reverse_cons, List.append_assoc, List.singleton_append, cryptRounds, ih, cryptRounds, round_reversed]

theorem crypt_reverse_crypt (b : Block) (ks : List Word) : crypt (crypt b ks) ks.reverse = b := by
  have h := crypt_cryptRounds_reverse ks [] (blockWord b 0) (blockWord b 1) (blockWord b 2) (blockWord b 3)
  rw [List.append_nil] at h
  exact h.trans (blockOfWords_blockWord b)

theorem decryptWith_encryptWith (rk : Vector Word 32) (b : Block) : decryptWith rk (encryptWith rk b) = b :=
  crypt_reverse_crypt b rk.toList

theorem encryptWith_decryptWith (rk : Vector Word 32) (b : Block) : encryptWith rk (decryptWith rk b) = b := by
  have h := crypt_reverse_crypt b rk.toList.reverse
  rwa [List.reverse_reverse] at h

/-! ### The commands (R233, R234) -/

section
variable {s : State}

theorem withContext_of_keyValid (hk : s.keyValid = true) (go : State → Host.Outcome State Fault Refusal) :
    withContext s go = go s :=
  if_pos hk

theorem withContext_of_noKey (hk : s.keyValid = false) (go : State → Host.Outcome State Fault Refusal) :
    withContext s go = .next (finished s .noKey) :=
  withContext_next.2 (.inr ⟨hk, rfl⟩)

theorem exec_encBlock_of_keyValid (hk : s.keyValid = true) :
    exec .encBlock s = .next { finished s .ok with res := encryptWith s.rk s.opa } := by
  rw [exec, execEncBlock, withContext_of_keyValid hk]
  rfl

theorem exec_decBlock_of_keyValid (hk : s.keyValid = true) :
    exec .decBlock s = .next { finished s .ok with res := decryptWith s.rk s.opa } := by
  rw [exec, execDecBlock, withContext_of_keyValid hk]
  rfl

end

/-! ### The obligations about the block cipher -/

/-- Settles O39: the sequence is that of the block under the keys of the file, in order for E and reversed for D. -/
theorem blockCipherFollowsTheRounds : Obligations.BlockCipherFollowsTheRounds :=
  fun rk b => ⟨cryptGives_encryptWith rk b, cryptGives_decryptWith rk b⟩

/-- Settles O40: the context check decides, and with a context RES is E or D of OPA. -/
theorem blockCommandsWriteTheCipherResult : Obligations.BlockCommandsWriteTheCipherResult := by
  refine fun s => ⟨fun hk => ⟨?_, ?_⟩, fun hk => ⟨?_, ?_⟩⟩
  · exact ⟨_, cryptGives_encryptWith s.rk s.opa, exec_encBlock_of_keyValid hk⟩
  · exact ⟨_, cryptGives_decryptWith s.rk s.opa, exec_decBlock_of_keyValid hk⟩
  · rw [exec, execEncBlock, withContext_of_noKey hk]
  · rw [exec, execDecBlock, withContext_of_noKey hk]

/-- Settles O41: a round is undone by the round with the same key on the reversed window, so the rounds are undone in
reverse order; ENC_BLOCK leaves the context, so DEC_BLOCK runs under the same keys. -/
theorem cipherRoundTrip : Obligations.CipherRoundTrip := by
  refine ⟨fun rk b => ⟨decryptWith_encryptWith rk b, encryptWith_decryptWith rk b⟩, fun s t hk h => ?_⟩
  obtain rfl : { finished s .ok with res := encryptWith s.rk s.opa } = t :=
    Host.Outcome.next.inj ((exec_encBlock_of_keyValid hk).symm.trans h)
  exact ⟨_, exec_decBlock_of_keyValid hk, decryptWith_encryptWith s.rk s.opa, rfl⟩

end Sys2Proof.Machine
end

