-- ==== Sys2Proof/Proofs/GfGhash.lean ====
section
/-! PROOFS. The GF(2^128) multiplier, GHASH and their commands (spec/44_gf_ghash.md R250 to R256). The loop of R250 is
linear in the multiplicand and commutes with every linear map that commutes with the shift. So multiplications commute
with each other, and with the identity element that makes the product commutative. -/

namespace Sys2Proof.Machine

open Sys2Proof.Statement

/-! ### The loop and its sequences (R250) -/

/-- The loop ends at the last accumulator of any two sequences that begin with its arguments and follow the
recurrence. The induction moves both sequences on by one. -/
theorem gfLoop_of_recurrence (x : Block) (n : Nat) (z v : Nat → Block)
    (hz : ∀ i, i < n → z (i + 1) = if x.getLsbD (n - 1 - i) then z i ^^^ v i else z i)
    (hv : ∀ i, i < n → v (i + 1) = gfShift (v i)) : gfLoop x n (z 0) (v 0) = z n := by
  induction n generalizing z v with
  | zero => rfl
  | succ n ih =>
    have hz0 : z 1 = if x.getLsbD n then z 0 ^^^ v 0 else z 0 := hz 0 n.succ_pos
    have hv0 : v 1 = gfShift (v 0) := hv 0 n.succ_pos
    rw [gfLoop, ← hz0, ← hv0]
    refine ih (fun i => z (i + 1)) (fun i => v (i + 1)) (fun i hi => ?_) fun i hi => hv (i + 1) (Nat.succ_lt_succ hi)
    rw [hz (i + 1) (Nat.succ_lt_succ hi), show n + 1 - 1 - (i + 1) = n - 1 - i by omega]

/-- `Z` of R250 before position `i`. -/
def gfSum (x y : Block) : Nat → Block
  | 0 => 0
  | i + 1 => if x.getLsbD (127 - i) then gfSum x y i ^^^ gfShift^[i] y else gfSum x y i

theorem gfmul_eq_gfSum (x y : Block) : gfmul x y = gfSum x y 128 :=
  gfLoop_of_recurrence x 128 (gfSum x y) (fun i => gfShift^[i] y) (fun _ _ => rfl)
    fun i _ => Function.iterate_succ_apply' gfShift i y

/-! ### Linearity -/

theorem gfShift_xor (a b : Block) : gfShift (a ^^^ b) = gfShift a ^^^ gfShift b := by
  have hshift : (a ^^^ b) >>> 1 = a >>> 1 ^^^ b >>> 1 := BitVec.ushiftRight_xor_distrib a b 1
  rw [gfShift, gfShift, gfShift, BitVec.getLsbD_xor, hshift]
  cases a.getLsbD 0 <;> cases b.getLsbD 0
  · rfl
  · exact BitVec.xor_assoc ..
  · show _ = a >>> 1 ^^^ gfReduction ^^^ b >>> 1
    ac_rfl
  · show a >>> 1 ^^^ b >>> 1 = a >>> 1 ^^^ gfReduction ^^^ (b >>> 1 ^^^ gfReduction)
    have hpairs : a >>> 1 ^^^ gfReduction ^^^ (b >>> 1 ^^^ gfReduction) =
        a >>> 1 ^^^ b >>> 1 ^^^ (gfReduction ^^^ gfReduction) := by ac_rfl
    rw [hpairs, BitVec.xor_self, BitVec.xor_zero]

theorem gfLoop_xor (x : Block) (n : Nat) (z z' v v' : Block) :
    gfLoop x n (z ^^^ z') (v ^^^ v') = gfLoop x n z v ^^^ gfLoop x n z' v' := by
  induction n generalizing z z' v v' with
  | zero => rfl
  | succ n ih =>
    have hterm : z ^^^ z' ^^^ (v ^^^ v') = (z ^^^ v) ^^^ (z' ^^^ v') := by ac_rfl
    rw [gfLoop, gfLoop, gfLoop, ← ih, gfShift_xor, hterm]
    split <;> rfl

theorem gfmul_xor_right (a b c : Block) : gfmul a (b ^^^ c) = gfmul a b ^^^ gfmul a c :=
  gfLoop_xor a 128 0 0 b c

/-- A map that is linear over XOR and commutes with the shift: multiplication by a fixed element is one. -/
structure GfLinear (f : Block → Block) : Prop where
  xor : ∀ a b, f (a ^^^ b) = f a ^^^ f b
  shift : ∀ v, f (gfShift v) = gfShift (f v)

theorem GfLinear.map_zero {f : Block → Block} (hf : GfLinear f) : f 0 = 0 := by
  have h := hf.xor 0 0
  rwa [BitVec.xor_self, BitVec.xor_self] at h

theorem GfLinear.map_gfLoop {f : Block → Block} (hf : GfLinear f) (x : Block) (n : Nat) (z v : Block) :
    f (gfLoop x n z v) = gfLoop x n (f z) (f v) := by
  induction n generalizing z v with
  | zero => rfl
  | succ n ih => rw [gfLoop, gfLoop, ih, hf.shift, apply_ite f, hf.xor]

theorem GfLinear.map_gfmul {f : Block → Block} (hf : GfLinear f) (x y : Block) : f (gfmul x y) = gfmul x (f y) := by
  rw [gfmul, hf.map_gfLoop, hf.map_zero, gfmul]

theorem gfLinear_gfShift : GfLinear gfShift := ⟨gfShift_xor, fun _ => rfl⟩

theorem gfLinear_gfmul (a : Block) : GfLinear (gfmul a) :=
  ⟨gfmul_xor_right a, fun v => (gfLinear_gfShift.map_gfmul a v).symm⟩

/-! ### The identity element and commutativity (R256) -/

/-- Above bit 0 the shift moves a single bit down. -/
theorem gfShift_twoPow (n : Nat) (hn : n + 1 < 128) : gfShift (BitVec.twoPow 128 (n + 1)) = BitVec.twoPow 128 n := by
  have hlow : (BitVec.twoPow 128 (n + 1)).getLsbD 0 = false := by simp
  rw [gfShift, hlow]
  refine BitVec.eq_of_getLsbD_eq fun i hi => ?_
  have hmove : n + 1 = 1 + i ↔ n = i := by omega
  simp [hn, Nat.lt_of_succ_lt hn, hmove]

/-- One position of the loop, tested when the multiplicand is that single bit, puts the multiplier's bit there. -/
theorem getLsbD_ite_twoPow (x z : Block) {n i : Nat} (hi : i < 128) :
    (if x.getLsbD n then z ^^^ BitVec.twoPow 128 n else z).getLsbD i =
      (z.getLsbD i ^^ (decide (i = n) && x.getLsbD i)) := by
  by_cases hin : i = n
  · subst hin
    cases hx : x.getLsbD i <;> simp [hi]
  · have hother : (BitVec.twoPow 128 n).getLsbD i = false := by simp [Ne.symm hin]
    cases x.getLsbD n <;> simp [hin, hother]

/-- From the single bit `n` on, the loop collects the bits `n` to 0 of the multiplier. -/
theorem getLsbD_gfLoop_twoPow (x z : Block) (n : Nat) (hn : n < 128) (i : Nat) (hi : i < 128) :
    (gfLoop x (n + 1) z (BitVec.twoPow 128 n)).getLsbD i = (z.getLsbD i ^^ (decide (i ≤ n) && x.getLsbD i)) := by
  induction n generalizing z with
  | zero => simp only [gfLoop, getLsbD_ite_twoPow x z hi, Nat.le_zero_eq]
  | succ n ih =>
    rw [gfLoop, gfShift_twoPow n hn, ih _ (Nat.lt_of_succ_lt hn), getLsbD_ite_twoPow x z hi, Bool.xor_assoc]
    have hsplit : (decide (i = n + 1) ^^ decide (i ≤ n)) = decide (i ≤ n + 1) := by grind
    rw [← Bool.and_xor_distrib_right, hsplit]

theorem gfmul_one (a : Block) : gfmul a 0x80000000000000000000000000000000 = a := by
  have hone : (0x80000000000000000000000000000000 : Block) = BitVec.twoPow 128 127 := by decide
  refine BitVec.eq_of_getLsbD_eq fun i hi => ?_
  rw [hone, gfmul, getLsbD_gfLoop_twoPow a 0 127 (by decide) i hi]
  simp [Nat.le_of_lt_succ hi]

/-- Both products are `b` multiplied into `a` times one. -/
theorem gfmul_comm (a b : Block) : gfmul a b = gfmul b a :=
  calc gfmul a b = gfmul a (gfmul b 0x80000000000000000000000000000000) := by rw [gfmul_one]
    _ = gfmul b (gfmul a 0x80000000000000000000000000000000) := (gfLinear_gfmul a).map_gfmul b _
    _ = gfmul b a := by rw [gfmul_one]

theorem gfmul_zero (a : Block) : gfmul a 0 = 0 := (gfLinear_gfmul a).map_zero

theorem zero_gfmul (a : Block) : gfmul 0 a = 0 := by rw [gfmul_comm, gfmul_zero]

theorem gfmul_xor_left (a b c : Block) : gfmul (a ^^^ b) c = gfmul a c ^^^ gfmul b c := by
  rw [gfmul_comm, gfmul_xor_right, gfmul_comm c a, gfmul_comm c b]

/-! ### GHASH (R252) -/

theorem pad16_eq_padded (bs : List Byte) : pad16 bs = padded bs := by
  have hcount : roundup16 bs.length - bs.length = (16 - bs.length % 16) % 16 := by unfold roundup16; omega
  rw [pad16, hcount, zeros, padded]

theorem pad16_pad16 (bs : List Byte) : pad16 (pad16 bs) = pad16 bs :=
  pad16_eq_self (by rw [pad16_length, roundup16_mod])

/-- On a whole number of blocks GHASH pads nothing. -/
theorem ghash_of_blocks (hk : Block) {n : Nat} {bs : List Byte} (h : bs.length = 16 * n) :
    ghash hk bs = ghashBlocks hk n 0 bs := by
  rw [ghash, pad16_eq_self (by omega), show bs.length / 16 = n by omega]

/-- The block after `n` others is absorbed last. -/
theorem ghashBlocks_append (hk : Block) (n : Nat) (y : Block) (bs b : List Byte) (hbs : bs.length = 16 * n)
    (hb : b.length = 16) :
    ghashBlocks hk (n + 1) y (bs ++ b) = gfmul (ghashBlocks hk n y bs ^^^ blk2int b) hk := by
  induction n generalizing y bs with
  | zero =>
    obtain rfl : bs = [] := List.eq_nil_of_length_eq_zero hbs
    rw [List.nil_append, ghashBlocks, ghashBlocks, ghashBlocks, List.take_of_length_le hb.le]
  | succ n ih =>
    have htake : (bs ++ b).take 16 = bs.take 16 := List.take_append_of_le_length (by omega)
    have hdrop : (bs ++ b).drop 16 = bs.drop 16 ++ b := List.drop_append_of_le_length (by omega)
    rw [ghashBlocks, htake, hdrop, ih _ _ (by rw [List.length_drop]; omega), ghashBlocks]

/-! ### The commands (R253 to R255) -/

theorem exec_gfmul (s : State) : exec .gfmul s = .next { finished s .ok with res := gfmul s.opa s.opb } :=
  complete_next.2 rfl

theorem exec_ghashBlock (s : State) :
    exec .ghashBlock s =
      .next { finished s .ok with y := gfmul (s.y ^^^ s.opa) s.h, res := gfmul (s.y ^^^ s.opa) s.h } :=
  complete_next.2 rfl

theorem exec_ghashInit_of_keyValid {s : State} (hk : s.keyValid = true) :
    exec .ghashInit s = .next { finished s .ok with h := encryptWith s.rk 0, y := 0 } := by
  rw [exec, execGhashInit, withContext_of_keyValid hk]
  rfl

/-! ### The obligations about the multiplier and GHASH -/

/-- Settles O42: the sequences are the partial sums and the shifted copies of OPB. -/
theorem gfmulFollowsTheBitSerialRecurrence : Obligations.GfmulFollowsTheBitSerialRecurrence := by
  refine fun s => ⟨gfSum s.opa s.opb, fun i => gfShift^[i] s.opb, rfl, rfl, fun _ _ => rfl, fun i _ => ?_, ?_⟩
  · exact Function.iterate_succ_apply' gfShift i s.opb
  · rw [exec_gfmul, gfmul_eq_gfSum]

/-- Settles O43: multiplication by a fixed element is linear, and the identity makes the product commute. -/
theorem gfmulLaws : Obligations.GfmulLaws :=
  ⟨fun a => ⟨gfmul_zero a, zero_gfmul a⟩, gfmul_xor_left, gfmul_comm, gfmul_one⟩

/-- Settles O44: padding is idempotent, and the last block of a whole number of blocks is absorbed last. -/
theorem ghashAbsorbsBlocksInOrder : Obligations.GhashAbsorbsBlocksInOrder := by
  refine fun hk => ⟨rfl, fun bs => ?_, fun bs b hbs hb => ?_⟩
  · rw [← pad16_eq_padded, ghash, ghash, pad16_pad16]
  · have hlen : bs.length = 16 * (bs.length / 16) := by omega
    have hlen' : (bs ++ b).length = 16 * (bs.length / 16 + 1) := by rw [List.length_append]; omega
    rw [ghash_of_blocks hk hlen', ghash_of_blocks hk hlen, ghashBlocks_append hk _ 0 bs b hlen hb]

/-- Settles O45: the context check decides, and H is E of the zero block. -/
theorem ghashInitDerivesHAndClearsY : Obligations.GhashInitDerivesHAndClearsY := by
  refine fun s => ⟨fun hk => ?_, fun hk => ?_⟩
  · exact ⟨_, cryptGives_encryptWith s.rk 0, exec_ghashInit_of_keyValid hk⟩
  · rw [exec, execGhashInit, withContext_of_noKey hk]

/-- Settles O46: the product with zero is zero on either side, and `Y = OPA` cancels. -/
theorem ghashBlockAbsorbsOpa : Obligations.GhashBlockAbsorbsOpa := by
  refine fun s => ⟨_, rfl, exec_ghashBlock s, ?_⟩
  rintro (hh | hy)
  · rw [hh, gfmul_zero]
  · rw [hy, BitVec.xor_self]
    exact zero_gfmul s.h

end Sys2Proof.Machine
end

