-- ==== Sys2Proof/Proofs/GcmStrings.lean ====
section
/-! PROOFS. The byte strings of the GCM commands (spec/45_ctr_gcm.md R282, R283): the value of a string read
big-endian, a byte at a time from its end, gives back the string and the numbers encoded in it. -/

namespace Sys2Proof.Machine

open Sys2Proof.Statement

/-! ### The value of a byte string (R12) -/

theorem toNat_blk2int_nil : (blk2int []).toNat = 0 := rfl

/-- One more byte: the value moves up by a byte, and the top byte is lost. -/
theorem blk2int_concat (bs : List Byte) (b : Byte) : blk2int (bs ++ [b]) = (blk2int bs ++ b).setWidth 128 := by
  rw [BitVec.setWidth_append_eq_shiftLeft_setWidth_or, BitVec.setWidth_eq, blk2int, List.foldl_concat, blk2int]

theorem toNat_blk2int_concat (bs : List Byte) (b : Byte) :
    (blk2int (bs ++ [b])).toNat = ((blk2int bs).toNat * 2 ^ 8 + b.toNat) % 2 ^ 128 := by
  rw [blk2int_concat, BitVec.toNat_setWidth, toNat_append_eq_add]

/-- Byte `m` from the end of a string is byte `m` from the bottom of its value. -/
theorem extractLsb'_blk2int (bs : List Byte) {m : Nat} (hm : m < 16) :
    (blk2int bs).extractLsb' (8 * m) 8 = bs.reverse.getD m 0 := by
  induction bs using List.reverseRecOn generalizing m with
  | nil => simp [blk2int]
  | append_singleton bs b ih =>
    rw [blk2int_concat, List.reverse_concat, BitVec.extractLsb'_setWidth_of_le (by omega)]
    cases m with
    | zero => exact BitVec.extractLsb'_append_eq_right
    | succ m =>
      rw [List.getD_cons_succ, ← ih (Nat.lt_of_succ_lt hm), BitVec.extractLsb'_append_eq_of_le (by omega),
        Nat.mul_succ, Nat.add_sub_cancel]

/-- A block keeps all 16 bytes. -/
theorem int2blk_blk2int {bs : List Byte} (h : bs.length = 16) : int2blk (blk2int bs) = bs := by
  refine List.ext_getElem h.symm fun j _ hj => ?_
  have hj16 : 15 - j < 16 := by omega
  have hback : 15 - (15 - j) = j := by omega
  calc (int2blk (blk2int bs))[j] = (blk2int bs).extractLsb' (8 * (15 - j)) 8 := by simp [int2blk, blockByte]
    _ = bs.reverse.getD (15 - j) 0 := extractLsb'_blk2int bs hj16
    _ = bs[j] := by simp [h, hj16, hback]

/-! ### Big-endian numbers in a byte string (R11) -/

theorem beBytes_succ (n v : Nat) : beBytes (n + 1) v = beBytes n (v / 2 ^ 8) ++ [BitVec.ofNat 8 v] := by
  rw [beBytes, beBytes, List.range_succ, List.map_append]
  congr 1
  · refine List.map_congr_left fun j hj => ?_
    have hj' : j < n := List.mem_range.1 hj
    rw [Nat.div_div_eq_div_mul, ← Nat.pow_add, show 8 + 8 * (n - 1 - j) = 8 * (n + 1 - 1 - j) by omega]
  · simp

/-- A number encoded at the end of a string stands in the low bytes of its value. -/
theorem toNat_blk2int_append_beBytes (bs : List Byte) (n v : Nat) :
    (blk2int (bs ++ beBytes n v)).toNat = ((blk2int bs).toNat * 2 ^ (8 * n) + v % 2 ^ (8 * n)) % 2 ^ 128 := by
  induction n generalizing v with
  | zero => simp [beBytes, Nat.mod_one, (blk2int bs).isLt, Nat.mod_eq_of_lt]
  | succ n ih =>
    have hsplit : v % 2 ^ (8 * (n + 1)) = v / 2 ^ 8 % 2 ^ (8 * n) * 2 ^ 8 + v % 2 ^ 8 := by
      rw [Nat.mul_succ, Nat.pow_add, Nat.mul_comm, Nat.mod_mul]
      omega
    rw [beBytes_succ, ← List.append_assoc, toNat_blk2int_concat, ih, BitVec.toNat_ofNat, hsplit, Nat.mul_succ,
      Nat.pow_add, ← Nat.mul_assoc]
    generalize (blk2int bs).toNat * 2 ^ (8 * n) = x
    omega

/-- The length block of the tag: two 64-bit numbers. -/
theorem toNat_blk2int_two_beBytes {x y : Nat} (hx : x < 2 ^ 64) (hy : y < 2 ^ 64) :
    (blk2int (beBytes 8 x ++ beBytes 8 y)).toNat = x * 2 ^ 64 + y := by
  have hhigh : (blk2int (beBytes 8 x)).toNat = x := by
    rw [← List.nil_append (beBytes 8 x), toNat_blk2int_append_beBytes, toNat_blk2int_nil]
    omega
  rw [toNat_blk2int_append_beBytes, hhigh]
  omega

/-- The 64 zero bits of the length block of an IV, as a number. -/
theorem zeros_eq_beBytes : zeros 8 = beBytes 8 0 := by decide

/-- Settles O48: a string of 16 bytes is kept by its block, and the length blocks are two 64-bit numbers. -/
theorem gcmStringsAreBuiltAsTheRulesSay : Obligations.GcmStringsAreBuiltAsTheRulesSay := by
  refine ⟨fun hk iv _ hiv => ⟨fun h12 => ?_, fun h12 => ?_⟩, fun a c ha hc => ?_⟩
  · have hone : beBytes 4 1 = [0, 0, 0, 1] := by decide
    rw [initialCounter, if_pos h12, int2blk_blk2int (by simp [h12]), hone]
  · refine ⟨zeros 8 ++ beBytes 8 (8 * iv.length), by simp, ?_, ?_⟩
    · rw [zeros_eq_beBytes, toNat_blk2int_two_beBytes (by omega) (by omega)]
      omega
    · rw [initialCounter, if_neg h12, pad16_eq_padded, List.append_assoc]
  · refine ⟨beBytes 8 (8 * a.length) ++ beBytes 8 (8 * c.length), by simp, ?_, ?_⟩
    · exact toNat_blk2int_two_beBytes (by omega) (by omega)
    · rw [tagInput, pad16_eq_padded, pad16_eq_padded, List.append_assoc]

end Sys2Proof.Machine
end

