-- ==== Sys2Proof/Proofs/CtrGcm.lean ====
section
/-! PROOFS. Counter mode and the GCM commands (spec/45_ctr_gcm.md R280 to R296). Both GCM commands that pass their
checks leave `gcmDone`: the text in counter mode over the text, and a tag. Counter mode undoes itself, and the tag
recomputed after GCM_ENCRYPT is the one it wrote. -/

namespace Sys2Proof.Machine

open Sys2Proof.Statement

/-! ### CTR_BLOCK (R280, R281) -/

theorem toNat_inc32 (x : Block) :
    (inc32 x).toNat = x.toNat / 2 ^ 32 * 2 ^ 32 + (x.toNat % 2 ^ 32 + 1) % 2 ^ 32 := by
  have hhigh : (x.extractLsb' 32 96).toNat = x.toNat / 2 ^ 32 := by
    rw [BitVec.extractLsb'_toNat, Nat.shiftRight_eq_div_pow, Nat.mod_eq_of_lt]
    exact Nat.div_lt_of_lt_mul x.isLt
  have hlow : (x.extractLsb' 0 32 + 1).toNat = (x.toNat % 2 ^ 32 + 1) % 2 ^ 32 := by
    rw [BitVec.toNat_add, BitVec.extractLsb'_toNat, Nat.shiftRight_zero]
    rfl
  rw [inc32, toNat_append_eq_add, hhigh, hlow]

theorem exec_ctrBlock_of_keyValid {s : State} (hk : s.keyValid = true) :
    exec .ctrBlock s =
      .next { finished s .ok with res := s.opa ^^^ encryptWith s.rk s.ctr, ctr := inc32 s.ctr } := by
  rw [exec, execCtrBlock, withContext_of_keyValid hk]
  rfl

/-- Settles O47: the context check decides, and `inc32` in numbers. -/
theorem ctrBlockEncryptsAndIncrementsTheCounter : Obligations.CtrBlockEncryptsAndIncrementsTheCounter := by
  refine fun s => ⟨fun hk => ?_, fun hk => ?_⟩
  · exact ⟨_, _, cryptGives_encryptWith s.rk s.ctr, toNat_inc32 s.ctr, exec_ctrBlock_of_keyValid hk⟩
  · rw [exec, execCtrBlock, withContext_of_noKey hk]

/-! ### The operands byte by byte (R286, R287) -/

theorem textOperand_eq_textOf (s : State) : s.textOperand = textOf s := by
  rw [State.textOperand, textBase_eq_textStart]
  rfl

theorem bytesFrom_length (byte : Nat → Byte) (a n : Nat) : (bytesFrom byte a n).length = n := by
  simp [bytesFrom]

theorem bytesFrom_getElem? (byte : Nat → Byte) (a : Nat) {n k : Nat} (hk : k < n) :
    (bytesFrom byte a n)[k]? = some (byte (a + k)) := by
  simp [bytesFrom, hk]

theorem bytesFrom_zero_getElem? (byte : Nat → Byte) {n k : Nat} (hk : k < n) :
    (bytesFrom byte 0 n)[k]? = some (byte k) := by
  rw [bytesFrom_getElem? byte 0 hk, Nat.zero_add]

theorem textOf_length (s : State) : (textOf s).length = s.textLen.toNat := bytesFrom_length ..

theorem textOf_getElem? {s : State} {k : Nat} (hk : k < s.textLen.toNat) :
    (textOf s)[k]? = some (s.bufByte (textStart s + k)) :=
  bytesFrom_getElem? s.bufByte _ hk

/-- The model's operands are those of R286 and R287. -/
theorem gcmOperands_as_listed (s : State) :
    s.textBase = textStart s ∧ s.gcmJ0 = j0Of s ∧
    s.ivOperand.length = s.ivLen.toNat ∧ (∀ k, k < s.ivLen.toNat → s.ivOperand[k]? = some (s.ivByte k)) ∧
    s.aadOperand.length = s.aadLen.toNat ∧ (∀ k, k < s.aadLen.toNat → s.aadOperand[k]? = some (s.bufByte k)) ∧
    s.textOperand.length = s.textLen.toNat ∧
    (∀ k, k < s.textLen.toNat → s.textOperand[k]? = some (s.bufByte (textStart s + k))) := by
  rw [textOperand_eq_textOf]
  exact ⟨textBase_eq_textStart s, rfl, ivRead_length .., fun _ => bytesFrom_zero_getElem? s.ivByte,
    bufRead_length .., fun _ => bytesFrom_zero_getElem? s.bufByte, textOf_length s, fun _ => textOf_getElem?⟩

/-! ### What a GCM command that passes its checks leaves -/

/-- The text in counter mode: the ciphertext of a plaintext, the plaintext of a ciphertext. -/
def crypted (s : State) : List Byte := ctrText s.rk (j0Of s) (textOf s)

/-- The completion that replaces the text by `bs` and TAG by `tag`. -/
def gcmDone (s : State) (bs : List Byte) (tag : Block) : State :=
  { finished (s.bufWrite s.textBase bs) .ok with tag := tag, gs := GcmState.zero }

theorem crypted_length (s : State) : (crypted s).length = s.textLen.toNat := by
  rw [crypted, ctrText_length, textOf_length]

theorem crypted_getElem? {s : State} {k : Nat} (hk : k < s.textLen.toNat) :
    (crypted s)[k]? = some (s.bufByte (textStart s + k) ^^^ keystreamByte s k) := by
  rw [crypted, ctrText_getElem?, textOf_getElem? hk]
  rfl

section
variable {s : State} {bs : List Byte} {tag : Block}

theorem bufByte_gcmDone_inside {k : Nat} {b : Byte} (hk : bs[k]? = some b) :
    (gcmDone s bs tag).bufByte (textStart s + k) = b := by
  obtain ⟨hlt, rfl⟩ := List.getElem?_eq_some_iff.1 hk
  rw [← textBase_eq_textStart]
  exact bufByte_bufWrite_inside s _ k bs hlt

theorem bufByte_gcmDone_outside (hbs : bs.length = s.textLen.toNat) {a : Nat}
    (ha : a < textStart s ∨ textStart s + s.textLen.toNat ≤ a) : (gcmDone s bs tag).bufByte a = s.bufByte a := by
  rw [← textBase_eq_textStart, ← hbs] at ha
  exact bufByte_bufWrite_outside s _ a bs ha

theorem textOf_gcmDone (hbs : bs.length = s.textLen.toNat) : textOf (gcmDone s bs tag) = bs := by
  rw [← textOperand_eq_textOf]
  exact textOperand_bufWrite s bs hbs

theorem aadOf_gcmDone : aadOf (gcmDone s bs tag) = aadOf s :=
  aadOperand_bufWrite s bs

theorem j0Of_gcmDone : j0Of (gcmDone s bs tag) = j0Of s := rfl

/-- The tag recomputed afterwards is over the same AAD, under the same J0, and over the new text. -/
theorem tagOver_gcmDone (hbs : bs.length = s.textLen.toNat) :
    tagOver (gcmDone s bs tag) = gcmTag s.rk (j0Of s) (aadOf s) bs := by
  rw [tagOver, textOf_gcmDone hbs, aadOf_gcmDone, j0Of_gcmDone]
  rfl

/-- Counter mode again, on a text that is already in counter mode, gives back the text. -/
theorem crypted_gcmDone_crypted : crypted (gcmDone s (crypted s) tag) = textOf s := by
  rw [crypted, textOf_gcmDone (crypted_length s), j0Of_gcmDone]
  exact ctrText_ctrText ..

/-- The text written back over what replaced it leaves BUF as it was. -/
theorem bufByte_gcmDone_gcmDone {tag' : Block} (hbs : bs.length = s.textLen.toNat) (a : Nat) :
    (gcmDone (gcmDone s bs tag) (textOf s) tag').bufByte a = s.bufByte a := by
  by_cases ha : a < textStart s ∨ textStart s + s.textLen.toNat ≤ a
  · exact (bufByte_gcmDone_outside (s := gcmDone s bs tag) (textOf_length s) ha).trans
      (bufByte_gcmDone_outside hbs ha)
  · obtain ⟨k, rfl⟩ : ∃ k, a = textStart s + k := ⟨a - textStart s, by omega⟩
    exact bufByte_gcmDone_inside (s := gcmDone s bs tag) (textOf_getElem? (by omega))

/-! ### The commands (R285 to R293) -/

theorem withGcmChecks_of_good (hk : s.keyValid = true) (hl : LengthsGood s)
    (go : State → Host.Outcome State Fault Refusal) : withGcmChecks s go = go s.clearGs := by
  rw [withGcmChecks, withContext_of_keyValid (s := s.clearGs) hk]
  exact if_pos ((lengthsOk_iff s).2 hl)

theorem exec_gcmEncrypt_of_good (hk : s.keyValid = true) (hl : LengthsGood s) :
    exec .gcmEncrypt s = .next (gcmDone s (crypted s) (gcmTag s.rk (j0Of s) (aadOf s) (crypted s))) := by
  rw [exec, execGcmEncrypt, withGcmChecks_of_good hk hl, crypted, ← textOperand_eq_textOf]
  rfl

theorem exec_gcmDecrypt_of_verified (hk : s.keyValid = true) (hl : LengthsGood s) (htag : s.tag = tagOver s) :
    exec .gcmDecrypt s = .next (gcmDone s (crypted s) s.tag) := by
  rw [exec, execGcmDecrypt, withGcmChecks_of_good hk hl, crypted, ← textOperand_eq_textOf]
  exact if_pos ((gcmTag_eq_tagOver s).trans htag.symm)

/-- A failed check of a GCM command: only the completion, with its code, and GS. -/
theorem exec_of_checkCode {i : Instr} {e : ErrCode} (hi : IsGcm i) (he : e ≠ .ok) (hcode : checkCode i s = e) :
    exec i s = .next { finished s e with gs := GcmState.zero } := by
  obtain ⟨t, hx, -⟩ := exec_completes i s
  subst hcode
  rw [hx, (endsAsChecked_of_exec hx).failed he, gsDone, if_pos hi]
  rfl

theorem exec_gcmDecrypt_of_wrongTag (hk : s.keyValid = true) (hl : LengthsGood s) (htag : s.tag ≠ tagOver s) :
    exec .gcmDecrypt s = .next { finished s .authFail with gs := GcmState.zero } :=
  exec_of_checkCode (.inr rfl) (by decide)
    ((checkCode_gcmDecrypt hk ((lengthsOk_iff s).2 hl)).trans (if_neg htag.symm))

/-- What GCM_ENCRYPT leaves, and that its TAG is the one GCM_DECRYPT recomputes. -/
theorem eq_gcmDone_of_exec_gcmEncrypt {t : State} (hk : s.keyValid = true) (hl : LengthsGood s)
    (hx : exec .gcmEncrypt s = .next t) :
    t = gcmDone s (crypted s) (gcmTag s.rk (j0Of s) (aadOf s) (crypted s)) ∧ t.tag = tagOver t := by
  obtain rfl := Host.Outcome.next.inj ((exec_gcmEncrypt_of_good hk hl).symm.trans hx)
  exact ⟨rfl, (tagOver_gcmDone (crypted_length s)).symm⟩

end

/-! ### The obligations about the GCM commands -/

theorem not_lengthsGood_of_aadLen_max {s : State} (ha : s.aadLen = 0xFFFFFFFF) (hp : s.params.legal = true) :
    ¬ LengthsGood s := by
  simp only [Params.legal, Params.bufBytesLegal, Bool.and_eq_true, decide_eq_true_eq] at hp
  obtain ⟨⟨-, hbuf⟩, -⟩ := hp
  have haad : s.aadLen.toNat = 0xFFFFFFFF := by rw [ha]; rfl
  rintro ⟨-, -, hlen⟩
  omega

/-- Settles O49: the code is that of the first failing check. -/
theorem gcmLengthChecks : Obligations.GcmLengthChecks := by
  refine fun s i hi hk => ⟨fun hbad => ?_, fun hl => ?_, not_lengthsGood_of_aadLen_max⟩
  · have hno : s.lengthsOk = false := Bool.eq_false_iff.2 (mt (lengthsOk_iff s).1 hbad)
    exact exec_of_checkCode hi (by decide) (checkCode_eq_badLength hi hk hno)
  · have hok : s.lengthsOk = true := (lengthsOk_iff s).2 hl
    obtain ⟨t, hx, -⟩ := exec_completes i s
    refine ⟨t, hx, ?_⟩
    rw [(endsAsChecked_of_exec hx).err]
    obtain rfl | rfl := hi
    · rw [checkCode_gcmEncrypt hk hok]
      decide
    · rw [checkCode_gcmDecrypt hk hok]
      split <;> decide

/-- Settles O50: counter mode byte by byte, and the tag recomputed over what GCM_ENCRYPT leaves. -/
theorem gcmEncryptReplacesTheTextAndWritesTheTag : Obligations.GcmEncryptReplacesTheTextAndWritesTheTag := by
  refine ⟨gcmOperands_as_listed, fun s hk hl => ?_⟩
  exact ⟨_, exec_gcmEncrypt_of_good hk hl, rfl, fun _ hlt => bufByte_gcmDone_inside (crypted_getElem? hlt),
    fun _ ha => bufByte_gcmDone_outside (crypted_length s) ha, (tagOver_gcmDone (crypted_length s)).symm⟩

/-- Settles O51: decryption replaces the text as encryption does, by counter mode, and keeps TAG. -/
theorem gcmDecryptReplacesAVerifiedText : Obligations.GcmDecryptReplacesAVerifiedText :=
  fun s hk hl htag =>
    ⟨_, exec_gcmDecrypt_of_verified hk hl htag, rfl, fun _ hlt => bufByte_gcmDone_inside (crypted_getElem? hlt),
      fun _ ha => bufByte_gcmDone_outside (crypted_length s) ha⟩

/-- Settles O52: the comparison is the last check of GCM_DECRYPT, and it fails. -/
theorem gcmDecryptWithAWrongTagReleasesNothing : Obligations.GcmDecryptWithAWrongTagReleasesNothing :=
  fun _ => exec_gcmDecrypt_of_wrongTag

/-- Settles O53: the tag GCM_ENCRYPT wrote verifies, and counter mode undoes itself; what it writes is a function of
the round keys, the IV, the AAD and the text. -/
theorem gcmRoundTrip : Obligations.GcmRoundTrip := by
  refine ⟨fun s t hk hl hx => ?_, ctrText_length, fun s _ s' _ hk hl hk' hl' hrk hiv haad htext hx hx' => ?_⟩
  · obtain ⟨rfl, htag⟩ := eq_gcmDone_of_exec_gcmEncrypt hk hl hx
    refine ⟨_, exec_gcmDecrypt_of_verified hk hl htag, rfl, rfl, fun a => ?_⟩
    rw [crypted_gcmDone_crypted]
    exact bufByte_gcmDone_gcmDone (crypted_length s) a
  · obtain ⟨rfl, -⟩ := eq_gcmDone_of_exec_gcmEncrypt hk hl hx
    obtain ⟨rfl, -⟩ := eq_gcmDone_of_exec_gcmEncrypt hk' hl' hx'
    have hj0 : j0Of s' = j0Of s := by rw [j0Of, j0Of, hrk, hiv]
    have hcrypted : crypted s' = crypted s := by rw [crypted, crypted, hrk, hj0, htext]
    constructor
    · show gcmTag s'.rk (j0Of s') (aadOf s') (crypted s') = gcmTag s.rk (j0Of s) (aadOf s) (crypted s)
      rw [hrk, hj0, haad, hcrypted]
    · rw [textOf_gcmDone (crypted_length s'), textOf_gcmDone (crypted_length s), hcrypted]

/-- Settles O54: the recomputed tag is the one GCM_ENCRYPT wrote, so any other fails the comparison. -/
theorem changedTagAlwaysFails : Obligations.ChangedTagAlwaysFails := by
  intro s t tag hk hl hx hne
  obtain ⟨rfl, htag⟩ := eq_gcmDone_of_exec_gcmEncrypt hk hl hx
  rw [htag] at hne
  exact ⟨_, exec_gcmDecrypt_of_wrongTag hk hl hne, rfl, rfl, fun _ => rfl⟩

end Sys2Proof.Machine
end

