-- ==== Sys2Proof/Proofs/Exceptions.lean ====
section
/-! PROOFS. Errors stop nothing and interrupts rise as listed (spec/60_exceptions.md R320, R325 to R329, R336): every
step answers a state of the same engine, the port's answer decided by the offset and the control state, and what
changes CTRL.IE. -/

namespace Sys2Proof.Machine

open Sys2Proof.Statement

variable {s t : State}

/-! ### The engine's turn -/

/-- The engine's turn always answers a next state (R320). -/
theorem exists_engineTurn_eq_next (s : State) : ∃ t, engineTurn exec s = .next t := by
  cases hr : s.resetAsserted with
  | true => exact ⟨s, by simp [engineTurn, hr]⟩
  | false =>
    cases hc : s.ctl with
    | init => exact ⟨_, engineTurn_init hr hc⟩
    | idle => exact ⟨s, by simp [engineTurn, hr, hc]⟩
    | busy =>
      obtain ⟨u, c, hx⟩ := engineTurn_busy_shape hr hc
      exact ⟨_, hx⟩

/-- The engine's own steps write neither the parameters nor CTRL. -/
theorem engineTurn_params_ctrlIe (h : engineTurn exec s = .next t) : t.params = s.params ∧ t.ctrlIe = s.ctrlIe := by
  obtain ⟨-, rfl⟩ | ⟨-, -, rfl⟩ | ⟨-, -, i, -, hx⟩ | ⟨-, -, -, rfl⟩ := engineTurn_cases h
  case inr.inr.inl =>
    cases (endsAsChecked_of_exec hx).writes.mayLeave
    exact ⟨rfl, rfl⟩
  all_goals exact ⟨rfl, rfl⟩

/-! ### What a performed write leaves alone -/

@[simp] theorem store_params (s : State) (l : Loc) (d : Word) : (s.store l d).params = s.params := by
  cases l with
  | group g k => exact setGroup_params s g _
  | _ => rfl

/-- WERR is written through STATUS only. -/
theorem store_werr {l : Loc} (d : Word) (hl : l ≠ .status) : (s.store l d).werr = s.werr := by
  cases l with
  | status => exact absurd rfl hl
  | group g k => exact setGroup_werr s g _
  | _ => rfl

/-- CTRL.IE is written through CTRL only. -/
theorem store_ctrlIe {l : Loc} (d : Word) (hl : l ≠ .ctrl) : (s.store l d).ctrlIe = s.ctrlIe := by
  cases l with
  | ctrl => exact absurd rfl hl
  | group g k => exact setGroup_ctrlIe s g _
  | _ => rfl

@[simp] theorem busWrite_params (s : State) (off : Offset) (d : Word) : (s.busWrite off d).params = s.params := by
  obtain ⟨-, e⟩ | ⟨-, -, -, e⟩ | ⟨-, -, e⟩ := busWrite_cases s off d <;> rw [e]
  exact store_params s _ d

theorem busWrite_ctrlIe {off : Offset} (d : Word) (ho : off ≠ 0x008) : (s.busWrite off d).ctrlIe = s.ctrlIe := by
  have hl : locate s.params off ≠ .ctrl := fun h => ho ((locate_register (.inl rfl) h).1 rfl)
  obtain ⟨-, e⟩ | ⟨-, -, -, e⟩ | ⟨-, -, e⟩ := busWrite_cases s off d <;> rw [e]
  exact store_ctrlIe d hl

/-! ### The host's turn -/

theorem busRead_params_ctrlIe (s : State) (off : Offset) :
    (s.busRead off).params = s.params ∧ (s.busRead off).ctrlIe = s.ctrlIe := by
  obtain ⟨d, r, n, e⟩ := busRead_frame s off
  rw [e]
  exact ⟨rfl, rfl⟩

@[simp] theorem hostTurn_params (s : State) : s.hostTurn.params = s.params := by
  obtain ⟨-, e⟩ | ⟨-, off, d, rest, -, e⟩ | ⟨-, off, rest, -, e⟩ | ⟨-, off, m, v, rest, -, e⟩ := hostTurn_cases s <;>
    rw [e]
  · exact busWrite_params s off d
  all_goals exact (busRead_params_ctrlIe s off).1

/-- The host's turn leaves CTRL.IE alone, or writes it with bit 0 of the data of a write to CTRL (R34). -/
theorem hostTurn_ctrlIe (s : State) :
    s.hostTurn.ctrlIe = s.ctrlIe ∨
    ∃ d, s.resetAsserted = false ∧ s.program.head? = some (.wr 0x008 d) ∧ s.hostTurn.ctrlIe = d.getLsbD 0 := by
  obtain ⟨-, e⟩ | ⟨hr, off, d, rest, hp, e⟩ | ⟨-, off, rest, -, e⟩ | ⟨-, off, m, v, rest, -, e⟩ := hostTurn_cases s <;>
    rw [e]
  · exact .inl rfl
  · by_cases ho : off = 0x008
    · subst ho
      exact .inr ⟨d, hr, by rw [hp, List.head?_cons], by rw [busWrite_ctrl]; rfl⟩
    · exact .inl (busWrite_ctrlIe d ho)
  all_goals exact .inl (busRead_params_ctrlIe s off).2

/-! ### Every step -/

/-- Whoever moves, the step answers a next state (R320). -/
theorem exists_step_eq_next (s : State) : ∃ t, step s = .next t := by
  cases hn : s.nextTurn with
  | host => exact ⟨_, step_host hn⟩
  | engine => rw [step_engine hn]; exact exists_engineTurn_eq_next _
  | assertReset => exact ⟨_, step_assertReset hn⟩
  | releaseReset => exact ⟨_, step_releaseReset hn⟩

theorem params_of_step (h : step s = .next t) : t.params = s.params := by
  obtain ⟨-, rfl⟩ | ⟨-, hx⟩ | ⟨-, rfl⟩ | ⟨-, rfl⟩ := step_cases h
  · exact hostTurn_params _
  · exact (engineTurn_params_ctrlIe hx).1
  · rfl
  · rfl

/-- CTRL.IE is set after a step only if it was set, or a write to CTRL sets it. -/
theorem ctrlIe_of_step (h : step s = .next t) (ht : t.ctrlIe = true) :
    s.ctrlIe = true ∨ ∃ d, HostIssues s (.wr 0x008 d) ∧ d.getLsbD 0 = true := by
  obtain ⟨hn, rfl⟩ | ⟨-, hx⟩ | ⟨-, rfl⟩ | ⟨-, rfl⟩ := step_cases h
  · obtain hie | ⟨d, hr, hp, hie⟩ := hostTurn_ctrlIe s.startTurn
    · exact .inl (hie.symm.trans ht)
    · exact .inr ⟨d, ⟨hn, hr, hp⟩, hie.symm.trans ht⟩
  · exact .inl ((engineTurn_params_ctrlIe hx).2.symm.trans ht)
  · exact absurd ht (by simp)
  · exact .inl ht

/-- Settles O6: each agent's turn answers a next state and leaves the parameters alone. -/
theorem everyStepAnswersANextStateOfTheSameEngine : Obligations.EveryStepAnswersANextStateOfTheSameEngine := by
  intro s
  obtain ⟨t, h⟩ := exists_step_eq_next s
  have hp := params_of_step h
  exact ⟨t, h, hp, congrArg capReg hp⟩

/-! ### The answers of the slave port (R336) -/

/-- No command writes a location that does not exist, so a read of one is no draw. -/
theorem busyRead_of_readResp_slverr {l : Loc} (h : l.readResp = .slverr) : s.busyRead l = none := by
  obtain rfl | rfl := eq_of_readResp_slverr h <;> exact busyRead_eq_none_of_running fun i _ => ⟨rfl, by simp⟩

theorem valueAt_of_readResp_slverr {l : Loc} (h : l.readResp = .slverr) : s.valueAt l = 0 := by
  obtain rfl | rfl := eq_of_readResp_slverr h <;> rfl

theorem readResp_of_ne_slverr {l : Loc} (h : l.readResp ≠ .slverr) : l.readResp = .okay := by
  cases hl : l.readResp with
  | okay => rfl
  | slverr => exact absurd hl h

/-- A read where nothing is answers 0 and SLVERR. -/
theorem step_rd_slverr {off : Offset} (hi : HostIssues s (.rd off)) (h : (locate s.params off).readResp = .slverr) :
    step s = .next (answered s 0 .slverr) := by
  rw [step_rd_live hi (busyRead_of_readResp_slverr h), valueAt_of_readResp_slverr h, h]

/-- Every other read answers OKAY, a draw or not. -/
theorem step_rd_okay {off : Offset} (hi : HostIssues s (.rd off)) (h : (locate s.params off).readResp ≠ .slverr) :
    ∃ t v, step s = .next t ∧ t.resp = some (.read v .okay) := by
  cases hb : s.busyRead (locate s.params off) with
  | none => exact ⟨_, _, step_rd_live hi hb, by rw [readResp_of_ne_slverr h]; rfl⟩
  | some d => exact ⟨_, d, step_rd_draw hi hb, rfl⟩

/-- A write that is neither refused nor rejected is performed (R325). -/
theorem busWrite_of_not_rejected {off : Offset} (d : Word) (hw : ¬ NeverWritable s.params off.toNat)
    (hr : ¬ RejectedWrite s off) :
    s.busWrite off d = { s.store (locate s.params off) d with resp := some (.write .okay) } := by
  obtain ⟨h, -⟩ | ⟨h, hc, ha, -⟩ | ⟨-, -, e⟩ := busWrite_cases s off d
  · exact absurd ((refusesWrites_iff s.params off).1 h) hw
  · exact absurd ((rejectedWrite_iff s off).2 ⟨h, ha, hc⟩) hr
  · exact e

/-- Settles O19: a write by the three outcomes of R325, a read by whether there is something at its offset. -/
theorem busErrorsAreExactlyTheListedCases : Obligations.BusErrorsAreExactlyTheListedCases := by
  refine ⟨fun s off d ⟨hn, hr, hp⟩ => ?_, fun s off hi => ?_⟩
  · refine ⟨_, step_write hn hr hp, fun hnever => ?_, fun hrej => ?_, fun ⟨hwritable, hnot⟩ => ?_⟩
    · rw [busWrite_refused (s := s.startTurn) d ((refusesWrites_iff s.params off).2 hnever)]
      rfl
    · obtain ⟨hw, ha, hc⟩ := (rejectedWrite_iff s off).1 hrej
      rw [busWrite_rejected (s := s.startTurn) d hw hc ha]
      rfl
    · rw [busWrite_of_not_rejected (s := s.startTurn) d hwritable hnot]
      refine ⟨rfl, or_iff_not_imp_right.2 fun ho => ?_⟩
      exact store_werr d (mt (locate_eq_status_iff s.params off).1 ho)
  · have hbad : (locate s.params off).readResp = .slverr ↔ Misaligned off.toNat ∨ Reserved s.params off.toNat :=
      readResp_iff s.params off
    rw [← hbad]
    by_cases h : (locate s.params off).readResp = .slverr
    · exact ⟨_, step_rd_slverr hi h, fun _ => rfl, fun h' => absurd h h'⟩
    · obtain ⟨t, v, hstep, hresp⟩ := step_rd_okay hi h
      exact ⟨t, hstep, fun h' => absurd h' h, fun _ => ⟨v, hresp⟩⟩

/-! ### The interrupt (R328, R329) -/

/-- Settles O58: the invariant keeps DONE clear while BUSY; `irq` needs IE and DONE, and whichever of them was clear is
set by its own event. -/
theorem completionNeverMeetsDone : Obligations.CompletionNeverMeetsDone := by
  intro s t hinv h
  refine ⟨fun hc => (hinv.busyLive hc.2).1, fun hlow hhigh => ?_⟩
  obtain ⟨hie, hdone⟩ := Bool.and_eq_true_iff.1 hhigh
  have hrules := doneIsSetByCompletionAndClearedAsListed.2.2 s t h
  obtain hc | ⟨hs, -⟩ := hrules.1.1 hdone
  · exact .inl hc
  · obtain hs' | hw := ctrlIe_of_step h hie
    · simp [State.irq, hs, hs'] at hlow
    · exact .inr hw

end Sys2Proof.Machine
end

