-- ==== Sys2Proof/Proofs/ResetAndInit.lean ====
section
/-! PROOFS. Reset and initialisation (spec/70_reset_and_hazards.md R350 to R352): the values reset gives, that nothing
moves while it is asserted, and InitDone. -/

namespace Sys2Proof.Machine

open Sys2Proof.Statement

/-! ### The reset state -/

theorem bufBytes_le_of_legal {p : Params} (hp : p.legal = true) : p.bufBytes ≤ 32768 := by
  simp only [Params.legal, Params.bufBytesLegal, Bool.and_eq_true, decide_eq_true_eq] at hp
  obtain ⟨⟨-, hmax⟩, -⟩ := hp
  exact hmax

/-- The fields of CAP at their places (R33): the number of blocks of a legal BUF fits in its 16 bits. -/
theorem capReg_toNat {p : Params} (hp : p.legal = true) :
    (capReg p).toNat = p.bufBytes / 16 * 2 ^ 16 + 0x10 * 2 ^ 8 + p.hasHwsub.toNat := by
  have hmax := bufBytes_le_of_legal hp
  have hblocks : p.bufBytes / 16 % 2 ^ 16 = p.bufBytes / 16 := Nat.mod_eq_of_lt (by omega)
  simp only [capReg, toNat_append_eq_add, flagBit_toNat, BitVec.ofNat_eq_ofNat, BitVec.toNat_ofNat, hblocks]
  omega

/-- Settles O29: the reset state is written out in the model, but for CAP, which is the sum of its fields. -/
theorem resetStateHoldsTheListedValues : Obligations.ResetStateHoldsTheListedValues :=
  ⟨rfl, rfl, rfl, rfl, rfl, rfl, rfl, rfl, rfl, rfl, rfl, rfl, rfl, rfl, rfl, fun _ hi => Vector.getElem_replicate hi,
    rfl, rfl, rfl, rfl, rfl, rfl, rfl, rfl, rfl, fun _ hp => capReg_toNat hp⟩

/-- The reset values have the invariant: both memories are empty, the table is not built, and there is no context. -/
theorem State.Inv.resetOf {p : Params} (hp : p.legal = true) : (State.resetOf p).Inv where
  paramsLegal := hp
  ivmemWf := by simp [State.resetOf, Memory.wf]
  bufWf := by simp [State.resetOf, Memory.wf]
  gsClear := rfl
  tableBuilt := by simp [State.resetOf]
  busyLive := nofun
  initQuiet _ := ⟨rfl, rfl, rfl⟩
  noContext _ := ⟨rfl, rfl⟩
  noHwsub _ := nofun
  heldInReset _ := rfl

/-- Settles O56: the instance of the test vectors is one of the legal engines. -/
theorem everyLegalInstanceResetsIntoTheInvariant : Obligations.EveryLegalInstanceResetsIntoTheInvariant :=
  ⟨State.Inv.resetOf (by decide), fun _ hp => State.Inv.resetOf hp⟩

/-! ### Reset asserted and released -/

/-- No byte is written at an assertion of reset, so each holds the draw of the new reset (R350). -/
theorem ivByte_assertReset (s : State) (a : Nat) : s.assertReset.ivByte a = Config.ivmemDraw (s.epoch + 1) a := by
  rw [State.ivByte, assertReset_ivmem, Memory.get?, Option.getD_none, assertReset_epoch]

theorem bufByte_assertReset (s : State) (a : Nat) : s.assertReset.bufByte a = Config.bufDraw (s.epoch + 1) a := by
  rw [State.bufByte, assertReset_buf, Memory.get?, Option.getD_none, assertReset_epoch]

@[simp] theorem assertReset_irq (s : State) : s.assertReset.irq = false := rfl

/-- While reset is asserted the port accepts no transaction (R351). -/
theorem hostTurn_of_resetAsserted {s : State} (hr : s.resetAsserted = true) : s.hostTurn = s := by
  obtain ⟨-, e⟩ | ⟨hr', -⟩ | ⟨hr', -⟩ | ⟨hr', -⟩ := hostTurn_cases s
  · exact e
  all_goals simp [hr] at hr'

/-- While reset is asserted the engine takes no step (R351). -/
theorem engineTurn_of_resetAsserted {s : State} (hr : s.resetAsserted = true) : engineTurn exec s = .next s := by
  rw [engineTurn, if_pos hr]

/-- While reset is asserted a turn of the host or of the engine is only used up. -/
theorem step_of_resetAsserted {s : State} (hr : s.resetAsserted = true)
    (hn : s.nextTurn = .host ∨ s.nextTurn = .engine) : step s = .next s.startTurn := by
  obtain hn | hn := hn
  · rw [step_host hn, hostTurn_of_resetAsserted (s := s.startTurn) hr]
  · rw [step_engine hn, engineTurn_of_resetAsserted (s := s.startTurn) hr]

/-- Settles O30: the three turns that reset takes part in, asserted, held and released; the reset values are the
`assertReset_` lemmas. -/
theorem resetPutsEveryPieceOfStateToItsResetValue : Obligations.ResetPutsEveryPieceOfStateToItsResetValue := by
  refine ⟨fun s hn => ⟨_, step_assertReset hn, ?_⟩, fun s hr hn => step_of_resetAsserted hr hn,
    fun s hn => step_releaseReset hn⟩
  simp [ivByte_assertReset, bufByte_assertReset]

/-! ### Initialisation -/

/-- The entries InitDone builds (R188). -/
theorem tableEntry_initDone (s : State) (k : Nat) (b : Byte) :
    s.initDone.tableEntry k b = layer ((sbox b).setWidth 32 <<< (24 - 8 * k)) := by
  rw [tableEntry_of_built (initDone_tt s), tableWord, diffuse_eq_layer]

/-- InitDone as a step (R352). -/
theorem step_initDone {s : State} (h : EngineMoves s) (hc : s.ctl = .init) : step s = .next s.startTurn.initDone := by
  obtain ⟨hn, hr⟩ := h
  exact (step_engine hn).trans (engineTurn_init (s := s.startTurn) hr hc)

/-- Before InitDone the port rejects a write to CMD, as every write the engine takes in IDLE only (R89). -/
theorem step_wr_cmd_init {s : State} {w : Word} (hi : HostIssues s (.wr 0x010 w)) (hc : s.ctl = .init) :
    step s = .next { afterLine s with werr := true, resp := some (.write .slverr) } := by
  obtain ⟨hn, hr, hp⟩ := hi
  have hidle : s.startTurn.ctl ≠ .idle := by simp [hc]
  rw [step_write hn hr hp, busWrite_rejected w rfl hidle rfl]
  rfl

/-- Settles O31: InitDone as a step, and the write to CMD it is too early for. -/
theorem initDoneBuildsTheTableAndNothingElse : Obligations.InitDoneBuildsTheTableAndNothingElse :=
  ⟨fun s h hc => ⟨_, step_initDone h hc, rfl, rfl, fun k b _ => tableEntry_initDone s.startTurn k b⟩,
    fun _ _ hi hc => step_wr_cmd_init hi hc⟩

end Sys2Proof.Machine
end
